-- ==== Sys2Proof/Word.lean ====
section
/-! DEFINITION. The word types of the PFR (00_scope R8, 20_memory R62): bytes, 32-bit values, 9-bit port symbols. -/

namespace Sys2Proof

/-- A byte: 8 bits, bit 7 the most significant (R8). -/
abbrev Byte := BitVec 8

/-- A 32-bit value: a checksum (R100) or the contents of a CSR (R35). -/
abbrev Word := BitVec 32

/-- The 9 bits of one port transfer, bit 8 `end`, bits [7:0] `data` (R62, R88). -/
abbrev SymWord := BitVec 9

/-- `zext_32` of a byte (R8). -/
def zext32 (b : Byte) : Word := b.setWidth 32

end Sys2Proof
end

