-- ==== Sys2Proof/Config.lean ====
section
/-! DEFINITION. The constants FRH fixes (00_scope R6), and the free values: the bytes of the two private buffers that
no rule has written since the last reset (10_state R24, R29, R45; 93 U6). -/

namespace Sys2Proof

/-- `VERSION`, the only protocol version (R6). -/
abbrev Config.version : Byte := 1#8

/-- `OVERHEAD`: 2 header bytes and 4 checksum bytes (R6). -/
abbrev Config.overhead : Nat := 6

/-- `MAX_PAYLOAD` (R6); also the size of `tbuf` and of `rbuf` (R20). -/
abbrev Config.maxPayload : Nat := 255

/-- FREE VALUE (log entry 6): the byte at index `i` of `tbuf` that nothing has written since reset number `epoch`. -/
opaque Config.tbufUnspecified (epoch i : Nat) : Byte

/-- FREE VALUE (log entry 6): the byte at index `i` of `rbuf` that nothing has written since reset number `epoch`. -/
opaque Config.rbufUnspecified (epoch i : Nat) : Byte

end Sys2Proof
end

