-- ==== Sys2Proof/Syntax.lean ====
section
/-! DEFINITION. The syntax: symbols, packets, errors, the 19 operations of spec/opcode_table.json, and what the decoder
reads them from (an `Offer`: a step label with its raw bits, 30_encoding R88, R89). -/

namespace Sys2Proof

/-- One transfer on a port: `Byte(b)` or `End` (R12, R62). -/
inductive Symbol where
  | byte (b : Byte)
  | endMark
  deriving DecidableEq, Repr

/-- The four PacketErrors, "exactly four kinds, no others" (R220), in FRH's order (R31). -/
inductive PacketError where
  | invalidPacket
  | invalidChecksum
  | unknownProtocolVersion
  | corruptedMessage
  deriving DecidableEq, Repr

/-- A packet's four fields (R100). The invariant of R100 is `Packet.wf`. -/
structure Packet where
  version  : Byte
  length   : Byte
  payload  : List Byte
  checksum : Word
  deriving DecidableEq, Repr

/-- The two forms of a result, `Ok(v)` and `Err(e)` (R10). -/
inductive Result (α : Type) where
  | ok (v : α)
  | err (e : PacketError)
  deriving DecidableEq, Repr

/-- The operations: one constructor per row of spec/opcode_table.json, in the table's order. -/
inductive Instr where
  /-- `FRAME`: a wire frame with version byte 0x01 (R80, R81); its length byte is the length of `payload`. -/
  | frame (payload : List Byte) (checksum : Word)
  /-- `FRAME.BADVER`: a first byte other than 0x01 and the byte after it (R85). -/
  | frameBadver (version byte1 : Byte)
  /-- `TXIN.B`: the message byte `d` is offered on `TX_IN` (R150, R153). -/
  | txinB (d : Byte)
  /-- `TXIN.E`: `End` is offered on `TX_IN`; `x` are its ignored data bits (R150, R156, R157). -/
  | txinE (x : Byte)
  /-- `RXIN.B`: the wire byte `d` is offered on `RX_IN` (R171). -/
  | rxinB (d : Byte)
  /-- `RXIN.E`: `End` is offered on `RX_IN`; `x` are its ignored data bits (R180, R181). -/
  | rxinE (x : Byte)
  /-- `TXOUT`: the host takes the next wire symbol (R205). -/
  | txout
  /-- `RXOUT`: the host takes the next message symbol (R206). -/
  | rxout
  /-- `CSRR n` (R201). -/
  | csrr (n : Nat)
  /-- `CSRW n, v` (R202), but for the words that are `RXCLR`. -/
  | csrw (n : Nat) (v : Word)
  /-- `RXCLR` = `CSRW CTRL, v` with bit 0 of `v` set (R204). -/
  | rxclr (v : Word)
  /-- `RESET` (R250). -/
  | reset
  /-- `checksum` (R103). -/
  | checksum (payload : List Byte)
  /-- `fromSource` (R101). -/
  | fromSource (source : List Byte) (capacity : Byte)
  /-- `serialize` (R102). -/
  | serialize (packet : Packet)
  /-- `deserialize` (R104). -/
  | deserialize (bytes : List Byte)
  /-- `toPackets` (R121). -/
  | toPackets (message : List Byte) (capacity : Byte)
  /-- `toPacketData` (R131). -/
  | toPacketData (message : List Byte) (capacity : Byte)
  /-- `fromPacketData` (R134). -/
  | fromPacketData (bytes : List Byte)
  deriving DecidableEq, Repr

/-- A call of a transaction-level function as the caller writes it (R91): the capacity is any natural number. -/
inductive Call where
  | checksum (payload : List Byte)
  | fromSource (source : List Byte) (capacity : Nat)
  | serialize (packet : Packet)
  | deserialize (bytes : List Byte)
  | toPackets (message : List Byte) (capacity : Nat)
  | toPacketData (message : List Byte) (capacity : Nat)
  | fromPacketData (bytes : List Byte)
  deriving DecidableEq, Repr

/-- What the decoder reads: the step label, which selects how the bits beside it are read (R88, R89, R93), and those
bits. Wire bytes stand on `RX_IN`; a 9-bit symbol stands on the port its label names. -/
inductive Offer where
  | wire (bytes : List Byte)
  | txIn (w : SymWord)
  | rxIn (w : SymWord)
  | txOut
  | rxOut
  | csrRead (n : Nat)
  | csrWrite (n : Nat) (v : Word)
  | reset
  | call (c : Call)
  deriving DecidableEq, Repr

/-- One line of the host's program (R91): which step is attempted next. `txIn`, `rxIn` and `frame` take their symbols
from the port; `offerTx`, `offerRx`, `withdrawTx`, `withdrawRx` are the host's own acts outside the block (R11: "it
offers symbols"; R260: it removes them) and are no operations of the opcode table (log entry 12). -/
inductive Move where
  | txIn
  | rxIn
  | frame
  | txOut
  | rxOut
  | csrRead (n : Nat)
  | csrWrite (n : Nat) (v : Word)
  | reset
  | call (c : Call)
  | offerTx (ws : List SymWord)
  | offerRx (ws : List SymWord)
  | withdrawTx (n : Nat)
  | withdrawRx (n : Nat)
  deriving DecidableEq, Repr

end Sys2Proof
end

