-- ==== Sys2Proof/WellFormed.lean ====
section
/-! DEFINITION. Which packets and instructions are well formed: the constraints the encodings of 30_encoding and the
packet invariant of 40_packet_codec R100 put on operands. -/

namespace Sys2Proof

/-- The invariant of R100: "`length == len(payload)` and `checksum == Σ payload[i]` always hold", and `version` is the
constant 1. The sum is of natural numbers: for at most 255 bytes the 32-bit wraparound never acts (R103). -/
def Packet.wf (p : Packet) : Bool :=
  p.version == Config.version && p.length.toNat == p.payload.length && p.checksum.toNat == (p.payload.map BitVec.toNat).sum

/-- The operands an instruction's encoding can carry. `FRAME`: the payload's length fits the length byte (R83). -/
def Instr.wf : Instr → Bool
  | .frame payload _ => decide (payload.length ≤ Config.maxPayload)
  | .frameBadver version _ => version != Config.version
  | .txinB _ => true
  | .txinE _ => true
  | .rxinB _ => true
  | .rxinE _ => true
  | .txout => true
  | .rxout => true
  | .csrr _ => true
  | .csrw n v => !(n == 1 && v.getLsbD 0)
  | .rxclr v => v.getLsbD 0
  | .reset => true
  | .checksum _ => true
  | .fromSource _ _ => true
  | .serialize packet => packet.wf
  | .deserialize _ => true
  | .toPackets _ _ => true
  | .toPacketData _ _ => true
  | .fromPacketData _ => true

end Sys2Proof
end

