-- ==== Sys2Proof/Decode.lean ====
section
/-! DEFINITION. The decoder, total on every offer, and the encoder, both from the encodings of 30_encoding; the byte-order
and symbol helpers they use. -/

namespace Sys2Proof

/-! ### Byte order and symbols -/

/-- `be32(v)`: most significant byte first (R9, R63). -/
def be32 (v : Word) : List Byte :=
  [v.extractLsb' 24 8, v.extractLsb' 16 8, v.extractLsb' 8 8, v.extractLsb' 0 8]

/-- `{ v[23:0], b }`: the big-endian assembly step (R177). -/
def shiftInByte (v : Word) (b : Byte) : Word := v.extractLsb' 0 24 ++ b

/-- `be32dec` of the bytes given, assembled from the first on (R9). -/
def be32dec (bs : List Byte) : Word := bs.foldl shiftInByte 0#32

/-- The 9 bits of `Byte(b)`: `0dddddddd` (R88). -/
def byteWord (b : Byte) : SymWord := 0#1 ++ b

/-- The 9 bits of `End` with data bits `x`: `1xxxxxxxx` (R88). -/
def endWord (x : Byte) : SymWord := 1#1 ++ x

/-- `end`, bit 8 of a symbol (R62). -/
def isEnd (w : SymWord) : Bool := w.getLsbD 8

/-- `data`, bits [7:0] of a symbol (R62). -/
def dataBits (w : SymWord) : Byte := w.extractLsb' 0 8

/-- The symbol a 9-bit word on an input port is: the data bits of an `End` are ignored (R62, U8). -/
def symbolOfWord (w : SymWord) : Symbol := if isEnd w then .endMark else .byte (dataBits w)

/-- The 9 bits an output port drives: the data bits of `End` are 0 (R62, R88). -/
def wordOfSymbol : Symbol → SymWord
  | .byte b => byteWord b
  | .endMark => endWord 0#8

/-! ### The decoder -/

/-- Why a decoder refuses what it is given. -/
inductive Reject where
  /-- No byte: no frame starts here. -/
  | noByte
  /-- One byte only: R85 needs "at least one more byte"; the header cannot be read (R104 step 1). -/
  | headerUnreadable
  /-- Fewer than `6 + L` bytes (R83; R104 step 3). -/
  | frameCut
  /-- A capacity above 255 cannot be expressed (93 U4, 92 D30). -/
  | capacityAbove255
  /-- The operand breaks the packet invariant of R100, so it is no Packet. -/
  | notAPacket
  deriving DecidableEq, Repr

/-- A decoder of wire bytes "from the two wire rows and rule R83 alone" (R93): the instruction at the front and the bytes
after it. The frame size `6 + L` is a natural number and is not truncated to 8 bits (R83). -/
def decodeWire : List Byte → Except Reject (Instr × List Byte)
  | [] => .error .noByte
  | [_] => .error .headerUnreadable
  | version :: len :: rest =>
    if version = Config.version then
      if rest.length < len.toNat + 4 then .error .frameCut
      else .ok (.frame (rest.take len.toNat) (be32dec ((rest.drop len.toNat).take 4)), rest.drop (len.toNat + 4))
    else .ok (.frameBadver version len, rest)

/-- `TXIN.B` and `TXIN.E` (R88). -/
def decodeTxSymbol (w : SymWord) : Instr := if isEnd w then .txinE (dataBits w) else .txinB (dataBits w)

/-- `RXIN.B` and `RXIN.E` (R88). -/
def decodeRxSymbol (w : SymWord) : Instr := if isEnd w then .rxinE (dataBits w) else .rxinB (dataBits w)

/-- A CSR write: `RXCLR` is `CSRW 1, v` with `v[0] = 1` (R89). -/
def decodeCsrWrite (n : Nat) (v : Word) : Instr := if n == 1 && v.getLsbD 0 then .rxclr v else .csrw n v

/-- A capacity operand: 0 to 255 (R101; 93 U4). -/
def decodeCapacity (capacity : Nat) (f : Byte → Instr) : Except Reject Instr :=
  if capacity ≤ 255 then .ok (f (BitVec.ofNat 8 capacity)) else .error .capacityAbove255

/-- A call of a transaction-level function (R91). -/
def decodeCall : Call → Except Reject Instr
  | .checksum payload => .ok (.checksum payload)
  | .fromSource source capacity => decodeCapacity capacity (.fromSource source)
  | .serialize packet => if packet.wf then .ok (.serialize packet) else .error .notAPacket
  | .deserialize bytes => .ok (.deserialize bytes)
  | .toPackets message capacity => decodeCapacity capacity (.toPackets message)
  | .toPacketData message capacity => decodeCapacity capacity (.toPacketData message)
  | .fromPacketData bytes => .ok (.fromPacketData bytes)

/-- The decoder: the label selects how the bits are read (R93). -/
def decode : Offer → Except Reject Instr
  | .wire bytes => (decodeWire bytes).map Prod.fst
  | .txIn w => .ok (decodeTxSymbol w)
  | .rxIn w => .ok (decodeRxSymbol w)
  | .txOut => .ok .txout
  | .rxOut => .ok .rxout
  | .csrRead n => .ok (.csrr n)
  | .csrWrite n v => .ok (decodeCsrWrite n v)
  | .reset => .ok .reset
  | .call c => decodeCall c

/-! ### The encoder -/

/-- The bytes of a frame: `00000001 LLLLLLLL (PPPPPPPP){L} C C C C` (R81). -/
def frameBytes (payload : List Byte) (checksum : Word) : List Byte :=
  [Config.version, BitVec.ofNat 8 payload.length] ++ payload ++ be32 checksum

/-- The offer that stands for an instruction (R81, R85, R88, R89). -/
def encode : Instr → Offer
  | .frame payload checksum => .wire (frameBytes payload checksum)
  | .frameBadver version byte1 => .wire [version, byte1]
  | .txinB d => .txIn (byteWord d)
  | .txinE x => .txIn (endWord x)
  | .rxinB d => .rxIn (byteWord d)
  | .rxinE x => .rxIn (endWord x)
  | .txout => .txOut
  | .rxout => .rxOut
  | .csrr n => .csrRead n
  | .csrw n v => .csrWrite n v
  | .rxclr v => .csrWrite 1 v
  | .reset => .reset
  | .checksum payload => .call (.checksum payload)
  | .fromSource source capacity => .call (.fromSource source capacity.toNat)
  | .serialize packet => .call (.serialize packet)
  | .deserialize bytes => .call (.deserialize bytes)
  | .toPackets message capacity => .call (.toPackets message capacity.toNat)
  | .toPacketData message capacity => .call (.toPacketData message capacity.toNat)
  | .fromPacketData bytes => .call (.fromPacketData bytes)

/-! ### The opcode table's words -/

/-- Byte `k` of a word of `nbits` bits: byte 0 holds its least significant bits, and every bit above `nbits` is zero. -/
def tableByte (nbits w k : Nat) : Byte := BitVec.ofNat 8 ((w % 2 ^ nbits) >>> (8 * k))

/-- The bytes of a word of `nbits` bits, with zero bytes after them up to the size `6 + L` of the frame it starts (R83). -/
def tableBytes (nbits w : Nat) : List Byte :=
  (List.range (max ((nbits + 7) / 8) (Config.overhead + (tableByte nbits w 1).toNat))).map (tableByte nbits w)

/-- How a word of the opcode table is offered (log entry 4): 9 to 16 bits are one 9-bit symbol, read on `TX_IN`, where
they fit in 9 bits; every other word is the front of a wire stream. -/
def tableOffer (nbits w : Nat) : Offer :=
  if 9 ≤ nbits ∧ nbits ≤ 16 ∧ w % 2 ^ nbits < 512 then .txIn (BitVec.ofNat 9 (w % 2 ^ nbits))
  else .wire (tableBytes nbits w)

/-- The instruction the decoder reads from a word of the opcode table. -/
def decodeTableWord (nbits w : Nat) : Option Instr := (decode (tableOffer nbits w)).toOption

end Sys2Proof
end

