-- ==== Sys2Proof/Machine/State.lean ====
section
/-! DEFINITION. The state of the PFR (10_state R20), the host's side of the ports (log entry 1), the reasons a step stops,
and the state after reset (R45). -/

namespace Sys2Proof.Machine

/-- A buffer: (index, byte) pairs, indices strictly rising; an unlisted index has not been written. -/
abbrev Memory := List Host.Cell

/-- `tx_ctl` (R22). The value 3 is never taken. -/
inductive TxCtl where
  | idle
  | collect
  | abort
  deriving DecidableEq, Repr

/-- `rx_ctl` (R26). -/
inductive RxCtl where
  | idle
  | len
  | payload
  | csum
  | acc
  | done
  | failed
  | abort
  deriving DecidableEq, Repr

/-- The TX engine's state (R20, R43). -/
structure Tx where
  ctl  : TxCtl
  /-- capacity latched for the message in progress (R23) -/
  tcap : Byte
  /-- bytes of the current chunk held in `tbuf` (R23) -/
  tcnt : Byte
  /-- sum of the bytes held (R23) -/
  tsum : Word
  /-- the current chunk (R24) -/
  tbuf : Memory
  /-- `tx_q`: symbols produced and not yet taken (R33), oldest first -/
  q    : List Symbol
  deriving DecidableEq, Repr

/-- The RX engine's state (R20, R43). -/
structure Rx where
  ctl   : RxCtl
  /-- version byte of the frame in progress (R27) -/
  rver  : Byte
  /-- length byte of the frame in progress (R27) -/
  rlen  : Byte
  /-- index of the next payload or checksum byte (R27) -/
  ridx  : Byte
  /-- sum of the payload bytes of this frame so far (R28) -/
  rsum  : Word
  /-- checksum bytes received so far, big-endian (R28) -/
  rcsum : Word
  /-- payload of the frame in progress, not yet validated (R29) -/
  rbuf  : Memory
  /-- payloads of all validated frames of this stream (R30) -/
  acc   : List Byte
  /-- the error that put the engine into `RXS_FAILED`; none is code 0 (R31) -/
  rerr  : Option PacketError
  /-- `RxOut` steps done in `RXS_DONE` (R32) -/
  rrd   : Nat
  /-- wire bytes accepted in this stream, modulo 2^32 (R25) -/
  roff  : Word
  /-- `roff` at the first byte of the current or last frame (R25) -/
  rfoff : Word
  deriving DecidableEq, Repr

/-- A value an operation returns to the host or caller. -/
inductive Reply where
  /-- `CSRR` (R201) -/
  | csr (v : Word)
  /-- `TXOUT`, `RXOUT` (R205, R206) -/
  | symbol (s : Symbol)
  /-- `checksum` (R103) -/
  | checksum (v : Word)
  /-- `fromSource` (R101) -/
  | chunk (p : Packet) (rest : List Byte)
  /-- `serialize`, `toPacketData` (R102, R131) -/
  | bytes (bs : List Byte)
  /-- `deserialize` (R104) -/
  | parsed (r : Result (Packet × List Byte))
  /-- `toPackets` (R121) -/
  | packets (ps : List Packet)
  /-- `fromPacketData` (R134) -/
  | message (r : Result (List Byte))
  deriving DecidableEq, Repr

/-- The host's side: what it offers, what it has taken, what it does next (R11, R200). The model's own fields, no state
of the PFR (R46; log entry 1). -/
structure Env where
  /-- symbols offered on `TX_IN` and not yet accepted, oldest first -/
  txIn     : List SymWord
  /-- symbols offered on `RX_IN` and not yet accepted, oldest first -/
  rxIn     : List SymWord
  /-- symbols taken on `TX_OUT`, oldest first -/
  txGot    : List Symbol
  /-- symbols taken on `RX_OUT`, oldest first -/
  rxGot    : List Symbol
  /-- the steps to be attempted, next first -/
  moves    : List Move
  /-- the last value returned -/
  reply    : Option Reply
  /-- whether the host feeds every symbol it takes from `TX_OUT` to `RX_IN` (R72, R207) -/
  loopback : Bool
  deriving DecidableEq, Repr

/-- The whole state: the PFR's (R20) in `cap`, `tx`, `rx`; the parameter `ACC_MAX` (R7; none is `unbounded`; log entry
7); the reset counter of the free values (log entry 6); and the host's side. -/
structure State where
  cap    : Byte
  tx     : Tx
  rx     : Rx
  accMax : Option Nat
  epoch  : Nat
  env    : Env
  deriving DecidableEq, Repr

/-- Why a step stops. -/
inductive Fault where
  /-- Raised by `fromSource`, `toPackets`, `toPacketData` called with capacity 0: the fatal abort of R101, R121, R232; "the
  function returns no value at all". Safe: the run stops where the software's does. -/
  | capZero
  /-- Raised by `TXIN.B` when it would store to `tbuf[255]`, which does not exist (R24); no reachable state does (R44 b).
  Safe. -/
  | tbufIndex
  /-- Raised by `RXIN.B` and `FRAME` when they would store to `rbuf[255]`, which does not exist (R29); no reachable state
  does (R44 d). Safe. -/
  | rbufIndex
  deriving DecidableEq, Repr

/-- Why a step has no meaning. -/
inductive Refusal where
  /-- Raised by an arm of `exec` whose instruction has no meaning yet: none. Safe. -/
  | notModelled (mnemonic : String)
  /-- Raised by the fetch of a call whose operand the decoder rejects: a capacity above 255 (93 U4: `refuse`, "the input
  cannot be expressed"), or four fields that break the invariant of R100 and so are no Packet. Safe. -/
  | rejected (why : Reject)
  deriving DecidableEq, Repr

/-- The TX engine after reset (R45). -/
def Tx.reset : Tx :=
  { ctl := .idle, tcap := 0#8, tcnt := 0#8, tsum := 0#32, tbuf := [], q := [] }

/-- The RX engine after reset (R45). -/
def Rx.reset : Rx :=
  { ctl := .idle, rver := 0#8, rlen := 0#8, ridx := 0#8, rsum := 0#32, rcsum := 0#32, rbuf := [], acc := [],
    rerr := none, rrd := 0, roff := 0#32, rfoff := 0#32 }

/-- A host that offers nothing, has taken nothing and does nothing (log entry 1). -/
def Env.quiet : Env :=
  { txIn := [], rxIn := [], txGot := [], rxGot := [], moves := [], reply := none, loopback := false }

/-- The machine right after reset (R45), with the reference value `unbounded` of `ACC_MAX` (R7). -/
def State.reset : State :=
  { cap := 0#8, tx := Tx.reset, rx := Rx.reset, accMax := none, epoch := 0, env := Env.quiet }

end Sys2Proof.Machine
end

