-- ==== Sys2Proof/Machine/Ops.lean ====
section
/-! DEFINITION. The named operations over the buffers and the registers: buffer access, the updates of State, the entry
into the failed and the fatal states (60_exceptions R228, R232), and the two ways back (R204, R250). -/

namespace Sys2Proof.Machine

/-- The three outcomes of a step of this machine. -/
abbrev Out := Host.Outcome State Fault Refusal

/-! ### Buffers (20_memory R60: `MemRead`, `MemWrite`, one byte an access) -/

/-- The canonical form: indices strictly rising, every one an index of a 255-byte buffer (R24, R29). -/
abbrev Memory.wf (m : Memory) : Prop :=
  m.Pairwise (fun x y => x.1 < y.1) ∧ ∀ c ∈ m, c.1 < Config.maxPayload

/-- The byte written at an index; none if nothing has been written there. -/
def Memory.read : Memory → Nat → Option Byte
  | [], _ => none
  | (k, b) :: rest, i => if k = i then some b else Memory.read rest i

/-- Write one byte, keeping the canonical form. -/
def Memory.write : Memory → Nat → Byte → Memory
  | [], i, b => [(i, b)]
  | (k, c) :: rest, i, b =>
    if i < k then (i, b) :: (k, c) :: rest
    else if i = k then (i, b) :: rest
    else (k, c) :: Memory.write rest i b

/-- A store into a buffer: the indices are 0 to 254 (R24, R29), and no other exists. -/
def Memory.store (m : Memory) (i : Nat) (b : Byte) : Option Memory :=
  if i < Config.maxPayload then some (m.write i b) else none

/-- What an engine reads at an index: the byte written there, else the free value (log entry 6). -/
def Memory.load (free : Nat → Byte) (m : Memory) (i : Nat) : Byte := (m.read i).getD (free i)

/-- The first `n` bytes of a buffer, `buf[0..n]` (R9). -/
def Memory.bytes (free : Nat → Byte) (m : Memory) (n : Nat) : List Byte := (List.range n).map (m.load free)

/-! ### Updates of State -/

/-- A new TX engine state. -/
def State.setTx (s : State) (t : Tx) : State := { s with tx := t }

/-- A new RX engine state. -/
def State.setRx (s : State) (r : Rx) : State := { s with rx := r }

/-- `CAP <- c` (R203). -/
def State.setCap (s : State) (c : Byte) : State := { s with cap := c }

/-- A new host side. -/
def State.setEnv (s : State) (e : Env) : State := { s with env := e }

/-- A value returned to the host. -/
def State.answer (s : State) (r : Reply) : State := s.setEnv { s.env with reply := some r }

/-! ### Entry into the failed and the fatal states -/

/-- `code(E)` (R31, R225); 0 is none. -/
def errCode : Option PacketError → BitVec 3
  | none => 0#3
  | some .invalidPacket => 1#3
  | some .invalidChecksum => 2#3
  | some .unknownProtocolVersion => 3#3
  | some .corruptedMessage => 4#3

/-- `fail(E)` (R228): "Nothing else is written." -/
def Rx.fail (e : PacketError) (r : Rx) : Rx := { r with rerr := some e, ctl := .failed }

/-- `abort(CAP_ZERO)` (R232): "Nothing else is written". -/
def Tx.abortCapZero (t : Tx) : Tx := { t with ctl := .abort }

/-- `abort(ACC_OVERFLOW)` (R232): "Nothing else is written". -/
def Rx.abortAccOverflow (r : Rx) : Rx := { r with ctl := .abort }

/-! ### The ways back -/

/-- `rx_clear()` (R204): nothing in `RXS_ABORT`; else every RX register takes its reset value and `rbuf` keeps its
bytes. -/
def Rx.clear (r : Rx) : Rx :=
  if r.ctl = .abort then r
  else
    { r with
      ctl := .idle, rerr := none, acc := [], rrd := 0, rver := 0#8, rlen := 0#8, ridx := 0#8, rsum := 0#32,
      rcsum := 0#32, roff := 0#32, rfoff := 0#32 }

/-- The `Reset` step (R250): every register takes the value of R45; every byte of `tbuf` and `rbuf` is unspecified from
here on, so `epoch` moves to the next free values (log entry 6). What is outside the block is not touched (R252). -/
def State.blockReset (s : State) : State :=
  { s with
    cap := 0#8
    tx := { ctl := .idle, tcap := 0#8, tcnt := 0#8, tsum := 0#32, tbuf := [], q := [] }
    rx := { ctl := .idle, rver := 0#8, rlen := 0#8, ridx := 0#8, rsum := 0#32, rcsum := 0#32, rbuf := [], acc := [],
            rerr := none, rrd := 0, roff := 0#32, rfoff := 0#32 }
    epoch := s.epoch + 1 }

end Sys2Proof.Machine
end

