-- ==== Sys2Proof/Machine/Codec.lean ====
section
/-! DEFINITION. The transaction level, the reference semantics (40_packet_codec, 41_packet_producer, 42_message_codec; 92
D29), and the meanings of the seven function rows: each returns its value to the caller and writes no register. -/

namespace Sys2Proof.Machine

/-! ### PacketCodec -/

/-- `checksum(p)`: the sum of the bytes modulo 2^32 (R103). -/
def checksum (p : List Byte) : Word := p.foldl (fun acc b => acc + zext32 b) 0#32

/-- The packet with this payload (R100: "fully determined by its payload"). -/
def packetOf (payload : List Byte) : Packet :=
  { version := Config.version, length := BitVec.ofNat 8 payload.length, payload := payload, checksum := checksum payload }

/-- `fromSource` (R101); none is the abort `CAP_ZERO`, "whatever `source` is". -/
def fromSource (source : List Byte) (capacity : Byte) : Option (Packet × List Byte) :=
  if capacity = 0#8 then none
  else
    let n := min capacity.toNat source.length
    some (packetOf (source.take n), source.drop n)

/-- `serialize` (R102). -/
def serialize (p : Packet) : List Byte := [p.version, p.length] ++ p.payload ++ be32 p.checksum

/-- `deserialize` (R104), "fail fast, in order". -/
def deserialize (bytes : List Byte) : Result (Packet × List Byte) :=
  match bytes with
  | version :: len :: _ =>
    if version ≠ Config.version then .err .unknownProtocolVersion
    else
      let n := len.toNat
      if bytes.length < Config.overhead + n then .err .invalidPacket
      else
        let payload := (bytes.drop 2).take n
        let wire := be32dec ((bytes.drop (2 + n)).take 4)
        if checksum payload ≠ wire then .err .invalidChecksum
        else
          .ok ({ version := Config.version, length := len, payload := payload, checksum := wire },
            bytes.drop (Config.overhead + n))
  | _ => .err .invalidPacket

/-! ### PacketProducer -/

/-- The loop of `toPackets` (R121), at most `fuel` times round. -/
def toPacketsLoop (capacity : Byte) : Nat → List Byte → Option (List Packet)
  | 0, _ => some []
  | fuel + 1, rest =>
    match fromSource rest capacity with
    | none => none
    | some (p, rest') =>
      if rest' = [] then some [p]
      else (toPacketsLoop capacity fuel rest').map (p :: ·)

/-- `toPackets` (R121); none is the abort. Each round takes a byte, so `len(message) + 1` rounds are enough
(Laws/Codec.lean). -/
def toPackets (message : List Byte) (capacity : Byte) : Option (List Packet) :=
  toPacketsLoop capacity (message.length + 1) message

/-! ### The message validator (R136) -/

/-- The rows of the table of R136: for each byte of a group the lowest and the highest value. -/
def utf8Rows : List (List (Nat × Nat)) :=
  [ [(0x00, 0x7F)],
    [(0xC2, 0xDF), (0x80, 0xBF)],
    [(0xE0, 0xE0), (0xA0, 0xBF), (0x80, 0xBF)],
    [(0xE1, 0xEC), (0x80, 0xBF), (0x80, 0xBF)],
    [(0xED, 0xED), (0x80, 0x9F), (0x80, 0xBF)],
    [(0xEE, 0xEF), (0x80, 0xBF), (0x80, 0xBF)],
    [(0xF0, 0xF0), (0x90, 0xBF), (0x80, 0xBF), (0x80, 0xBF)],
    [(0xF1, 0xF3), (0x80, 0xBF), (0x80, 0xBF), (0x80, 0xBF)],
    [(0xF4, 0xF4), (0x80, 0x8F), (0x80, 0xBF), (0x80, 0xBF)] ]

/-- The bytes after a group matching this row at the front; none if the front does not match. -/
def dropRow : List (Nat × Nat) → List Byte → Option (List Byte)
  | [], m => some m
  | _ :: _, [] => none
  | (lo, hi) :: row, b :: m => if lo ≤ b.toNat ∧ b.toNat ≤ hi then dropRow row m else none

/-- The bytes after a group matching some row. -/
def dropGroup (m : List Byte) : Option (List Byte) := utf8Rows.findSome? (fun row => dropRow row m)

/-- Cutting into groups, at most `fuel` of them. -/
def msgValidLoop : Nat → List Byte → Bool
  | 0, m => m.isEmpty
  | fuel + 1, m =>
    if m.isEmpty then true
    else
      match dropGroup m with
      | none => false
      | some rest => msgValidLoop fuel rest

/-- `MSG_VALID(m)`: `m` is well-formed UTF-8 (R136). No group is empty, so `len(m)` groups are enough. -/
def msgValid (m : List Byte) : Bool := msgValidLoop m.length m

/-! ### MessageCodec -/

/-- `toPacketData` (R131); none is the abort. -/
def toPacketData (message : List Byte) (capacity : Byte) : Option (List Byte) :=
  (toPackets message capacity).map fun ps => (ps.map serialize).flatten

/-- The loop of `fromPacketData` (R134), for any validity predicate (R133), at most `fuel` times round. -/
def fromPacketDataLoop (valid : List Byte → Bool) : Nat → List Byte → List Byte → Result (List Byte)
  | 0, acc, _ => if valid acc then .ok acc else .err .corruptedMessage
  | fuel + 1, acc, rest =>
    if rest = [] then (if valid acc then .ok acc else .err .corruptedMessage)
    else
      match deserialize rest with
      | .err e => .err e
      | .ok (p, rest') => fromPacketDataLoop valid fuel (acc ++ p.payload) rest'

/-- `fromPacketData` for any `MSG_VALID` (R133, 93 U11). Each round takes at least 6 bytes, so `len(bytes)` rounds are
enough (Laws/Codec.lean). -/
def fromPacketDataWith (valid : List Byte → Bool) (bytes : List Byte) : Result (List Byte) :=
  fromPacketDataLoop valid bytes.length [] bytes

/-- `fromPacketData` (R134). -/
def fromPacketData (bytes : List Byte) : Result (List Byte) := fromPacketDataWith msgValid bytes

/-! ### The function rows -/

/-- A call that returns a value. -/
def returns (r : Reply) (s : State) : Out := .next (s.answer r)

/-- A call that may abort: "the function returns nothing at all" (R10, R232). -/
def returnsOrAborts (r : Option Reply) (s : State) : Out :=
  match r with
  | some v => .next (s.answer v)
  | none => .fault .capZero

/-- `checksum` (R103). -/
def execChecksum (payload : List Byte) (s : State) : Out := returns (.checksum (checksum payload)) s

/-- `fromSource` (R101). -/
def execFromSource (source : List Byte) (capacity : Byte) (s : State) : Out :=
  returnsOrAborts ((fromSource source capacity).map fun c => .chunk c.1 c.2) s

/-- `serialize` (R102). -/
def execSerialize (packet : Packet) (s : State) : Out := returns (.bytes (serialize packet)) s

/-- `deserialize` (R104). -/
def execDeserialize (bytes : List Byte) (s : State) : Out := returns (.parsed (deserialize bytes)) s

/-- `toPackets` (R121). -/
def execToPackets (message : List Byte) (capacity : Byte) (s : State) : Out :=
  returnsOrAborts ((toPackets message capacity).map .packets) s

/-- `toPacketData` (R131). -/
def execToPacketData (message : List Byte) (capacity : Byte) (s : State) : Out :=
  returnsOrAborts ((toPacketData message capacity).map .bytes) s

/-- `fromPacketData` (R134). -/
def execFromPacketData (bytes : List Byte) (s : State) : Out := returns (.message (fromPacketData bytes)) s

end Sys2Proof.Machine
end

