-- ==== Sys2Proof/Machine/Operands.lean ====
section
/-! DEFINITION. The operand forms: symbols on the two input ports, symbols given on the two output ports (20_memory R60,
R62, R75), and the host's acts on the ports. -/

namespace Sys2Proof.Machine

/-- The step is not enabled: "the symbol stays offered" (R11, R150), at the front of `TX_IN`. -/
def State.holdTxIn (s : State) (w : SymWord) : State := s.setEnv { s.env with txIn := w :: s.env.txIn }

/-- The steps are not enabled: these symbols stay offered (R11, R182), in order, at the front of `RX_IN`. -/
def State.holdRxIn (s : State) (ws : List SymWord) : State := s.setEnv { s.env with rxIn := ws ++ s.env.rxIn }

/-- The host takes a symbol at `TX_OUT` (R205); in loopback it offers it on `RX_IN` behind what is offered there (R72,
R207). When the host takes one is `txOutReady`. -/
def State.giveTxOut (s : State) (x : Symbol) : State :=
  s.setEnv { s.env with
    txGot := s.env.txGot ++ [x]
    rxIn := if s.env.loopback then s.env.rxIn ++ [wordOfSymbol x] else s.env.rxIn
    reply := some (.symbol x) }

/-- The host takes a symbol at `RX_OUT` (R206). -/
def State.giveRxOut (s : State) (x : Symbol) : State :=
  s.setEnv { s.env with rxGot := s.env.rxGot ++ [x], reply := some (.symbol x) }

/-- The `Byte` symbols at the front of a port, up to the first `End`. -/
def leadingBytes : List SymWord → List Byte
  | [] => []
  | w :: ws => if isEnd w then [] else dataBits w :: leadingBytes ws

end Sys2Proof.Machine
end

