-- ==== Sys2Proof/Machine/Flags.lean ====
section
/-! DEFINITION. The three status bits, each a pure function of the state (10_state R34), the enabling conditions of the
port steps, and the two status registers (R38, R39). -/

namespace Sys2Proof.Machine

/-- `TX_PEND = (tx_q != [])` (R34). -/
def txPend (t : Tx) : Bool := !t.q.isEmpty

/-- `RX_OUT_PEND = (rx_ctl = RXS_DONE and rrd <= len(acc))` (R34). -/
def rxOutPend (r : Rx) : Bool := r.ctl == .done && decide (r.rrd ≤ r.acc.length)

/-- The error indication `rerr != 0` (R34). -/
def errorIndication (r : Rx) : Bool := r.rerr != none

/-- When `TxIn` is enabled (R150): `tx_ctl != TXS_ABORT` and `tx_q = []`. -/
def txInEnabled (t : Tx) : Bool := t.ctl != .abort && t.q.isEmpty

/-- When `RxIn` is enabled (R171): not in the three terminal states (R182). -/
def rxInEnabled (r : Rx) : Bool :=
  match r.ctl with
  | .idle => true
  | .len => true
  | .payload => true
  | .csum => true
  | .acc => true
  | .done => false
  | .failed => false
  | .abort => false

/-- Whether the host takes at `TX_OUT`. With `TX_OUT` connected to `RX_IN` (R72) the `ready` of the one is the `ready` of the
other: a symbol is taken only where the RX engine accepts input and none is waiting before it, so in a terminal state
"`tx_q` does not drain" (R262; log entry 13). -/
def txOutReady (s : State) : Bool := !s.env.loopback || (rxInEnabled s.rx && s.env.rxIn.isEmpty)

/-- The codes of `tx_ctl` (R22, R90). -/
def txCtlCode : TxCtl → BitVec 2
  | .idle => 0#2
  | .collect => 1#2
  | .abort => 2#2

/-- The codes of `rx_ctl` (R26, R90). -/
def rxCtlCode : RxCtl → BitVec 3
  | .idle => 0#3
  | .len => 1#3
  | .payload => 2#3
  | .csum => 3#3
  | .acc => 4#3
  | .done => 5#3
  | .failed => 6#3
  | .abort => 7#3

/-- CSR 2, `TX_STATUS` (R38): `{ 0[31:24], tcap, tcnt, 0[7:3], TX_PEND, tx_ctl }`. -/
def txStatus (t : Tx) : Word :=
  0#8 ++ t.tcap ++ t.tcnt ++ 0#5 ++ BitVec.ofBool (txPend t) ++ txCtlCode t.ctl

/-- CSR 3, `RX_STATUS` (R39): `{ 0[31:9], RX_OUT_PEND, 0, rerr, 0, rx_ctl }`. -/
def rxStatus (r : Rx) : Word :=
  0#23 ++ BitVec.ofBool (rxOutPend r) ++ 0#1 ++ errCode r.rerr ++ 0#1 ++ rxCtlCode r.ctl

end Sys2Proof.Machine
end

