-- ==== Sys2Proof/Machine/HostOps.lean ====
section
/-! DEFINITION. The host operations on the CSR file and reset (45_host_ops R201 to R204, 70_reset_and_hazards R250): the
meanings of `CSRR`, `CSRW`, `RXCLR` and `RESET`. -/

namespace Sys2Proof.Machine

/-- `RX_LEN` (R40): `len(acc)` modulo 2^32 in `RXS_DONE`, else 0. -/
def rxLen (r : Rx) : Word := if r.ctl = .done then BitVec.ofNat 32 r.acc.length else 0#32

/-- `CsrRead(n)` (R201). -/
def csrValue (n : Nat) (s : State) : Word :=
  match n with
  | 0 => zext32 s.cap
  | 1 => 0#32
  | 2 => txStatus s.tx
  | 3 => rxStatus s.rx
  | 4 => rxLen s.rx
  | 5 => s.rx.roff
  | 6 => s.rx.rfoff
  | _ => 0#32

/-- `CsrWrite(n, v)` (R202): `CAP <- v[7:0]` (R203), the RX clear (R204), or nothing. -/
def csrWritten (n : Nat) (v : Word) (s : State) : State :=
  match n with
  | 0 => s.setCap (v.extractLsb' 0 8)
  | 1 => if v.getLsbD 0 then s.setRx s.rx.clear else s
  | _ => s

/-- `CSRR n` (R201): "no state changes" but for the value the host has received. -/
def execCsrr (n : Nat) (s : State) : Out := .next (s.answer (.csr (csrValue n s)))

/-- `CSRW n, v` (R202). -/
def execCsrw (n : Nat) (v : Word) (s : State) : Out := .next (csrWritten n v s)

/-- `RXCLR` (R204): bits [31:1] of the value are ignored. -/
def execRxclr (_v : Word) (s : State) : Out := .next (s.setRx s.rx.clear)

/-- `RESET` (R250). -/
def execReset (s : State) : Out := .next s.blockReset

end Sys2Proof.Machine
end

