-- ==== Sys2Proof/Machine/RxEngine.lean ====
section
/-! DEFINITION. The RX engine (reassembler) at symbol level (44_rx_engine): the rules R173 to R183 under their own names, and
the meanings of `RXIN.B`, `RXIN.E`, `RXOUT`, and of the two wire rows `FRAME` and `FRAME.BADVER`. -/

namespace Sys2Proof.Machine

/-- The bytes of `rbuf` nothing has written (log entry 6). -/
def rbufFree (epoch : Nat) : Nat → Byte := Config.rbufUnspecified epoch

/-- `version_byte(b)` (R174). -/
def Rx.versionByte (b : Byte) (r : Rx) : Rx := { r with rfoff := r.roff - 1#32, rver := b, ctl := .len }

/-- `length_byte(b)` (R175). -/
def Rx.lengthByte (b : Byte) (r : Rx) : Rx :=
  if r.rver ≠ Config.version then r.fail .unknownProtocolVersion
  else
    { r with
      rlen := b, ridx := 0#8, rsum := 0#32, rcsum := 0#32, ctl := if b = 0#8 then .csum else .payload }

/-- `payload_byte(b)` (R176). -/
def Rx.payloadByte (b : Byte) (r : Rx) : Except Fault Rx :=
  match r.rbuf.store r.ridx.toNat b with
  | none => .error .rbufIndex
  | some rbuf =>
    let r' := { r with rbuf := rbuf, rsum := r.rsum + zext32 b, ridx := r.ridx + 1#8 }
    .ok (if r'.ridx = r'.rlen then { r' with ridx := 0#8, ctl := .csum } else r')

/-- Whether `len(acc) + rlen > ACC_MAX` (R178); `unbounded` never is. -/
def accOverflows (accMax : Option Nat) (r : Rx) : Bool :=
  match accMax with
  | none => false
  | some m => decide (m < r.acc.length + r.rlen.toNat)

/-- `commit()` (R178, R183). -/
def Rx.commit (accMax : Option Nat) (epoch : Nat) (r : Rx) : Rx :=
  if accOverflows accMax r then r.abortAccOverflow
  else { r with acc := r.acc ++ r.rbuf.bytes (rbufFree epoch) r.rlen.toNat, ridx := 0#8, ctl := .acc }

/-- `checksum_byte(b)` (R177, R179). -/
def Rx.checksumByte (accMax : Option Nat) (epoch : Nat) (b : Byte) (r : Rx) : Rx :=
  let r' := { r with rcsum := shiftInByte r.rcsum b, ridx := r.ridx + 1#8 }
  if r'.ridx = 4#8 then
    (if r'.rcsum = r'.rsum then r'.commit accMax epoch else r'.fail .invalidChecksum)
  else r'

/-- `end_at_boundary()` (R180). -/
def Rx.endAtBoundary (r : Rx) : Rx :=
  if msgValid r.acc then { r with ctl := .done, rrd := 0 } else r.fail .corruptedMessage

/-- `RxIn(Byte(b))` (R171, R173): `roff` counts first, then the rule of the state. The terminal states accept nothing. -/
def Rx.acceptByte (accMax : Option Nat) (epoch : Nat) (b : Byte) (r : Rx) : Except Fault Rx :=
  let r' := { r with roff := r.roff + 1#32 }
  match r.ctl with
  | .idle => .ok (r'.versionByte b)
  | .acc => .ok (r'.versionByte b)
  | .len => .ok (r'.lengthByte b)
  | .payload => r'.payloadByte b
  | .csum => .ok (r'.checksumByte accMax epoch b)
  | .done => .ok r
  | .failed => .ok r
  | .abort => .ok r

/-- `RxIn(End)` (R171, R180, R181). The terminal states accept nothing. -/
def Rx.acceptEnd (r : Rx) : Rx :=
  match r.ctl with
  | .idle => r.endAtBoundary
  | .acc => r.endAtBoundary
  | .len => r.fail .invalidPacket
  | .payload => r.fail .invalidPacket
  | .csum => r.fail .invalidPacket
  | .done => r
  | .failed => r
  | .abort => r

/-- The reaction of the RX engine to an accepted symbol (R171). -/
def Rx.accept (accMax : Option Nat) (epoch : Nat) (x : Symbol) (r : Rx) : Except Fault Rx :=
  match x with
  | .byte b => r.acceptByte accMax epoch b
  | .endMark => .ok r.acceptEnd

/-- `RxIn(sym)` for the symbol on the port (R171): not enabled, the symbol waits (R182). -/
def rxIn (w : SymWord) (s : State) : Out :=
  if rxInEnabled s.rx then
    match s.rx.accept s.accMax s.epoch (symbolOfWord w) with
    | .ok r => .next (s.setRx r)
    | .error f => .fault f
  else .next (s.holdRxIn [w])

/-- `RXIN.B` (R171, R174 to R179). -/
def execRxinB (d : Byte) (s : State) : Out := rxIn (byteWord d) s

/-- `RXIN.E` (R171, R180, R181). -/
def execRxinE (x : Byte) (s : State) : Out := rxIn (endWord x) s

/-- Wire bytes offered one after another (R92 `RXSTREAM`, without its `END`): the engine after accepting as many as it
does, and the bytes it has not accepted. -/
def Rx.feed (accMax : Option Nat) (epoch : Nat) : List Byte → Rx → Except Fault (Rx × List Byte)
  | [], r => .ok (r, [])
  | b :: bs, r =>
    if rxInEnabled r then
      match r.acceptByte accMax epoch b with
      | .ok r' => Rx.feed accMax epoch bs r'
      | .error f => .error f
    else .ok (r, b :: bs)

/-- Wire bytes on `RX_IN`: those the engine does not accept stay offered (R182). -/
def rxBytes (bs : List Byte) (s : State) : Out :=
  match s.rx.feed s.accMax s.epoch bs with
  | .ok (r, rest) => .next ((s.setRx r).holdRxIn (rest.map byteWord))
  | .error f => .fault f

/-- `FRAME` (R80, R81, R174 to R178; log entry 5): the frame's `6 + L` bytes enter the RX engine. -/
def execFrame (payload : List Byte) (checksum : Word) (s : State) : Out := rxBytes (frameBytes payload checksum) s

/-- `FRAME.BADVER` (R85, R175, R223; log entry 5): its two bytes enter the RX engine. -/
def execFrameBadver (version byte1 : Byte) (s : State) : Out := rxBytes [version, byte1] s

/-- The symbol `RxOut` gives (R206). -/
def Rx.outSymbol (r : Rx) : Symbol :=
  match r.acc[r.rrd]? with
  | some b => .byte b
  | none => .endMark

/-- `RXOUT` (R206): enabled exactly when `rx_ctl = RXS_DONE` and `rrd <= len(acc)`; else nothing happens. -/
def execRxout (s : State) : Out :=
  if rxOutPend s.rx then .next ((s.setRx { s.rx with rrd := s.rx.rrd + 1 }).giveRxOut s.rx.outSymbol) else .next s

end Sys2Proof.Machine
end

