-- ==== Sys2Proof/Machine/TxEngine.lean ====
section
/-! DEFINITION. The TX engine (framer) at symbol level (43_tx_engine): the rules R151 to R157 under their own names, and the
meanings of `TXIN.B`, `TXIN.E` and `TXOUT`. -/

namespace Sys2Proof.Machine

/-- The bytes of `tbuf` nothing has written (log entry 6). -/
def tbufFree (epoch : Nat) : Nat → Byte := Config.tbufUnspecified epoch

/-- The symbols of the frame `emit_frame(n)` appends (R155). -/
def Tx.frameSymbols (epoch : Nat) (n : Byte) (t : Tx) : List Symbol :=
  ([Config.version, n] ++ t.tbuf.bytes (tbufFree epoch) n.toNat ++ be32 t.tsum).map .byte

/-- `emit_frame(n)` (R155). -/
def Tx.emitFrame (epoch : Nat) (n : Byte) (t : Tx) : Tx := { t with q := t.q ++ t.frameSymbols epoch n }

/-- `chunk_full()` (R154). -/
def Tx.chunkFull (epoch : Nat) (t : Tx) : Tx := { t.emitFrame epoch t.tcnt with tcnt := 0#8, tsum := 0#32 }

/-- `collect(b)` (R153, R154). -/
def Tx.collect (epoch : Nat) (b : Byte) (t : Tx) : Except Fault Tx :=
  match t.tbuf.store t.tcnt.toNat b with
  | none => .error .tbufIndex
  | some tbuf =>
    let t' := { t with tbuf := tbuf, tsum := t.tsum + zext32 b, tcnt := t.tcnt + 1#8 }
    .ok (if t'.tcnt = t'.tcap then t'.chunkFull epoch else t')

/-- `end_of_message()` (R156). -/
def Tx.endOfMessage (epoch : Nat) (t : Tx) : Tx :=
  let t' := if t.tcnt = 0#8 then t else t.emitFrame epoch t.tcnt
  { t' with q := t'.q ++ [.endMark], tcnt := 0#8, tsum := 0#32, ctl := .idle }

/-- `empty_message()` (R157). -/
def Tx.emptyMessage (epoch : Nat) (t : Tx) : Tx :=
  let t' := t.emitFrame epoch 0#8
  { t' with q := t'.q ++ [.endMark] }

/-- `collect` or `end_of_message`, in `TXS_COLLECT` (R150). -/
def Tx.inMessage (epoch : Nat) (x : Symbol) (t : Tx) : Except Fault Tx :=
  match x with
  | .byte b => t.collect epoch b
  | .endMark => .ok (t.endOfMessage epoch)

/-- `message_start(sym)` (R151, R152, R157), and the rest of the step where it goes on (R150). -/
def Tx.messageStart (epoch : Nat) (cap : Byte) (x : Symbol) (t : Tx) : Except Fault Tx :=
  let t' := { t with tcap := cap }
  if cap = 0#8 then .ok t'.abortCapZero
  else
    match x with
    | .endMark => .ok (t'.emptyMessage epoch)
    | .byte b => Tx.inMessage epoch (.byte b) { t' with ctl := .collect, tcnt := 0#8, tsum := 0#32 }

/-- The reaction of the TX engine to an accepted symbol (R150). -/
def Tx.accept (epoch : Nat) (cap : Byte) (x : Symbol) (t : Tx) : Except Fault Tx :=
  if t.ctl = .idle then t.messageStart epoch cap x else t.inMessage epoch x

/-- `TxIn(sym)` for the symbol on the port (R150): not enabled, "nothing happens; the symbol stays offered". -/
def txIn (w : SymWord) (s : State) : Out :=
  if txInEnabled s.tx then
    match s.tx.accept s.epoch s.cap (symbolOfWord w) with
    | .ok t => .next (s.setTx t)
    | .error f => .fault f
  else .next (s.holdTxIn w)

/-- `TXIN.B` (R150, R153). -/
def execTxinB (d : Byte) (s : State) : Out := txIn (byteWord d) s

/-- `TXIN.E` (R150, R156, R157). -/
def execTxinE (x : Byte) (s : State) : Out := txIn (endWord x) s

/-- `TXOUT` (R205): enabled exactly when `tx_q != []`; else nothing happens. -/
def execTxout (s : State) : Out :=
  match s.tx.q with
  | [] => .next s
  | x :: rest => .next ((s.setTx { s.tx with q := rest }).giveTxOut x)

end Sys2Proof.Machine
end

