-- ==== Sys2Proof/Machine/Dispatch.lean ====
section
/-! DEFINITION. One arm per operation of spec/opcode_table.json, each a direct call of its meaning. -/

namespace Sys2Proof.Machine

def exec (i : Instr) (s : State) : Host.Outcome State Fault Refusal :=
  match i with
  | .frame payload checksum => Sys2Proof.Machine.execFrame payload checksum s
  | .frameBadver version byte1 => Sys2Proof.Machine.execFrameBadver version byte1 s
  | .txinB d => Sys2Proof.Machine.execTxinB d s
  | .txinE x => Sys2Proof.Machine.execTxinE x s
  | .rxinB d => Sys2Proof.Machine.execRxinB d s
  | .rxinE x => Sys2Proof.Machine.execRxinE x s
  | .txout => Sys2Proof.Machine.execTxout s
  | .rxout => Sys2Proof.Machine.execRxout s
  | .csrr n => Sys2Proof.Machine.execCsrr n s
  | .csrw n v => Sys2Proof.Machine.execCsrw n v s
  | .rxclr v => Sys2Proof.Machine.execRxclr v s
  | .reset => Sys2Proof.Machine.execReset s
  | .checksum payload => Sys2Proof.Machine.execChecksum payload s
  | .fromSource source capacity => Sys2Proof.Machine.execFromSource source capacity s
  | .serialize packet => Sys2Proof.Machine.execSerialize packet s
  | .deserialize bytes => Sys2Proof.Machine.execDeserialize bytes s
  | .toPackets message capacity => Sys2Proof.Machine.execToPackets message capacity s
  | .toPacketData message capacity => Sys2Proof.Machine.execToPacketData message capacity s
  | .fromPacketData bytes => Sys2Proof.Machine.execFromPacketData bytes s

end Sys2Proof.Machine
end

