-- ==== Sys2Proof/Machine/Fetch.lean ====
section
/-! DEFINITION. How the next operation is found (log entries 1, 2, 11, 12, 13): the host's next move says which step is
attempted; a port step takes its symbols from the port; the decoder reads them. -/

namespace Sys2Proof.Machine

/-- What the next move comes to. -/
inductive Fetched where
  /-- No operation: no move is left, or the move finds nothing on its port, or in loopback `RX_IN` takes nothing (R262), or
  it is an act of the host outside the block. The state after it. -/
  | quiet (s : State)
  /-- This operation, on the state after its symbols have been taken from the port and the move from the list. -/
  | run (i : Instr) (s : State)
  /-- The offer cannot be expressed. -/
  | stop (r : Refusal)
  deriving DecidableEq, Repr

/-- The state after the move at the front of the list has been taken. -/
def State.popMove (s : State) : State := s.setEnv { s.env with moves := s.env.moves.tail }

/-- The state after a move and the first `n` symbols on `TX_IN` have been taken. -/
def State.takeTxIn (s : State) (n : Nat) : State :=
  s.setEnv { s.env with moves := s.env.moves.tail, txIn := s.env.txIn.drop n }

/-- The state after a move and the first `n` symbols on `RX_IN` have been taken. -/
def State.takeRxIn (s : State) (n : Nat) : State :=
  s.setEnv { s.env with moves := s.env.moves.tail, rxIn := s.env.rxIn.drop n }

/-- A whole frame on `RX_IN`; where there is none, nothing happens and the symbols stay offered (log entry 11). -/
def fetchFrame (s : State) : Fetched :=
  match decodeWire (leadingBytes s.env.rxIn) with
  | .ok (i, rest) => .run i (s.takeRxIn ((leadingBytes s.env.rxIn).length - rest.length))
  | .error _ => .quiet s.popMove

/-- A host operation or a call, decoded from its label; a call whose operand cannot be expressed is refused (93 U4). -/
def fetchLabel (o : Offer) (s : State) : Fetched :=
  match decode o with
  | .ok i => .run i s.popMove
  | .error why => .stop (.rejected why)

/-- What a move comes to. -/
def fetchMove (m : Move) (s : State) : Fetched :=
  match m with
  | .txIn =>
    match s.env.txIn with
    | [] => .quiet s.popMove
    | w :: _ => .run (decodeTxSymbol w) (s.takeTxIn 1)
  | .rxIn =>
    match s.env.rxIn with
    | [] => .quiet s.popMove
    | w :: _ => .run (decodeRxSymbol w) (s.takeRxIn 1)
  | .frame => fetchFrame s
  | .txOut => if txOutReady s then fetchLabel .txOut s else .quiet s.popMove
  | .rxOut => fetchLabel .rxOut s
  | .csrRead n => fetchLabel (.csrRead n) s
  | .csrWrite n v => fetchLabel (.csrWrite n v) s
  | .reset => fetchLabel .reset s
  | .call c => fetchLabel (.call c) s
  | .offerTx ws => .quiet (s.popMove.setEnv { s.popMove.env with txIn := s.env.txIn ++ ws })
  | .offerRx ws => .quiet (s.popMove.setEnv { s.popMove.env with rxIn := s.env.rxIn ++ ws })
  | .withdrawTx n => .quiet (s.takeTxIn n)
  | .withdrawRx n => .quiet (s.takeRxIn n)

/-- The next operation; with no move left the machine waits (R237). -/
def fetch (s : State) : Fetched :=
  match s.env.moves with
  | [] => .quiet s
  | m :: _ => fetchMove m s

/-- An offer placed where the next step fetches it. -/
def State.place (o : Offer) (s : State) : State :=
  match o with
  | .wire bytes =>
    s.setEnv { s.env with moves := .frame :: s.env.moves, rxIn := bytes.map byteWord ++ s.env.rxIn }
  | .txIn w => s.setEnv { s.env with moves := .txIn :: s.env.moves, txIn := w :: s.env.txIn }
  | .rxIn w => s.setEnv { s.env with moves := .rxIn :: s.env.moves, rxIn := w :: s.env.rxIn }
  | .txOut => s.setEnv { s.env with moves := .txOut :: s.env.moves }
  | .rxOut => s.setEnv { s.env with moves := .rxOut :: s.env.moves }
  | .csrRead n => s.setEnv { s.env with moves := .csrRead n :: s.env.moves }
  | .csrWrite n v => s.setEnv { s.env with moves := .csrWrite n v :: s.env.moves }
  | .reset => s.setEnv { s.env with moves := .reset :: s.env.moves }
  | .call c => s.setEnv { s.env with moves := .call c :: s.env.moves }

/-- A word of the opcode table placed where the next step fetches it: of a wire word only the bytes of its own
instruction. -/
def State.placeTableWord (nbits w : Nat) (s : State) : State :=
  match decodeTableWord nbits w with
  | some i => s.place (encode i)
  | none => s.place (tableOffer nbits w)

end Sys2Proof.Machine
end

