-- ==== Sys2Proof/Machine/Step.lean ====
section
/-! DEFINITION. One step of the machine: the next move's operation is fetched, decoded and executed (00_scope R11). -/

namespace Sys2Proof.Machine

/-- One step. -/
def step (s : State) : Host.Outcome State Fault Refusal :=
  match fetch s with
  | .quiet s' => .next s'
  | .run i s' => exec i s'
  | .stop r => .refused r

/-- The state with a word of the opcode table where `step` fetches its next instruction (log entry 2). -/
def State.withFetchWord (s : State) (nbits w : Nat) : State := s.placeTableWord nbits w

end Sys2Proof.Machine
end

