-- ==== Sys2Proof/Safety.lean ====
section
/-! DEFINITION. What counts as a safe run, in the terms claims use: runs, the abort states, the invariant of 10_state R44, the
schedules of moves in which claims about whole messages and streams are made, and second, independent formulations of
the spec's tables (R136) and loops that claims compare the model with. -/

namespace Sys2Proof.Machine

/-! ### Runs -/

/-- `n` steps, stopping at the first fault or refusal. -/
def run : Nat → State → Out
  | 0, s => .next s
  | n + 1, s =>
    match step s with
    | .next t => run n t
    | .fault f => .fault f
    | .refused r => .refused r

/-- A fatal stop has happened and no `Reset` has come since (R158, R232, R251): never a good end. -/
abbrev State.aborted (s : State) : Prop := s.tx.ctl = .abort ∨ s.rx.ctl = .abort

/-- `rx_ctl` is terminal (R182). -/
abbrev Rx.terminal (r : Rx) : Prop := r.ctl = .done ∨ r.ctl = .failed ∨ r.ctl = .abort

/-- A frame boundary (R172). -/
abbrev Rx.atBoundary (r : Rx) : Prop := r.ctl = .idle ∨ r.ctl = .acc

/-! ### The invariant of R44 -/

/-- R44 (a), (b), (c), the bound of R33, and R24: the bytes of the chunk have all been written. Of (b) the clause about
frames already put on `tx_q` is about the past and is not here. -/
abbrev Tx.Inv (epoch : Nat) (t : Tx) : Prop :=
  (t.ctl = .idle → t.tcnt = 0#8 ∧ t.tsum = 0#32) ∧
  (t.ctl = .collect → 1 ≤ t.tcap.toNat ∧ t.tcnt.toNat < t.tcap.toNat ∧
    t.tsum = checksum (t.tbuf.bytes (tbufFree epoch) t.tcnt.toNat) ∧
    ∀ i < t.tcnt.toNat, (t.tbuf.read i).isSome) ∧
  (t.ctl = .abort → t.tcap = 0#8 ∧ t.q = []) ∧
  t.q.length ≤ 262 ∧
  t.tbuf.wf

/-- R44 (d) to (i), and R29: the bytes of the payload received have all been written. Of (e) the clause that `rcsum` is
the bytes received is about the past; what it says of the bits above them is here. -/
abbrev Rx.Inv (accMax : Option Nat) (epoch : Nat) (r : Rx) : Prop :=
  (r.ctl = .payload → r.rver = 1#8 ∧ 1 ≤ r.rlen.toNat ∧ r.ridx.toNat < r.rlen.toNat ∧
    r.rsum = checksum (r.rbuf.bytes (rbufFree epoch) r.ridx.toNat) ∧ r.rcsum = 0#32 ∧
    ∀ i < r.ridx.toNat, (r.rbuf.read i).isSome) ∧
  (r.ctl = .csum → r.rver = 1#8 ∧ r.ridx.toNat < 4 ∧
    r.rsum = checksum (r.rbuf.bytes (rbufFree epoch) r.rlen.toNat) ∧ r.rcsum.toNat < 2 ^ (8 * r.ridx.toNat) ∧
    ∀ i < r.rlen.toNat, (r.rbuf.read i).isSome) ∧
  (r.rerr ≠ none ↔ r.ctl = .failed) ∧
  (r.ctl = .done → msgValid r.acc = true) ∧
  (r.rrd ≠ 0 → r.ctl = .done) ∧
  r.rrd ≤ r.acc.length + 1 ∧
  (∀ m ∈ accMax, r.acc.length ≤ m) ∧
  r.rbuf.wf

/-- The invariant of every reachable state (R44). -/
abbrev State.Inv (s : State) : Prop := s.tx.Inv s.epoch ∧ s.rx.Inv s.accMax s.epoch

/-! ### Whole messages and streams on the ports -/

/-- The symbols `Byte(m[0]), ..., Byte(m[n-1]), End`, the `End` with data bits `x` (R62). -/
def offered (m : List Byte) (x : Byte) : List SymWord := m.map byteWord ++ [endWord x]

/-- `TXMSG` (R92): each of `n` symbols is accepted and then all output is taken (262 attempts: R33). -/
def drainSchedule (n : Nat) : List Move :=
  (List.replicate n (Move.txIn :: List.replicate 262 Move.txOut)).flatten

/-- The same with every symbol taken offered to the RX engine at once (R207). -/
def loopSchedule (n : Nat) : List Move :=
  (List.replicate n (Move.txIn :: (List.replicate 262 [Move.txOut, Move.rxIn]).flatten)).flatten

/-- The payloads of the frames at the front of a stream that `deserialize` passes, at most `fuel` of them, in order. -/
def goodPayloads : Nat → List Byte → List Byte
  | 0, _ => []
  | fuel + 1, bytes =>
    match deserialize bytes with
    | .ok (p, rest) => p.payload ++ goodPayloads fuel rest
    | .err _ => []

/-- Wire bytes offered one by one as `RXIN.B`; from the first that is not accepted on they stay offered (R182). -/
def byteByByte : List Byte → State → Out
  | [], s => .next s
  | b :: bs, s =>
    if rxInEnabled s.rx then
      match exec (.rxinB b) s with
      | .next t => byteByByte bs t
      | .fault f => .fault f
      | .refused r => .refused r
    else .next (s.holdRxIn ((b :: bs).map byteWord))

/-! ### Second formulations of the spec's tables -/

/-- `b` lies in `lo..hi`. -/
def inRange (lo hi : Nat) (b : Byte) : Bool := decide (lo ≤ b.toNat) && decide (b.toNat ≤ hi)

/-- A byte group matches one row of the table of R136. -/
def isUtf8Group : List Byte → Bool
  | [a] => inRange 0x00 0x7F a
  | [a, b] => inRange 0xC2 0xDF a && inRange 0x80 0xBF b
  | [a, b, c] =>
    (inRange 0xE0 0xE0 a && inRange 0xA0 0xBF b && inRange 0x80 0xBF c) ||
    (inRange 0xE1 0xEC a && inRange 0x80 0xBF b && inRange 0x80 0xBF c) ||
    (inRange 0xED 0xED a && inRange 0x80 0x9F b && inRange 0x80 0xBF c) ||
    (inRange 0xEE 0xEF a && inRange 0x80 0xBF b && inRange 0x80 0xBF c)
  | [a, b, c, d] =>
    (inRange 0xF0 0xF0 a && inRange 0x90 0xBF b && inRange 0x80 0xBF c && inRange 0x80 0xBF d) ||
    (inRange 0xF1 0xF3 a && inRange 0x80 0xBF b && inRange 0x80 0xBF c && inRange 0x80 0xBF d) ||
    (inRange 0xF4 0xF4 a && inRange 0x80 0x8F b && inRange 0x80 0xBF c && inRange 0x80 0xBF d)
  | _ => false

/-- The number of packets of a message of `n` bytes at capacity `c` (R122). -/
def packetCount (n c : Nat) : Nat := if n = 0 then 1 else (n + c - 1) / c

/-- The operations that wire input can cause: what arrives on `RX_IN` (R235). -/
def isWireInput : Instr → Bool
  | .frame _ _ => true
  | .frameBadver _ _ => true
  | .rxinB _ => true
  | .rxinE _ => true
  | _ => false

/-- The steps that clear the RX engine: `RXCLR`, the CSR write that is one, and `RESET` (R204, R250). -/
def clearsRx : Instr → Bool
  | .rxclr _ => true
  | .csrw n v => n == 1 && v.getLsbD 0
  | .reset => true
  | _ => false

end Sys2Proof.Machine
end

