-- ==== Sys2Proof/Certificates/Slice0/Obligations.lean ====
section
/-! DEFINITION. The statements for the provers. Each docstring names the rules of spec/ it formalises. `serialize (packetOf
p)` is `FRAME(p)` (R92); a state update lists every field that changes, so each equality is also the frame. -/

open Sys2Proof Sys2Proof.Machine

/-! ## Encoding and the step -/

/-- Decode and encode agree: every well-formed instruction, with every operand its encoding admits, is read back from its
own offer; and a wire row is read back whatever bytes follow it (R81, R83, R85, R87, R88, R89). -/
def Obligations.DecodeOfEncodeIsTheInstruction : Prop :=
  ∀ i : Instr, i.wf = true →
    decode (encode i) = .ok i ∧
    ∀ bs, encode i = .wire bs → ∀ rest, decodeWire (bs ++ rest) = .ok (i, rest)

/-- The other direction: wire bytes that decode are the encoding of the instruction read and the bytes left over, so no
bit is dropped and no two byte sequences share a meaning (R81, R83, R85, R106's uniqueness of the frame boundary). -/
def Obligations.DecodedWireBytesAreTheEncoding : Prop :=
  ∀ bytes i rest, decodeWire bytes = .ok (i, rest) →
    i.wf = true ∧ ∃ bs, encode i = .wire bs ∧ bytes = bs ++ rest

/-- R83: the frame size is `6 + L` in at least 9 bits, not truncated to 8: a version byte 1 with fewer than `6 + L` bytes
is no frame, and with at least as many it is one of exactly that size. -/
def Obligations.FrameSizeIsSixPlusLength : Prop :=
  ∀ (len : Byte) (tail : List Byte),
    (tail.length + 2 < 6 + len.toNat → decodeWire (1#8 :: len :: tail) = .error .frameCut) ∧
    (6 + len.toNat ≤ tail.length + 2 →
      ∃ p c rest, decodeWire (1#8 :: len :: tail) = .ok (.frame p c, rest) ∧ p.length = len.toNat ∧
        rest.length + (6 + len.toNat) = tail.length + 2)

/-- A few words written out from the spec's encodings (R81, R85, R88, R89) decode to the operations they stand for. -/
def Obligations.WrittenOutWordsDecode : Prop :=
  decode (.wire [0x01#8, 0x02#8, 0x68#8, 0x65#8, 0x00#8, 0x00#8, 0x00#8, 0xCD#8]) =
    .ok (.frame [0x68#8, 0x65#8] 0xCD#32) ∧
  decode (.wire [0x02#8, 0x05#8]) = .ok (.frameBadver 0x02#8 0x05#8) ∧
  decode (.txIn 0b001101000#9) = .ok (.txinB 0x68#8) ∧
  decode (.txIn 0b100000000#9) = .ok (.txinE 0x00#8) ∧
  decode (.rxIn 0b001101000#9) = .ok (.rxinB 0x68#8) ∧
  decode (.rxIn 0b111111111#9) = .ok (.rxinE 0xFF#8) ∧
  decode (.csrWrite 1 0xFFFFFFFF#32) = .ok (.rxclr 0xFFFFFFFF#32) ∧
  decode (.csrWrite 1 0xFFFFFFFE#32) = .ok (.csrw 1 0xFFFFFFFE#32) ∧
  decode (.csrWrite 0 0x100#32) = .ok (.csrw 0 0x100#32) ∧
  decode (.call (.toPackets [0x68#8] 2)) = .ok (.toPackets [0x68#8] 2#8)

/-- A step runs the decoded instruction on the state after its symbols have left the port and the move has left the list;
with nothing offered, no whole frame, `RX_IN` taking nothing in loopback, or no move left, nothing happens; and an act of
the host outside the block changes only what is offered (R11, R260, R262; the list of moves and its entries are the
model's: log entries 1, 2, 11, 12 and 13). -/
def Obligations.StepRunsTheDecodedInstruction : Prop :=
  ∀ (s : State) (ms : List Move) (i : Instr),
    (∀ w ws, s.env.moves = .txIn :: ms → s.env.txIn = w :: ws → decode (.txIn w) = .ok i →
      step s = exec i { s with env := { s.env with moves := ms, txIn := ws } }) ∧
    (∀ w ws, s.env.moves = .rxIn :: ms → s.env.rxIn = w :: ws → decode (.rxIn w) = .ok i →
      step s = exec i { s with env := { s.env with moves := ms, rxIn := ws } }) ∧
    (∀ bs ws, s.env.moves = .frame :: ms → s.env.rxIn = bs.map byteWord ++ ws → decodeWire bs = .ok (i, []) →
      step s = exec i { s with env := { s.env with moves := ms, rxIn := ws } }) ∧
    (∀ m o, s.env.moves = m :: ms → decode o = .ok i →
      ((m = .txOut ∧ o = .txOut ∧ (s.env.loopback = true → ¬ s.rx.terminal ∧ s.env.rxIn = [])) ∨
        (m = .rxOut ∧ o = .rxOut) ∨ (m = .reset ∧ o = .reset) ∨
        (∃ n, m = .csrRead n ∧ o = .csrRead n) ∨ (∃ n v, m = .csrWrite n v ∧ o = .csrWrite n v) ∨
        (∃ c, m = .call c ∧ o = .call c)) →
      step s = exec i { s with env := { s.env with moves := ms } }) ∧
    (s.env.moves = .txIn :: ms → s.env.txIn = [] → step s = .next { s with env := { s.env with moves := ms } }) ∧
    (s.env.moves = .rxIn :: ms → s.env.rxIn = [] → step s = .next { s with env := { s.env with moves := ms } }) ∧
    (∀ why, s.env.moves = .frame :: ms → decodeWire (leadingBytes s.env.rxIn) = .error why →
      step s = .next { s with env := { s.env with moves := ms } }) ∧
    (s.env.moves = .txOut :: ms → s.env.loopback = true → s.rx.terminal ∨ s.env.rxIn ≠ [] →
      step s = .next { s with env := { s.env with moves := ms } }) ∧
    (∀ ws, s.env.moves = .offerTx ws :: ms →
      step s = .next { s with env := { s.env with moves := ms, txIn := s.env.txIn ++ ws } }) ∧
    (∀ ws, s.env.moves = .offerRx ws :: ms →
      step s = .next { s with env := { s.env with moves := ms, rxIn := s.env.rxIn ++ ws } }) ∧
    (∀ n, s.env.moves = .withdrawTx n :: ms →
      step s = .next { s with env := { s.env with moves := ms, txIn := s.env.txIn.drop n } }) ∧
    (∀ n, s.env.moves = .withdrawRx n :: ms →
      step s = .next { s with env := { s.env with moves := ms, rxIn := s.env.rxIn.drop n } }) ∧
    (s.env.moves = [] → step s = .next s)

/-- The word placed by `withFetchWord` is the instruction the very next step runs, on the state it was placed in (log
entry 2). -/
def Obligations.PlacedTableWordRunsNext : Prop :=
  ∀ (s : State) (nbits w : Nat) (i : Instr), decodeTableWord nbits w = some i →
    step (s.withFetchWord nbits w) = exec i s

/-- 93 U4: a capacity above 255 cannot be expressed; a call with one is refused by name, and so is `serialize` of four
fields that are no Packet (R100; log entry 14). A step that is refused is one of these, for that reason. -/
def Obligations.OnlyInexpressibleCallsAreRefused : Prop :=
  (∀ (s : State) (m : List Byte) (c : Nat) (ms : List Move), 255 < c →
    (s.env.moves = .call (.fromSource m c) :: ms → step s = .refused (.rejected .capacityAbove255)) ∧
    (s.env.moves = .call (.toPackets m c) :: ms → step s = .refused (.rejected .capacityAbove255)) ∧
    (s.env.moves = .call (.toPacketData m c) :: ms → step s = .refused (.rejected .capacityAbove255))) ∧
  (∀ (s : State) (p : Packet) (ms : List Move), p.wf = false → s.env.moves = .call (.serialize p) :: ms →
    step s = .refused (.rejected .notAPacket)) ∧
  (∀ (s : State) (r : Refusal), step s = .refused r →
    ∃ c ms, s.env.moves = .call c :: ms ∧
      ((∃ m n, 255 < n ∧ (c = .fromSource m n ∨ c = .toPackets m n ∨ c = .toPacketData m n) ∧
          r = .rejected .capacityAbove255) ∨
        (∃ p : Packet, p.wf = false ∧ c = .serialize p ∧ r = .rejected .notAPacket)))

/-! ## Reset -/

/-- R45: the state right after reset has the spec's value in every register, and what the parameter `ACC_MAX` and the
model's own fields hold is named in log entries 1, 6 and 7. -/
def Obligations.StateResetHoldsTheSpecValues : Prop :=
  State.reset.cap = 0#8 ∧
  State.reset.tx = { ctl := .idle, tcap := 0#8, tcnt := 0#8, tsum := 0#32, tbuf := [], q := [] } ∧
  State.reset.rx =
    { ctl := .idle, rver := 0#8, rlen := 0#8, ridx := 0#8, rsum := 0#32, rcsum := 0#32, rbuf := [],
      acc := [], rerr := none, rrd := 0, roff := 0#32, rfoff := 0#32 } ∧
  State.reset.accMax = none ∧ State.reset.env = Env.quiet

/-- R250, R45: `RESET` answers a next state from every state, with every register at the value of the table; the bytes of
the two buffers are unspecified afterwards: each reads as a free value of the new reset (the form of the free value is
log entry 6). The parameter is untouched, and so is what is outside the block (R252). -/
def Obligations.ResetWritesEveryRegister : Prop :=
  ∀ s : State, ∃ t, exec .reset s = .next t ∧
    t.cap = 0#8 ∧ t.tx.ctl = .idle ∧ t.tx.tcap = 0#8 ∧ t.tx.tcnt = 0#8 ∧ t.tx.tsum = 0#32 ∧ t.tx.q = [] ∧
    t.rx.ctl = .idle ∧ t.rx.rver = 0#8 ∧ t.rx.rlen = 0#8 ∧ t.rx.ridx = 0#8 ∧ t.rx.rsum = 0#32 ∧ t.rx.rcsum = 0#32 ∧
    t.rx.acc = [] ∧ t.rx.rerr = none ∧ t.rx.rrd = 0 ∧ t.rx.roff = 0#32 ∧ t.rx.rfoff = 0#32 ∧
    (∀ i, t.tx.tbuf.load (tbufFree t.epoch) i = Config.tbufUnspecified (s.epoch + 1) i) ∧
    (∀ i, t.rx.rbuf.load (rbufFree t.epoch) i = Config.rbufUnspecified (s.epoch + 1) i) ∧
    t.accMax = s.accMax ∧ t.env = s.env

/-- R253: after `Reset`, from any state, `TxIn` and `RxIn` are enabled and `TxOut` and `RxOut` are not; and a message
started before `CAP` is written aborts (R256). That an attempt at a step not enabled answers the same state is log entry
3. -/
def Obligations.BothEnginesReadyAfterReset : Prop :=
  ∀ s : State, ∃ t, exec .reset s = .next t ∧
    txInEnabled t.tx = true ∧ rxInEnabled t.rx = true ∧ exec .txout t = .next t ∧ exec .rxout t = .next t ∧
    ∀ w, ∃ u, txIn w t = .next u ∧ u.tx.ctl = .abort ∧ u.tx.q = []

/-- R251, R232, R158: no operation but `RESET` leaves `TXS_ABORT` or `RXS_ABORT`, and in `TXS_ABORT` nothing is put on
`tx_q`. -/
def Obligations.OnlyResetLeavesAnAbortState : Prop :=
  ∀ (i : Instr) (s t : State), exec i s = .next t → i ≠ .reset →
    (s.tx.ctl = .abort → t.tx.ctl = .abort ∧ (s.tx.q = [] → t.tx.q = [])) ∧
    (s.rx.ctl = .abort → t.rx = s.rx)

/-! ## The TX engine -/

/-- R152, R232: a message started while `CAP` is 0, by a byte or by `End`, aborts the TX engine: `tcap` is 0, the symbol is
consumed, nothing goes on `tx_q`, and nothing else is written. -/
def Obligations.ZeroCapacityAbortsTheFramer : Prop :=
  ∀ (s : State) (d : Byte), s.tx.ctl = .idle → s.tx.q = [] → s.cap = 0#8 →
    exec (.txinB d) s = .next { s with tx := { s.tx with tcap := 0#8, ctl := .abort } } ∧
    exec (.txinE d) s = .next { s with tx := { s.tx with tcap := 0#8, ctl := .abort } }

/-- R151, R153, R154: the first byte of a message latches `CAP` in `tcap` and is the first of its chunk; with `CAP` = 1 it
fills the chunk. -/
def Obligations.FirstByteLatchesCapacityAndStartsChunk : Prop :=
  ∀ (s : State) (d : Byte), s.tx.ctl = .idle → s.tx.q = [] → s.cap ≠ 0#8 →
    exec (.txinB d) s = .next { s with tx :=
      if s.cap = 1#8 then
        { s.tx with ctl := .collect, tcap := s.cap, tcnt := 0#8, tsum := 0#32, tbuf := s.tx.tbuf.write 0 d,
                    q := (serialize (packetOf [d])).map .byte }
      else
        { s.tx with ctl := .collect, tcap := s.cap, tcnt := 1#8, tsum := zext32 d, tbuf := s.tx.tbuf.write 0 d } }

/-- R153: a byte inside a message that does not fill its chunk is stored at index `tcnt`, counted and added to the sum;
there is no output. -/
def Obligations.ByteInsideChunkIsStoredAndSummed : Prop :=
  ∀ (s : State) (d : Byte), s.tx.ctl = .collect → s.tx.q = [] → s.tx.tcnt.toNat < 255 → s.tx.tcnt + 1#8 ≠ s.tx.tcap →
    exec (.txinB d) s = .next { s with tx :=
      { s.tx with tbuf := s.tx.tbuf.write s.tx.tcnt.toNat d, tsum := s.tx.tsum + zext32 d, tcnt := s.tx.tcnt + 1#8 } }

/-- R154, R155: the byte that fills the chunk puts the frame of the whole chunk on `tx_q`, `serialize` of the packet with
that payload; the count and the sum start again. -/
def Obligations.FullChunkEmitsItsFrame : Prop :=
  ∀ (s : State) (d : Byte), s.tx.Inv s.epoch → s.tx.ctl = .collect → s.tx.q = [] → s.tx.tcnt + 1#8 = s.tx.tcap →
    exec (.txinB d) s = .next { s with tx :=
      { s.tx with
        tbuf := s.tx.tbuf.write s.tx.tcnt.toNat d, tsum := 0#32, tcnt := 0#8,
        q := (serialize (packetOf (s.tx.tbuf.bytes (tbufFree s.epoch) s.tx.tcnt.toNat ++ [d]))).map .byte } }

/-- R156: `End` inside a message flushes the last, short chunk if there is one, puts `End` on `tx_q` and returns to
`TXS_IDLE`; its data bits are ignored, `tbuf` and `tcap` keep their values. -/
def Obligations.EndFlushesTheLastChunk : Prop :=
  ∀ (s : State) (x : Byte), s.tx.Inv s.epoch → s.tx.ctl = .collect → s.tx.q = [] →
    exec (.txinE x) s = .next { s with tx :=
      { s.tx with
        ctl := .idle, tcnt := 0#8, tsum := 0#32,
        q := (if s.tx.tcnt = 0#8 then []
              else (serialize (packetOf (s.tx.tbuf.bytes (tbufFree s.epoch) s.tx.tcnt.toNat))).map .byte) ++
            [.endMark] } }

/-- R157: `End` in `TXS_IDLE` with `CAP` not 0 is the empty message: exactly one frame with an empty payload, and `End`. -/
def Obligations.EmptyMessageGivesOneEmptyFrame : Prop :=
  ∀ (s : State) (x : Byte), s.tx.Inv s.epoch → s.tx.ctl = .idle → s.tx.q = [] → s.cap ≠ 0#8 →
    exec (.txinE x) s = .next { s with tx :=
      { s.tx with
        tcap := s.cap,
        q := [.byte 0x01#8, .byte 0x00#8, .byte 0x00#8, .byte 0x00#8, .byte 0x00#8, .byte 0x00#8, .endMark] } }

/-- R150: when `TxIn` is not enabled nothing happens and the symbol stays offered: the operation leaves it at the front of
`TX_IN`, and a step leaves the whole port and the whole block as they were (log entry 3). -/
def Obligations.TxSymbolStaysOfferedWhenNotEnabled : Prop :=
  ∀ s : State, (s.tx.ctl = .abort ∨ s.tx.q ≠ []) →
    (∀ d, exec (.txinB d) s = .next { s with env := { s.env with txIn := byteWord d :: s.env.txIn } }) ∧
    (∀ x, exec (.txinE x) s = .next { s with env := { s.env with txIn := endWord x :: s.env.txIn } }) ∧
    (∀ ms, s.env.moves = .txIn :: ms → step s = .next { s with env := { s.env with moves := ms } })

/-- R205: the host takes the head of `tx_q`; with `tx_q` empty the step is not enabled and nothing happens (that the
attempt answers the same state is log entry 3). In loopback the symbol taken is offered on `RX_IN` behind what is there (R72;
the wiring is log entry 13). -/
def Obligations.TxoutTakesTheHeadOfTheQueue : Prop :=
  ∀ s : State,
    (∀ x rest, s.tx.q = x :: rest →
      exec .txout s = .next { s with
        tx := { s.tx with q := rest }
        env := { s.env with
          txGot := s.env.txGot ++ [x]
          rxIn := if s.env.loopback then s.env.rxIn ++ [wordOfSymbol x] else s.env.rxIn
          reply := some (.symbol x) } }) ∧
    (s.tx.q = [] → exec .txout s = .next s)

/-- R69: on `TX_OUT` symbols are taken in the order produced; none is lost, duplicated or reordered: whatever operation
but `RESET` happens, the symbols taken followed by those waiting only grow at the end. -/
def Obligations.TxOutputIsFirstInFirstOut : Prop :=
  ∀ (i : Instr) (s t : State), exec i s = .next t → i ≠ .reset →
    ∃ added, t.env.txGot ++ t.tx.q = (s.env.txGot ++ s.tx.q) ++ added

/-- R159, the refinement law of the TX engine: offer a message and `End` and take every output symbol. With a capacity the
symbols taken are `toPacketData` of the message and `End`, and the engine is idle again; with capacity 0 no symbol ever
comes out and the engine is in `TXS_ABORT`. The schedule is the model's (log entry 1), and of its 262 attempts at `TxOut`
those that are not enabled change nothing (log entry 3). The host takes every symbol, so `TX_OUT` is not connected to
`RX_IN` (log entry 13); for loopback the same is in `LoopbackReturnsTheMessage`. -/
def Obligations.FramerRefinesToPacketData : Prop :=
  ∀ (s : State) (m : List Byte) (x : Byte),
    s.tx.Inv s.epoch → s.tx.ctl = .idle → s.tx.q = [] → s.env.txIn = offered m x → s.env.loopback = false →
    s.env.moves = drainSchedule (m.length + 1) →
    ∃ t, run (drainSchedule (m.length + 1)).length s = .next t ∧ t.tx.q = [] ∧ t.rx = s.rx ∧ t.cap = s.cap ∧
      (s.cap ≠ 0#8 → ∃ w, toPacketData m s.cap = some w ∧
        t.env.txGot = s.env.txGot ++ w.map .byte ++ [.endMark] ∧
        t.tx.ctl = .idle ∧ t.tx.tcap = s.cap ∧ t.env.txIn = []) ∧
      (s.cap = 0#8 → t.env.txGot = s.env.txGot ∧ t.tx.ctl = .abort)

/-- R150, R159, R200: the wire stream does not depend on when the host takes output. Whatever list of `TxIn` and `TxOut`
attempts is made, what has been taken and what waits is a part of the wire stream from its start, and all of it once the
message has been accepted whole. The list of attempts is the model's (log entry 1), and an attempt that is not enabled, or
not made because loopback holds it, changes nothing (log entries 3 and 13). -/
def Obligations.WireStreamIndependentOfSchedule : Prop :=
  ∀ (s : State) (m : List Byte) (x : Byte) (ms : List Move),
    s.tx.Inv s.epoch → s.tx.ctl = .idle → s.tx.q = [] → s.cap ≠ 0#8 → s.env.txIn = offered m x →
    s.env.moves = ms → (∀ mv ∈ ms, mv = .txIn ∨ mv = .txOut) →
    ∃ t w, run ms.length s = .next t ∧ toPacketData m s.cap = some w ∧
      (∃ rest, s.env.txGot ++ w.map .byte ++ [.endMark] = (t.env.txGot ++ t.tx.q) ++ rest ∧
        (t.env.txIn = [] → rest = []))

/-! ## The RX engine -/

/-- R174, R173: a byte at a frame boundary starts a frame; the version is not judged yet. -/
def Obligations.VersionByteStartsAFrame : Prop :=
  ∀ (s : State) (d : Byte), s.rx.atBoundary →
    exec (.rxinB d) s = .next { s with rx :=
      { s.rx with roff := s.rx.roff + 1#32, rfoff := s.rx.roff, rver := d, ctl := .len } }

/-- R175: the second byte of a frame judges the version; with version 1 it is the length, and a length of 0 goes straight
to the checksum. -/
def Obligations.LengthByteJudgesTheVersion : Prop :=
  ∀ (s : State) (d : Byte), s.rx.ctl = .len →
    (s.rx.rver ≠ 1#8 →
      exec (.rxinB d) s = .next { s with rx :=
        { s.rx with roff := s.rx.roff + 1#32, rerr := some .unknownProtocolVersion, ctl := .failed } }) ∧
    (s.rx.rver = 1#8 →
      exec (.rxinB d) s = .next { s with rx :=
        { s.rx with
          roff := s.rx.roff + 1#32, rlen := d, ridx := 0#8, rsum := 0#32, rcsum := 0#32,
          ctl := if d = 0#8 then .csum else .payload } })

/-- R176: a payload byte is stored at `rbuf[ridx]`, counted and added to the sum; the last one leads to the checksum. -/
def Obligations.PayloadByteIsStoredAndSummed : Prop :=
  ∀ (s : State) (d : Byte), s.rx.ctl = .payload → s.rx.ridx.toNat < 255 →
    (s.rx.ridx + 1#8 ≠ s.rx.rlen →
      exec (.rxinB d) s = .next { s with rx :=
        { s.rx with
          roff := s.rx.roff + 1#32, rbuf := s.rx.rbuf.write s.rx.ridx.toNat d, rsum := s.rx.rsum + zext32 d,
          ridx := s.rx.ridx + 1#8 } }) ∧
    (s.rx.ridx + 1#8 = s.rx.rlen →
      exec (.rxinB d) s = .next { s with rx :=
        { s.rx with
          roff := s.rx.roff + 1#32, rbuf := s.rx.rbuf.write s.rx.ridx.toNat d, rsum := s.rx.rsum + zext32 d,
          ridx := 0#8, ctl := .csum } })

/-- R177, R178, R179, R183: a checksum byte is shifted in at the low end; after the fourth, and not before, all 32 bits
are compared: a mismatch is `InvalidChecksum`, a match appends the payload to `acc`, or aborts where it does not fit. -/
def Obligations.ChecksumBytesDecideAtTheFourth : Prop :=
  ∀ (s : State) (d : Byte), s.rx.ctl = .csum →
    (s.rx.ridx ≠ 3#8 →
      exec (.rxinB d) s = .next { s with rx :=
        { s.rx with
          roff := s.rx.roff + 1#32, rcsum := s.rx.rcsum.extractLsb' 0 24 ++ d, ridx := s.rx.ridx + 1#8 } }) ∧
    (s.rx.ridx = 3#8 → s.rx.rcsum.extractLsb' 0 24 ++ d ≠ s.rx.rsum →
      exec (.rxinB d) s = .next { s with rx :=
        { s.rx with
          roff := s.rx.roff + 1#32, rcsum := s.rx.rcsum.extractLsb' 0 24 ++ d, ridx := 4#8,
          rerr := some .invalidChecksum, ctl := .failed } }) ∧
    (s.rx.ridx = 3#8 → s.rx.rcsum.extractLsb' 0 24 ++ d = s.rx.rsum →
      (∃ m, s.accMax = some m ∧ m < s.rx.acc.length + s.rx.rlen.toNat) →
      exec (.rxinB d) s = .next { s with rx :=
        { s.rx with
          roff := s.rx.roff + 1#32, rcsum := s.rx.rcsum.extractLsb' 0 24 ++ d, ridx := 4#8, ctl := .abort } }) ∧
    (s.rx.ridx = 3#8 → s.rx.rcsum.extractLsb' 0 24 ++ d = s.rx.rsum →
      (∀ m, s.accMax = some m → s.rx.acc.length + s.rx.rlen.toNat ≤ m) →
      exec (.rxinB d) s = .next { s with rx :=
        { s.rx with
          roff := s.rx.roff + 1#32, rcsum := s.rx.rcsum.extractLsb' 0 24 ++ d, ridx := 0#8, ctl := .acc,
          acc := s.rx.acc ++ s.rx.rbuf.bytes (rbufFree s.epoch) s.rx.rlen.toNat } })

/-- R180, R181: `End` at a frame boundary makes the message validator decide; `End` inside a frame is `InvalidPacket`. Its
data bits are ignored, and `roff` does not count it (R173). -/
def Obligations.EndOfStreamVerdict : Prop :=
  ∀ (s : State) (x : Byte),
    (s.rx.atBoundary → msgValid s.rx.acc = true →
      exec (.rxinE x) s = .next { s with rx := { s.rx with ctl := .done, rrd := 0 } }) ∧
    (s.rx.atBoundary → msgValid s.rx.acc = false →
      exec (.rxinE x) s = .next { s with rx := { s.rx with rerr := some .corruptedMessage, ctl := .failed } }) ∧
    (s.rx.ctl = .len ∨ s.rx.ctl = .payload ∨ s.rx.ctl = .csum →
      exec (.rxinE x) s = .next { s with rx := { s.rx with rerr := some .invalidPacket, ctl := .failed } })

/-- R182: in the three terminal states no input symbol is accepted: it waits at the front of `RX_IN`, a whole frame waits
with it, and a step leaves the port and the block as they were (log entries 3 and 5). R262: so in loopback `tx_q` does not
drain and `TX_IN` stalls: whatever list of attempts to pass symbols is made, block and ports stay as they are (the wiring is
log entry 13). -/
def Obligations.TerminalStatesAcceptNothing : Prop :=
  ∀ s : State, s.rx.terminal →
    (∀ d, exec (.rxinB d) s = .next { s with env := { s.env with rxIn := byteWord d :: s.env.rxIn } }) ∧
    (∀ x, exec (.rxinE x) s = .next { s with env := { s.env with rxIn := endWord x :: s.env.rxIn } }) ∧
    (∀ p c, exec (.frame p c) s =
      .next { s with env := { s.env with rxIn := (frameBytes p c).map byteWord ++ s.env.rxIn } }) ∧
    (∀ v b, exec (.frameBadver v b) s =
      .next { s with env := { s.env with rxIn := byteWord v :: byteWord b :: s.env.rxIn } }) ∧
    (∀ m ms, (m = .rxIn ∨ m = .frame) → s.env.moves = m :: ms →
      step s = .next { s with env := { s.env with moves := ms } }) ∧
    (s.env.loopback = true → s.tx.q ≠ [] →
      (∀ m ∈ s.env.moves, m = .txIn ∨ m = .txOut ∨ m = .rxIn ∨ m = .frame) →
      run s.env.moves.length s = .next { s with env := { s.env with moves := [] } })

/-- R206: in `RXS_DONE` the host takes the bytes of `acc` one by one and then `End`; in every other state, and after the
`End`, the step is not enabled and nothing happens (that the attempt answers the same state is log entry 3). -/
def Obligations.RxoutGivesTheMessageOnlyWhenDone : Prop :=
  ∀ s : State,
    (s.rx.ctl = .done → ∀ b, s.rx.acc[s.rx.rrd]? = some b →
      exec .rxout s = .next { s with
        rx := { s.rx with rrd := s.rx.rrd + 1 }
        env := { s.env with rxGot := s.env.rxGot ++ [.byte b], reply := some (.symbol (.byte b)) } }) ∧
    (s.rx.ctl = .done → s.rx.rrd = s.rx.acc.length →
      exec .rxout s = .next { s with
        rx := { s.rx with rrd := s.rx.rrd + 1 }
        env := { s.env with rxGot := s.env.rxGot ++ [.endMark], reply := some (.symbol .endMark) } }) ∧
    (s.rx.ctl ≠ .done ∨ s.rx.acc.length < s.rx.rrd → exec .rxout s = .next s)

/-- R206: the whole read-out: `len(acc) + 1` `RxOut` steps from `RXS_DONE` give the message and `End`. -/
def Obligations.ReadOutGivesTheWholeMessage : Prop :=
  ∀ s : State, s.rx.ctl = .done → s.rx.rrd = 0 →
    s.env.moves = List.replicate (s.rx.acc.length + 1) .rxOut →
    ∃ t, run (s.rx.acc.length + 1) s = .next t ∧
      t.env.rxGot = s.env.rxGot ++ s.rx.acc.map .byte ++ [.endMark] ∧
      t.rx = { s.rx with rrd := s.rx.acc.length + 1 } ∧ rxOutPend t.rx = false ∧ t.tx = s.tx

/-- R178, R179, R183, R222 at the level of the wire rows: a frame at a frame boundary. With the right checksum its payload
joins `acc` and the engine is at a boundary again, or it aborts where the payload does not fit; with a wrong one the
engine fails with `InvalidChecksum` and `acc` is as before. `roff` counts its `6 + L` bytes, `rfoff` is its offset, `rbuf`
holds the payload and no byte above it changes (R176), and nothing outside the RX engine changes. The row is log entry 5. -/
def Obligations.FrameAtBoundary : Prop :=
  ∀ (s : State) (p : List Byte) (c : Word), s.rx.atBoundary → p.length ≤ 255 →
    ∃ t, exec (.frame p c) s = .next t ∧
      t.cap = s.cap ∧ t.tx = s.tx ∧ t.accMax = s.accMax ∧ t.epoch = s.epoch ∧ t.env = s.env ∧
      t.rx.roff = s.rx.roff + BitVec.ofNat 32 (6 + p.length) ∧ t.rx.rfoff = s.rx.roff ∧
      t.rx.rver = 1#8 ∧ t.rx.rlen = BitVec.ofNat 8 p.length ∧ t.rx.rsum = checksum p ∧ t.rx.rcsum = c ∧
      t.rx.rrd = s.rx.rrd ∧ (∀ i, i < p.length → t.rx.rbuf.read i = p[i]?) ∧
      (∀ a, p.length ≤ a → t.rx.rbuf.read a = s.rx.rbuf.read a) ∧
      (c ≠ checksum p → t.rx.ctl = .failed ∧ t.rx.rerr = some .invalidChecksum ∧ t.rx.acc = s.rx.acc ∧
        t.rx.ridx = 4#8) ∧
      (c = checksum p → (∃ m, s.accMax = some m ∧ m < s.rx.acc.length + p.length) →
        t.rx.ctl = .abort ∧ t.rx.rerr = s.rx.rerr ∧ t.rx.acc = s.rx.acc ∧ t.rx.ridx = 4#8) ∧
      (c = checksum p → (∀ m, s.accMax = some m → s.rx.acc.length + p.length ≤ m) →
        t.rx.ctl = .acc ∧ t.rx.rerr = s.rx.rerr ∧ t.rx.acc = s.rx.acc ++ p ∧ t.rx.ridx = 0#8)

/-- R85, R175, R223: at a frame boundary a version byte other than 1 and one more byte raise `UnknownProtocolVersion`; the
value of the second byte does not matter and `rlen` is not written. -/
def Obligations.BadVersionAtBoundaryFails : Prop :=
  ∀ (s : State) (v b : Byte), s.rx.atBoundary → v ≠ 1#8 →
    exec (.frameBadver v b) s = .next { s with rx :=
      { s.rx with
        roff := s.rx.roff + 2#32, rfoff := s.rx.roff, rver := v, rerr := some .unknownProtocolVersion,
        ctl := .failed } }

/-- Log entry 5: in every state, a wire row is its bytes offered one after another as `RXIN.B`. -/
def Obligations.WireRowsAreTheirBytes : Prop :=
  (∀ (s : State) (p : List Byte) (c : Word), exec (.frame p c) s = byteByByte (frameBytes p c) s) ∧
  (∀ (s : State) (v b : Byte), exec (.frameBadver v b) s = byteByByte [v, b] s)

/-- R230, R137: no operation but `RXCLR` (as its own row or as the CSR write) and `RESET` leaves `RXS_FAILED`, and until
then `rerr`, `roff` and `rfoff` keep their values; the same for `RXS_DONE` and its message (R182, R206). -/
def Obligations.OnlyClearsLeaveFailedOrDone : Prop :=
  ∀ (i : Instr) (s t : State), exec i s = .next t → clearsRx i = false →
    (s.rx.ctl = .failed → t.rx = s.rx) ∧
    (s.rx.ctl = .done → t.rx.ctl = .done ∧ t.rx.acc = s.rx.acc ∧ t.rx.rerr = s.rx.rerr ∧ s.rx.rrd ≤ t.rx.rrd)

/-- R60: `acc` is append only: but for the clears, no operation takes a byte out of it or changes one. -/
def Obligations.AccumulatorIsAppendOnly : Prop :=
  ∀ (i : Instr) (s t : State), exec i s = .next t → clearsRx i = false → s.rx.acc <+: t.rx.acc

/-- R184, the refinement law of the RX engine: offer a wire stream and `End` after a clear or a reset, with `ACC_MAX` at
least the total payload length. The engine accepts a prefix of the symbols and reaches a terminal state, which is
`RXS_DONE` with the message exactly when `fromPacketData` gives `Ok`, and `RXS_FAILED` with the error exactly when it
gives `Err`. The attempts after the terminal state change nothing (log entry 3), and the schedule is the model's (log entry
1). -/
def Obligations.ReassemblerRefinesFromPacketData : Prop :=
  ∀ (s : State) (w : List Byte) (x : Byte),
    s.rx.ctl = .idle → s.rx.acc = [] → s.rx.rerr = none →
    (∀ m, s.accMax = some m → (goodPayloads w.length w).length ≤ m) →
    s.env.rxIn = offered w x → s.env.moves = List.replicate (w.length + 1) .rxIn →
    ∃ t k, run (w.length + 1) s = .next t ∧ k ≤ w.length + 1 ∧ t.env.rxIn = (offered w x).drop k ∧
      t.tx = s.tx ∧ t.cap = s.cap ∧ (t.rx.ctl = .done ∨ t.rx.ctl = .failed) ∧
      (∀ m, fromPacketData w = .ok m ↔ t.rx.ctl = .done ∧ t.rx.acc = m) ∧
      (∀ e, fromPacketData w = .err e ↔ t.rx.ctl = .failed ∧ t.rx.rerr = some e)

/-- R207, the round-trip law as a wiring: in loopback, a message offered with a capacity not 0 comes back whole in
`RXS_DONE` when it is valid text, and ends in `RXS_FAILED` with `CorruptedMessage` when it is not; no other error is
raised at any step, and what passed on `TX_OUT` is `toPacketData` of the message and `End` (R159). The wiring is the model's
(log entry 13), and so is the schedule (log entry 1), whose attempts that are not enabled change nothing (log entry 3). -/
def Obligations.LoopbackReturnsTheMessage : Prop :=
  ∀ (s : State) (m : List Byte) (x : Byte),
    s.Inv → s.tx.ctl = .idle → s.tx.q = [] → s.cap ≠ 0#8 →
    s.rx.ctl = .idle → s.rx.acc = [] → (∀ k, s.accMax = some k → m.length ≤ k) →
    s.env.loopback = true → s.env.txIn = offered m x → s.env.rxIn = [] →
    s.env.moves = loopSchedule (m.length + 1) →
    (∃ t, run (loopSchedule (m.length + 1)).length s = .next t ∧ t.tx.ctl = .idle ∧ t.tx.q = [] ∧
      t.env.txIn = [] ∧ t.env.rxIn = [] ∧
      (∃ w, toPacketData m s.cap = some w ∧ t.env.txGot = s.env.txGot ++ w.map .byte ++ [.endMark]) ∧
      (msgValid m = true → t.rx.ctl = .done ∧ t.rx.acc = m) ∧
      (msgValid m = false → t.rx.ctl = .failed ∧ t.rx.rerr = some .corruptedMessage)) ∧
    (∀ k t, k ≤ (loopSchedule (m.length + 1)).length → run k s = .next t →
      t.rx.rerr = none ∨ t.rx.rerr = some .corruptedMessage)

/-! ## Host operations -/

/-- R201, R35 to R42: a CSR read returns the register's fields, and changes nothing but the value the host has. -/
def Obligations.CsrReadReturnsTheFields : Prop :=
  ∀ s : State,
    exec (.csrr 0) s = .next { s with env := { s.env with reply := some (.csr (0#24 ++ s.cap)) } } ∧
    exec (.csrr 1) s = .next { s with env := { s.env with reply := some (.csr 0#32) } } ∧
    (∃ v : Word, exec (.csrr 2) s = .next { s with env := { s.env with reply := some (.csr v) } } ∧
      v.extractLsb' 0 2 = (match s.tx.ctl with | .idle => 0#2 | .collect => 1#2 | .abort => 2#2) ∧
      v.getLsbD 2 = !s.tx.q.isEmpty ∧ v.extractLsb' 3 5 = 0#5 ∧ v.extractLsb' 8 8 = s.tx.tcnt ∧
      v.extractLsb' 16 8 = s.tx.tcap ∧ v.extractLsb' 24 8 = 0#8) ∧
    (∃ v : Word, exec (.csrr 3) s = .next { s with env := { s.env with reply := some (.csr v) } } ∧
      v.extractLsb' 0 3 = (match s.rx.ctl with
        | .idle => 0#3 | .len => 1#3 | .payload => 2#3 | .csum => 3#3
        | .acc => 4#3 | .done => 5#3 | .failed => 6#3 | .abort => 7#3) ∧
      v.getLsbD 3 = false ∧
      v.extractLsb' 4 3 = (match s.rx.rerr with
        | none => 0#3 | some .invalidPacket => 1#3 | some .invalidChecksum => 2#3
        | some .unknownProtocolVersion => 3#3 | some .corruptedMessage => 4#3) ∧
      v.getLsbD 7 = false ∧
      (v.getLsbD 8 = true ↔ s.rx.ctl = .done ∧ s.rx.rrd ≤ s.rx.acc.length) ∧ v.extractLsb' 9 23 = 0#23) ∧
    (s.rx.ctl = .done →
      exec (.csrr 4) s =
        .next { s with env := { s.env with reply := some (.csr (BitVec.ofNat 32 s.rx.acc.length)) } }) ∧
    (s.rx.ctl ≠ .done → exec (.csrr 4) s = .next { s with env := { s.env with reply := some (.csr 0#32) } }) ∧
    exec (.csrr 5) s = .next { s with env := { s.env with reply := some (.csr s.rx.roff) } } ∧
    exec (.csrr 6) s = .next { s with env := { s.env with reply := some (.csr s.rx.rfoff) } } ∧
    ∀ n, 7 ≤ n → exec (.csrr n) s = .next { s with env := { s.env with reply := some (.csr 0#32) } }

/-- R202, R203, R258: a write to `CAP` stores bits [7:0] and changes nothing else, `tcap` among it; a write to `CTRL` with
bit 0 clear, and every write to a read-only or unimplemented number, changes nothing; with bit 0 set it is `RXCLR`. -/
def Obligations.CsrWriteEffects : Prop :=
  ∀ (s : State) (v : Word),
    exec (.csrw 0 v) s = .next { s with cap := v.extractLsb' 0 8 } ∧
    (v.getLsbD 0 = false → exec (.csrw 1 v) s = .next s) ∧
    (v.getLsbD 0 = true → exec (.csrw 1 v) s = exec (.rxclr v) s) ∧
    ∀ n, 2 ≤ n → exec (.csrw n v) s = .next s

/-- R204: `RXCLR` gives every RX register its reset value, `rbuf` keeps its bytes, and TX state, `CAP` and the symbols
waiting on `RX_IN` are untouched; in `RXS_ABORT` it does nothing. -/
def Obligations.RxclrClearsTheReassembler : Prop :=
  ∀ (s : State) (v : Word),
    (s.rx.ctl = .abort → exec (.rxclr v) s = .next s) ∧
    (s.rx.ctl ≠ .abort →
      exec (.rxclr v) s = .next { s with rx :=
        { ctl := .idle, rver := 0#8, rlen := 0#8, ridx := 0#8, rsum := 0#32, rcsum := 0#32, rbuf := s.rx.rbuf,
          acc := [], rerr := none, rrd := 0, roff := 0#32, rfoff := 0#32 } })

/-- R20, R30, R40, 92 D31: no CSR read and no symbol taken shows `rver`, `rlen`, `ridx`, `rsum`, `rcsum`, `rbuf`, `tbuf`
or `tsum`, in any state, nor `acc` and `rrd` outside `RXS_DONE`: two states that agree in everything else, and in
`RXS_DONE` in `acc` and `rrd`, give the host side the same value in `CSRR`, `TXOUT` and `RXOUT`, and none of the three
touches the rest. Outside `RXS_DONE` `RXOUT` gives nothing (that the attempt answers the same state is log entry 3). -/
def Obligations.HiddenStateIsNotHostReadable : Prop :=
  ∀ (s s' : State), s'.cap = s.cap → s'.tx.ctl = s.tx.ctl → s'.tx.tcap = s.tx.tcap →
    s'.tx.tcnt = s.tx.tcnt → s'.tx.q = s.tx.q → s'.rx.ctl = s.rx.ctl → s'.rx.rerr = s.rx.rerr →
    s'.rx.roff = s.rx.roff → s'.rx.rfoff = s.rx.rfoff → s'.env = s.env →
    (s.rx.ctl = .done → s'.rx.acc = s.rx.acc ∧ s'.rx.rrd = s.rx.rrd) →
    (∀ n, ∃ e, exec (.csrr n) s = .next { s with env := e } ∧ exec (.csrr n) s' = .next { s' with env := e }) ∧
    (∃ q e, exec .txout s = .next { s with tx := { s.tx with q := q }, env := e } ∧
      exec .txout s' = .next { s' with tx := { s'.tx with q := q }, env := e }) ∧
    (∃ k k' e, exec .rxout s = .next { s with rx := { s.rx with rrd := k }, env := e } ∧
      exec .rxout s' = .next { s' with rx := { s'.rx with rrd := k' }, env := e }) ∧
    (s.rx.ctl ≠ .done → exec .rxout s = .next s ∧ exec .rxout s' = .next s')

/-! ## The transaction level -/

/-- R103: `checksum` returns the sum of the bytes, as unsigned numbers, modulo 2^32, for every byte sequence; for a
payload it never wraps and is at most 65025. It changes nothing but the value the caller has. -/
def Obligations.ChecksumIsTheByteSum : Prop :=
  ∀ (s : State) (p : List Byte), ∃ v : Word,
    exec (.checksum p) s = .next { s with env := { s.env with reply := some (.checksum v) } } ∧
    v.toNat = (p.map BitVec.toNat).sum % 2 ^ 32 ∧
    (p.length ≤ 255 → v.toNat = (p.map BitVec.toNat).sum ∧ v.toNat ≤ 65025)

/-- R101: `fromSource` takes `min(capacity, len(source))` bytes as payload and returns the packet and the rest; with
capacity 0 it aborts whatever `source` is, and no value is returned. -/
def Obligations.FromSourceTakesOneChunk : Prop :=
  ∀ (s : State) (source : List Byte) (c : Byte),
    (c ≠ 0#8 → ∃ p rest,
      exec (.fromSource source c) s = .next { s with env := { s.env with reply := some (.chunk p rest) } } ∧
      source = p.payload ++ rest ∧ p.payload.length = min c.toNat source.length ∧ p.wf = true) ∧
    (c = 0#8 → exec (.fromSource source c) s = .fault .capZero)

/-- R102: `serialize` returns version, length, payload and the checksum's four bytes most significant first: `6 + length`
bytes for a packet. -/
def Obligations.SerializeLaysOutTheFrame : Prop :=
  ∀ (s : State) (p : Packet), ∃ bs,
    exec (.serialize p) s = .next { s with env := { s.env with reply := some (.bytes bs) } } ∧
    bs = [p.version, p.length] ++ p.payload ++
      [p.checksum.extractLsb' 24 8, p.checksum.extractLsb' 16 8, p.checksum.extractLsb' 8 8,
        p.checksum.extractLsb' 0 8] ∧
    (p.wf = true → bs.length = 6 + p.length.toNat)

/-- R104, R226: `deserialize` checks in the fixed order, and the first check that fails is the one reported. -/
def Obligations.DeserializeChecksInOrder : Prop :=
  ∀ (s : State) (bytes : List Byte), ∃ r,
    exec (.deserialize bytes) s = .next { s with env := { s.env with reply := some (.parsed r) } } ∧
    (bytes.length < 2 → r = .err .invalidPacket) ∧
    ∀ v len tail, bytes = v :: len :: tail →
      (v ≠ 1#8 → r = .err .unknownProtocolVersion) ∧
      (v = 1#8 → bytes.length < 6 + len.toNat → r = .err .invalidPacket) ∧
      (v = 1#8 → ∀ p b0 b1 b2 b3 rest, tail = p ++ [b0, b1, b2, b3] ++ rest → p.length = len.toNat →
        ((p.map BitVec.toNat).sum ≠ b0.toNat * 2 ^ 24 + b1.toNat * 2 ^ 16 + b2.toNat * 2 ^ 8 + b3.toNat →
          r = .err .invalidChecksum) ∧
        ((p.map BitVec.toNat).sum = b0.toNat * 2 ^ 24 + b1.toNat * 2 ^ 16 + b2.toNat * 2 ^ 8 + b3.toNat →
          r = .ok ({ version := 1#8, length := len, payload := p, checksum := BitVec.ofNat 32 (p.map BitVec.toNat).sum },
            rest)))

/-- R121, R122, 90 C6: with a capacity `toPackets` returns `ceil(n / c)` packets, one for the empty message; packet `k` is
a packet with payload `message[k*c .. min((k+1)*c, n)]`. -/
def Obligations.ToPacketsCutsTheMessage : Prop :=
  ∀ (s : State) (m : List Byte) (c : Byte), c ≠ 0#8 → ∃ ps,
    exec (.toPackets m c) s = .next { s with env := { s.env with reply := some (.packets ps) } } ∧
    ps.length = packetCount m.length c.toNat ∧
    (∀ k p, ps[k]? = some p → p.wf = true ∧ p.payload = (m.drop (k * c.toNat)).take c.toNat) ∧
    (ps.map Packet.payload).flatten = m

/-- R131, R132: with a capacity `toPacketData` returns the serialised packets of `toPackets` in order, `n + 6 * count`
bytes; it does not test the text. -/
def Obligations.ToPacketDataConcatenatesFrames : Prop :=
  ∀ (s : State) (m : List Byte) (c : Byte), c ≠ 0#8 → ∃ ps bs,
    exec (.toPackets m c) s = .next { s with env := { s.env with reply := some (.packets ps) } } ∧
    exec (.toPacketData m c) s = .next { s with env := { s.env with reply := some (.bytes bs) } } ∧
    bs = (ps.map serialize).flatten ∧ bs.length = m.length + 6 * packetCount m.length c.toNat

/-- R121, R131, R232: with capacity 0 `toPackets` and `toPacketData` abort whatever the message is: no value is returned. -/
def Obligations.ZeroCapacityCallsAbort : Prop :=
  ∀ (s : State) (m : List Byte),
    exec (.toPackets m 0#8) s = .fault .capZero ∧ exec (.toPacketData m 0#8) s = .fault .capZero

/-- R134, R135, R139: `fromPacketData` for every validity predicate: the empty stream is the empty message if that is
valid; a frame that passes joins the accumulator; the first error of a frame is the result; and `CorruptedMessage` comes
only after every frame has passed. The row's own predicate is the one of R136. -/
def Obligations.FromPacketDataReassembles : Prop :=
  (∀ (s : State) (bytes : List Byte),
    exec (.fromPacketData bytes) s =
      .next { s with env := { s.env with reply := some (.message (fromPacketDataWith msgValid bytes)) } }) ∧
  fromPacketDataWith msgValid [] = .ok [] ∧
  (∀ (valid : List Byte → Bool) (ps : List Packet), (∀ p ∈ ps, p.wf = true) →
    (valid (ps.map Packet.payload).flatten = true →
      fromPacketDataWith valid (ps.map serialize).flatten = .ok (ps.map Packet.payload).flatten) ∧
    (valid (ps.map Packet.payload).flatten = false →
      fromPacketDataWith valid (ps.map serialize).flatten = .err .corruptedMessage) ∧
    ∀ bad e, bad ≠ [] → deserialize bad = .err e →
      fromPacketDataWith valid ((ps.map serialize).flatten ++ bad) = .err e)

/-- R136: `MSG_VALID(m)` holds exactly when `m` is a concatenation of groups each matching a row of the table. -/
def Obligations.MessageValidityIsTheUtf8Table : Prop :=
  ∀ m : List Byte, msgValid m = true ↔ ∃ gs : List (List Byte), gs.flatten = m ∧ ∀ g ∈ gs, isUtf8Group g = true

/-- R106: `deserialize(serialize(p) ++ t) = Ok((p, t))` for every packet, and conversely whatever `deserialize` passes is
the serialisation of a packet and the rest. -/
def Obligations.DeserializeInvertsSerialize : Prop :=
  (∀ (p : Packet) (t : List Byte), p.wf = true → deserialize (serialize p ++ t) = .ok (p, t)) ∧
  (∀ (b : List Byte) (p : Packet) (t : List Byte), deserialize b = .ok (p, t) → b = serialize p ++ t ∧ p.wf = true)

/-- R107: checksum sensitivity, version sensitivity and truncation, for the frame of any packet; an overwritten checksum
byte; and an overwritten length byte, larger or smaller. -/
def Obligations.DamagedFramesAreDetected : Prop :=
  ∀ p : Packet, p.wf = true →
    (∀ k b, k < p.payload.length → p.payload[k]? ≠ some b →
      deserialize ((serialize p).set (2 + k) b) = .err .invalidChecksum) ∧
    (∀ v, v ≠ 1#8 → deserialize ((serialize p).set 0 v) = .err .unknownProtocolVersion) ∧
    (∀ n, n < 6 + p.length.toNat → deserialize ((serialize p).take n) = .err .invalidPacket) ∧
    (∀ k b, k < 4 → (be32 p.checksum)[k]? ≠ some b →
      deserialize ((serialize p).set (2 + p.length.toNat + k) b) = .err .invalidChecksum) ∧
    (∀ len : Byte, p.length.toNat < len.toNat → deserialize ((serialize p).set 1 len) = .err .invalidPacket) ∧
    (∀ len : Byte, len.toNat < p.length.toNat →
      ((serialize p).drop (2 + len.toNat)).take 4 ≠ be32 (checksum (p.payload.take len.toNat)) →
      deserialize ((serialize p).set 1 len) = .err .invalidChecksum)

/-- R138, the round-trip law, for every byte sequence, every capacity but 0 and every validity predicate. -/
def Obligations.RoundTripLaw : Prop :=
  ∀ (valid : List Byte → Bool) (m : List Byte) (c : Byte), c ≠ 0#8 → ∃ w, toPacketData m c = some w ∧
    (valid m = true → fromPacketDataWith valid w = .ok m) ∧
    (valid m = false → fromPacketDataWith valid w = .err .corruptedMessage)

/-! ## The whole machine -/

/-- R43: no TX rule reads or writes RX state, no RX rule reads or writes TX state or `CAP`: a TX operation does the same
beside any RX state, and an RX operation beside any TX state and any `CAP`. -/
def Obligations.EnginesShareNothing : Prop :=
  ∀ (i : Instr) (s t : State), exec i s = .next t →
    ((∃ d, i = .txinB d ∨ i = .txinE d) ∨ i = .txout →
      t.rx = s.rx ∧ t.cap = s.cap ∧ ∀ r, exec i { s with rx := r } = .next { t with rx := r }) ∧
    (isWireInput i = true ∨ i = .rxout ∨ (∃ v, i = .rxclr v) →
      t.tx = s.tx ∧ t.cap = s.cap ∧ ∀ x c, exec i { s with tx := x, cap := c } = .next { t with tx := x, cap := c })

/-- R235: wire input can cause PacketErrors and nothing else: it cannot change `CAP` or the TX engine, and with `ACC_MAX`
unbounded it cannot cause an abort. -/
def Obligations.WireInputCausesOnlyPacketErrors : Prop :=
  ∀ (i : Instr) (s t : State), isWireInput i = true → exec i s = .next t →
    t.cap = s.cap ∧ t.tx = s.tx ∧ (s.accMax = none → ¬ s.aborted → ¬ t.aborted)

/-- What the stores leave alone: a byte of `tbuf` changes only at the index `TXIN.B` stores to, a byte of `rbuf` only at
the index `RXIN.B` stores to in `RXS_PAYLOAD`; no other operation but the wire rows and `RESET` changes a byte of either
(R60, R153, R176). -/
def Obligations.BufferBytesOutsideTheStoreAreKept : Prop :=
  ∀ (i : Instr) (s t : State), exec i s = .next t → i ≠ .reset →
    (∀ a, (∀ d, i = .txinB d → txInEnabled s.tx = true → a ≠ if s.tx.ctl = .idle then 0 else s.tx.tcnt.toNat) →
      t.tx.tbuf.read a = s.tx.tbuf.read a) ∧
    ((∀ p c, i ≠ .frame p c) → (∀ v b, i ≠ .frameBadver v b) →
      ∀ a, (∀ d, i = .rxinB d → s.rx.ctl = .payload → a ≠ s.rx.ridx.toNat) →
        t.rx.rbuf.read a = s.rx.rbuf.read a)

/-- R24, R29: no rule reads a buffer byte that no rule has written: from a state of the invariant no operation but `RESET`
does anything that depends on the free values, so another reset count, whose free values are others, changes nothing. -/
def Obligations.UnwrittenBytesNeverMatter : Prop :=
  ∀ (i : Instr) (s t : State) (e : Nat), s.Inv → i ≠ .reset → exec i s = .next t →
    exec i { s with epoch := e } = .next { t with epoch := e }

/-- The invariant of R44 holds right after reset. -/
def Obligations.InvariantHoldsAtReset : Prop := State.reset.Inv

/-- The invariant of R44 is kept by every step, from every state that has it. -/
def Obligations.InvariantKeptByEveryStep : Prop :=
  ∀ s t : State, s.Inv → step s = .next t → t.Inv

/-- From a state of the invariant `exec` never stops but for the functions called with capacity 0: it answers a next state,
no buffer index is out of range (R24, R29, R44) and no data ends a run. That the attempt at an operation whose step is not
enabled answers a next state is the model's (log entry 3; in the spec the step does not happen, R11, 93 U9), and so are the
faults `capZero` (log entry 8) and those at index 255 of a buffer (log entry 9). -/
def Obligations.OperationsCompleteUnderInvariant : Prop :=
  ∀ (i : Instr) (s : State), s.Inv →
    (∃ t, exec i s = .next t) ∨
    (exec i s = .fault .capZero ∧ ∃ m, i = .fromSource m 0#8 ∨ i = .toPackets m 0#8 ∨ i = .toPacketData m 0#8)
end

