-- ==== Sys2Proof/Laws/State.lean ====
section
/-! SUPPORT. One lemma per field per update of State, true by definition, so that no later proof unfolds a record update. -/

namespace Sys2Proof.Machine

variable (s : State)

/-! ### `setTx` -/

@[simp] theorem State.setTx_cap (t : Tx) : (s.setTx t).cap = s.cap := rfl
@[simp] theorem State.setTx_tx (t : Tx) : (s.setTx t).tx = t := rfl
@[simp] theorem State.setTx_rx (t : Tx) : (s.setTx t).rx = s.rx := rfl
@[simp] theorem State.setTx_accMax (t : Tx) : (s.setTx t).accMax = s.accMax := rfl
@[simp] theorem State.setTx_epoch (t : Tx) : (s.setTx t).epoch = s.epoch := rfl
@[simp] theorem State.setTx_env (t : Tx) : (s.setTx t).env = s.env := rfl

/-! ### `setRx` -/

@[simp] theorem State.setRx_cap (r : Rx) : (s.setRx r).cap = s.cap := rfl
@[simp] theorem State.setRx_tx (r : Rx) : (s.setRx r).tx = s.tx := rfl
@[simp] theorem State.setRx_rx (r : Rx) : (s.setRx r).rx = r := rfl
@[simp] theorem State.setRx_accMax (r : Rx) : (s.setRx r).accMax = s.accMax := rfl
@[simp] theorem State.setRx_epoch (r : Rx) : (s.setRx r).epoch = s.epoch := rfl
@[simp] theorem State.setRx_env (r : Rx) : (s.setRx r).env = s.env := rfl

/-! ### `setCap` -/

@[simp] theorem State.setCap_cap (c : Byte) : (s.setCap c).cap = c := rfl
@[simp] theorem State.setCap_tx (c : Byte) : (s.setCap c).tx = s.tx := rfl
@[simp] theorem State.setCap_rx (c : Byte) : (s.setCap c).rx = s.rx := rfl
@[simp] theorem State.setCap_accMax (c : Byte) : (s.setCap c).accMax = s.accMax := rfl
@[simp] theorem State.setCap_epoch (c : Byte) : (s.setCap c).epoch = s.epoch := rfl
@[simp] theorem State.setCap_env (c : Byte) : (s.setCap c).env = s.env := rfl

/-! ### `setEnv` -/

@[simp] theorem State.setEnv_cap (e : Env) : (s.setEnv e).cap = s.cap := rfl
@[simp] theorem State.setEnv_tx (e : Env) : (s.setEnv e).tx = s.tx := rfl
@[simp] theorem State.setEnv_rx (e : Env) : (s.setEnv e).rx = s.rx := rfl
@[simp] theorem State.setEnv_accMax (e : Env) : (s.setEnv e).accMax = s.accMax := rfl
@[simp] theorem State.setEnv_epoch (e : Env) : (s.setEnv e).epoch = s.epoch := rfl
@[simp] theorem State.setEnv_env (e : Env) : (s.setEnv e).env = e := rfl

/-! ### `answer` -/

@[simp] theorem State.answer_cap (r : Reply) : (s.answer r).cap = s.cap := rfl
@[simp] theorem State.answer_tx (r : Reply) : (s.answer r).tx = s.tx := rfl
@[simp] theorem State.answer_rx (r : Reply) : (s.answer r).rx = s.rx := rfl
@[simp] theorem State.answer_accMax (r : Reply) : (s.answer r).accMax = s.accMax := rfl
@[simp] theorem State.answer_epoch (r : Reply) : (s.answer r).epoch = s.epoch := rfl
@[simp] theorem State.answer_env_txIn (r : Reply) : (s.answer r).env.txIn = s.env.txIn := rfl
@[simp] theorem State.answer_env_rxIn (r : Reply) : (s.answer r).env.rxIn = s.env.rxIn := rfl
@[simp] theorem State.answer_env_txGot (r : Reply) : (s.answer r).env.txGot = s.env.txGot := rfl
@[simp] theorem State.answer_env_rxGot (r : Reply) : (s.answer r).env.rxGot = s.env.rxGot := rfl
@[simp] theorem State.answer_env_moves (r : Reply) : (s.answer r).env.moves = s.env.moves := rfl
@[simp] theorem State.answer_env_reply (r : Reply) : (s.answer r).env.reply = some r := rfl
@[simp] theorem State.answer_env_loopback (r : Reply) : (s.answer r).env.loopback = s.env.loopback := rfl

/-! ### `holdTxIn` -/

@[simp] theorem State.holdTxIn_cap (w : SymWord) : (s.holdTxIn w).cap = s.cap := rfl
@[simp] theorem State.holdTxIn_tx (w : SymWord) : (s.holdTxIn w).tx = s.tx := rfl
@[simp] theorem State.holdTxIn_rx (w : SymWord) : (s.holdTxIn w).rx = s.rx := rfl
@[simp] theorem State.holdTxIn_accMax (w : SymWord) : (s.holdTxIn w).accMax = s.accMax := rfl
@[simp] theorem State.holdTxIn_epoch (w : SymWord) : (s.holdTxIn w).epoch = s.epoch := rfl
@[simp] theorem State.holdTxIn_env_txIn (w : SymWord) : (s.holdTxIn w).env.txIn = w :: s.env.txIn := rfl
@[simp] theorem State.holdTxIn_env_rxIn (w : SymWord) : (s.holdTxIn w).env.rxIn = s.env.rxIn := rfl
@[simp] theorem State.holdTxIn_env_txGot (w : SymWord) : (s.holdTxIn w).env.txGot = s.env.txGot := rfl
@[simp] theorem State.holdTxIn_env_rxGot (w : SymWord) : (s.holdTxIn w).env.rxGot = s.env.rxGot := rfl
@[simp] theorem State.holdTxIn_env_moves (w : SymWord) : (s.holdTxIn w).env.moves = s.env.moves := rfl
@[simp] theorem State.holdTxIn_env_reply (w : SymWord) : (s.holdTxIn w).env.reply = s.env.reply := rfl
@[simp] theorem State.holdTxIn_env_loopback (w : SymWord) : (s.holdTxIn w).env.loopback = s.env.loopback := rfl

/-! ### `holdRxIn` -/

@[simp] theorem State.holdRxIn_cap (ws : List SymWord) : (s.holdRxIn ws).cap = s.cap := rfl
@[simp] theorem State.holdRxIn_tx (ws : List SymWord) : (s.holdRxIn ws).tx = s.tx := rfl
@[simp] theorem State.holdRxIn_rx (ws : List SymWord) : (s.holdRxIn ws).rx = s.rx := rfl
@[simp] theorem State.holdRxIn_accMax (ws : List SymWord) : (s.holdRxIn ws).accMax = s.accMax := rfl
@[simp] theorem State.holdRxIn_epoch (ws : List SymWord) : (s.holdRxIn ws).epoch = s.epoch := rfl
@[simp] theorem State.holdRxIn_env_txIn (ws : List SymWord) : (s.holdRxIn ws).env.txIn = s.env.txIn := rfl
@[simp] theorem State.holdRxIn_env_rxIn (ws : List SymWord) : (s.holdRxIn ws).env.rxIn = ws ++ s.env.rxIn := rfl
@[simp] theorem State.holdRxIn_env_txGot (ws : List SymWord) : (s.holdRxIn ws).env.txGot = s.env.txGot := rfl
@[simp] theorem State.holdRxIn_env_rxGot (ws : List SymWord) : (s.holdRxIn ws).env.rxGot = s.env.rxGot := rfl
@[simp] theorem State.holdRxIn_env_moves (ws : List SymWord) : (s.holdRxIn ws).env.moves = s.env.moves := rfl
@[simp] theorem State.holdRxIn_env_reply (ws : List SymWord) : (s.holdRxIn ws).env.reply = s.env.reply := rfl
@[simp] theorem State.holdRxIn_env_loopback (ws : List SymWord) : (s.holdRxIn ws).env.loopback = s.env.loopback := rfl

/-! ### `giveTxOut` -/

@[simp] theorem State.giveTxOut_cap (x : Symbol) : (s.giveTxOut x).cap = s.cap := rfl
@[simp] theorem State.giveTxOut_tx (x : Symbol) : (s.giveTxOut x).tx = s.tx := rfl
@[simp] theorem State.giveTxOut_rx (x : Symbol) : (s.giveTxOut x).rx = s.rx := rfl
@[simp] theorem State.giveTxOut_accMax (x : Symbol) : (s.giveTxOut x).accMax = s.accMax := rfl
@[simp] theorem State.giveTxOut_epoch (x : Symbol) : (s.giveTxOut x).epoch = s.epoch := rfl
@[simp] theorem State.giveTxOut_env_txIn (x : Symbol) : (s.giveTxOut x).env.txIn = s.env.txIn := rfl
@[simp] theorem State.giveTxOut_env_rxIn (x : Symbol) : (s.giveTxOut x).env.rxIn = if s.env.loopback then s.env.rxIn ++ [wordOfSymbol x] else s.env.rxIn := rfl
@[simp] theorem State.giveTxOut_env_txGot (x : Symbol) : (s.giveTxOut x).env.txGot = s.env.txGot ++ [x] := rfl
@[simp] theorem State.giveTxOut_env_rxGot (x : Symbol) : (s.giveTxOut x).env.rxGot = s.env.rxGot := rfl
@[simp] theorem State.giveTxOut_env_moves (x : Symbol) : (s.giveTxOut x).env.moves = s.env.moves := rfl
@[simp] theorem State.giveTxOut_env_reply (x : Symbol) : (s.giveTxOut x).env.reply = some (.symbol x) := rfl
@[simp] theorem State.giveTxOut_env_loopback (x : Symbol) : (s.giveTxOut x).env.loopback = s.env.loopback := rfl

/-! ### `giveRxOut` -/

@[simp] theorem State.giveRxOut_cap (x : Symbol) : (s.giveRxOut x).cap = s.cap := rfl
@[simp] theorem State.giveRxOut_tx (x : Symbol) : (s.giveRxOut x).tx = s.tx := rfl
@[simp] theorem State.giveRxOut_rx (x : Symbol) : (s.giveRxOut x).rx = s.rx := rfl
@[simp] theorem State.giveRxOut_accMax (x : Symbol) : (s.giveRxOut x).accMax = s.accMax := rfl
@[simp] theorem State.giveRxOut_epoch (x : Symbol) : (s.giveRxOut x).epoch = s.epoch := rfl
@[simp] theorem State.giveRxOut_env_txIn (x : Symbol) : (s.giveRxOut x).env.txIn = s.env.txIn := rfl
@[simp] theorem State.giveRxOut_env_rxIn (x : Symbol) : (s.giveRxOut x).env.rxIn = s.env.rxIn := rfl
@[simp] theorem State.giveRxOut_env_txGot (x : Symbol) : (s.giveRxOut x).env.txGot = s.env.txGot := rfl
@[simp] theorem State.giveRxOut_env_rxGot (x : Symbol) : (s.giveRxOut x).env.rxGot = s.env.rxGot ++ [x] := rfl
@[simp] theorem State.giveRxOut_env_moves (x : Symbol) : (s.giveRxOut x).env.moves = s.env.moves := rfl
@[simp] theorem State.giveRxOut_env_reply (x : Symbol) : (s.giveRxOut x).env.reply = some (.symbol x) := rfl
@[simp] theorem State.giveRxOut_env_loopback (x : Symbol) : (s.giveRxOut x).env.loopback = s.env.loopback := rfl

/-! ### `popMove` -/

@[simp] theorem State.popMove_cap : s.popMove.cap = s.cap := rfl
@[simp] theorem State.popMove_tx : s.popMove.tx = s.tx := rfl
@[simp] theorem State.popMove_rx : s.popMove.rx = s.rx := rfl
@[simp] theorem State.popMove_accMax : s.popMove.accMax = s.accMax := rfl
@[simp] theorem State.popMove_epoch : s.popMove.epoch = s.epoch := rfl
@[simp] theorem State.popMove_env_txIn : s.popMove.env.txIn = s.env.txIn := rfl
@[simp] theorem State.popMove_env_rxIn : s.popMove.env.rxIn = s.env.rxIn := rfl
@[simp] theorem State.popMove_env_txGot : s.popMove.env.txGot = s.env.txGot := rfl
@[simp] theorem State.popMove_env_rxGot : s.popMove.env.rxGot = s.env.rxGot := rfl
@[simp] theorem State.popMove_env_moves : s.popMove.env.moves = s.env.moves.tail := rfl
@[simp] theorem State.popMove_env_reply : s.popMove.env.reply = s.env.reply := rfl
@[simp] theorem State.popMove_env_loopback : s.popMove.env.loopback = s.env.loopback := rfl

/-! ### `takeTxIn` -/

@[simp] theorem State.takeTxIn_cap (n : Nat) : (s.takeTxIn n).cap = s.cap := rfl
@[simp] theorem State.takeTxIn_tx (n : Nat) : (s.takeTxIn n).tx = s.tx := rfl
@[simp] theorem State.takeTxIn_rx (n : Nat) : (s.takeTxIn n).rx = s.rx := rfl
@[simp] theorem State.takeTxIn_accMax (n : Nat) : (s.takeTxIn n).accMax = s.accMax := rfl
@[simp] theorem State.takeTxIn_epoch (n : Nat) : (s.takeTxIn n).epoch = s.epoch := rfl
@[simp] theorem State.takeTxIn_env_txIn (n : Nat) : (s.takeTxIn n).env.txIn = s.env.txIn.drop n := rfl
@[simp] theorem State.takeTxIn_env_rxIn (n : Nat) : (s.takeTxIn n).env.rxIn = s.env.rxIn := rfl
@[simp] theorem State.takeTxIn_env_txGot (n : Nat) : (s.takeTxIn n).env.txGot = s.env.txGot := rfl
@[simp] theorem State.takeTxIn_env_rxGot (n : Nat) : (s.takeTxIn n).env.rxGot = s.env.rxGot := rfl
@[simp] theorem State.takeTxIn_env_moves (n : Nat) : (s.takeTxIn n).env.moves = s.env.moves.tail := rfl
@[simp] theorem State.takeTxIn_env_reply (n : Nat) : (s.takeTxIn n).env.reply = s.env.reply := rfl
@[simp] theorem State.takeTxIn_env_loopback (n : Nat) : (s.takeTxIn n).env.loopback = s.env.loopback := rfl

/-! ### `takeRxIn` -/

@[simp] theorem State.takeRxIn_cap (n : Nat) : (s.takeRxIn n).cap = s.cap := rfl
@[simp] theorem State.takeRxIn_tx (n : Nat) : (s.takeRxIn n).tx = s.tx := rfl
@[simp] theorem State.takeRxIn_rx (n : Nat) : (s.takeRxIn n).rx = s.rx := rfl
@[simp] theorem State.takeRxIn_accMax (n : Nat) : (s.takeRxIn n).accMax = s.accMax := rfl
@[simp] theorem State.takeRxIn_epoch (n : Nat) : (s.takeRxIn n).epoch = s.epoch := rfl
@[simp] theorem State.takeRxIn_env_txIn (n : Nat) : (s.takeRxIn n).env.txIn = s.env.txIn := rfl
@[simp] theorem State.takeRxIn_env_rxIn (n : Nat) : (s.takeRxIn n).env.rxIn = s.env.rxIn.drop n := rfl
@[simp] theorem State.takeRxIn_env_txGot (n : Nat) : (s.takeRxIn n).env.txGot = s.env.txGot := rfl
@[simp] theorem State.takeRxIn_env_rxGot (n : Nat) : (s.takeRxIn n).env.rxGot = s.env.rxGot := rfl
@[simp] theorem State.takeRxIn_env_moves (n : Nat) : (s.takeRxIn n).env.moves = s.env.moves.tail := rfl
@[simp] theorem State.takeRxIn_env_reply (n : Nat) : (s.takeRxIn n).env.reply = s.env.reply := rfl
@[simp] theorem State.takeRxIn_env_loopback (n : Nat) : (s.takeRxIn n).env.loopback = s.env.loopback := rfl

/-! ### `blockReset` -/

@[simp] theorem State.blockReset_cap : s.blockReset.cap = 0#8 := rfl
@[simp] theorem State.blockReset_tx : s.blockReset.tx = Tx.reset := rfl
@[simp] theorem State.blockReset_rx : s.blockReset.rx = Rx.reset := rfl
@[simp] theorem State.blockReset_accMax : s.blockReset.accMax = s.accMax := rfl
@[simp] theorem State.blockReset_epoch : s.blockReset.epoch = s.epoch + 1 := rfl
@[simp] theorem State.blockReset_env : s.blockReset.env = s.env := rfl

/-! ### The entries into the failed and the fatal states write two registers, or one -/

@[simp] theorem Rx.fail_ctl (e : PacketError) (r : Rx) : (r.fail e).ctl = .failed := rfl
@[simp] theorem Rx.fail_rver (e : PacketError) (r : Rx) : (r.fail e).rver = r.rver := rfl
@[simp] theorem Rx.fail_rlen (e : PacketError) (r : Rx) : (r.fail e).rlen = r.rlen := rfl
@[simp] theorem Rx.fail_ridx (e : PacketError) (r : Rx) : (r.fail e).ridx = r.ridx := rfl
@[simp] theorem Rx.fail_rsum (e : PacketError) (r : Rx) : (r.fail e).rsum = r.rsum := rfl
@[simp] theorem Rx.fail_rcsum (e : PacketError) (r : Rx) : (r.fail e).rcsum = r.rcsum := rfl
@[simp] theorem Rx.fail_rbuf (e : PacketError) (r : Rx) : (r.fail e).rbuf = r.rbuf := rfl
@[simp] theorem Rx.fail_acc (e : PacketError) (r : Rx) : (r.fail e).acc = r.acc := rfl
@[simp] theorem Rx.fail_rerr (e : PacketError) (r : Rx) : (r.fail e).rerr = some e := rfl
@[simp] theorem Rx.fail_rrd (e : PacketError) (r : Rx) : (r.fail e).rrd = r.rrd := rfl
@[simp] theorem Rx.fail_roff (e : PacketError) (r : Rx) : (r.fail e).roff = r.roff := rfl
@[simp] theorem Rx.fail_rfoff (e : PacketError) (r : Rx) : (r.fail e).rfoff = r.rfoff := rfl

@[simp] theorem Rx.abortAccOverflow_ctl (r : Rx) : r.abortAccOverflow.ctl = .abort := rfl
@[simp] theorem Rx.abortAccOverflow_rver (r : Rx) : r.abortAccOverflow.rver = r.rver := rfl
@[simp] theorem Rx.abortAccOverflow_rlen (r : Rx) : r.abortAccOverflow.rlen = r.rlen := rfl
@[simp] theorem Rx.abortAccOverflow_ridx (r : Rx) : r.abortAccOverflow.ridx = r.ridx := rfl
@[simp] theorem Rx.abortAccOverflow_rsum (r : Rx) : r.abortAccOverflow.rsum = r.rsum := rfl
@[simp] theorem Rx.abortAccOverflow_rcsum (r : Rx) : r.abortAccOverflow.rcsum = r.rcsum := rfl
@[simp] theorem Rx.abortAccOverflow_rbuf (r : Rx) : r.abortAccOverflow.rbuf = r.rbuf := rfl
@[simp] theorem Rx.abortAccOverflow_acc (r : Rx) : r.abortAccOverflow.acc = r.acc := rfl
@[simp] theorem Rx.abortAccOverflow_rerr (r : Rx) : r.abortAccOverflow.rerr = r.rerr := rfl
@[simp] theorem Rx.abortAccOverflow_rrd (r : Rx) : r.abortAccOverflow.rrd = r.rrd := rfl
@[simp] theorem Rx.abortAccOverflow_roff (r : Rx) : r.abortAccOverflow.roff = r.roff := rfl
@[simp] theorem Rx.abortAccOverflow_rfoff (r : Rx) : r.abortAccOverflow.rfoff = r.rfoff := rfl

@[simp] theorem Tx.abortCapZero_ctl (t : Tx) : t.abortCapZero.ctl = .abort := rfl
@[simp] theorem Tx.abortCapZero_tcap (t : Tx) : t.abortCapZero.tcap = t.tcap := rfl
@[simp] theorem Tx.abortCapZero_tcnt (t : Tx) : t.abortCapZero.tcnt = t.tcnt := rfl
@[simp] theorem Tx.abortCapZero_tsum (t : Tx) : t.abortCapZero.tsum = t.tsum := rfl
@[simp] theorem Tx.abortCapZero_tbuf (t : Tx) : t.abortCapZero.tbuf = t.tbuf := rfl
@[simp] theorem Tx.abortCapZero_q (t : Tx) : t.abortCapZero.q = t.q := rfl

end Sys2Proof.Machine
end

