-- ==== Sys2Proof/Laws/Buffers.lean ====
section
/-! SUPPORT. The laws of the buffers: what a read sees after a write, and that every operation keeps the canonical form. -/

namespace Sys2Proof.Machine

@[simp] theorem Memory.read_nil (i : Nat) : Memory.read [] i = none := rfl

theorem Memory.read_write (m : Memory) (i j : Nat) (b : Byte) :
    (m.write i b).read j = if i = j then some b else m.read j := by
  induction m with
  | nil => simp [Memory.write, Memory.read]
  | cons c rest ih =>
    obtain ⟨k, c⟩ := c
    by_cases hlt : i < k
    · simp [Memory.write, Memory.read, hlt]
    · by_cases heq : i = k
      · subst heq
        simp only [Memory.write, Memory.read, lt_irrefl, if_false, if_true]
        split <;> rfl
      · simp only [Memory.write, Memory.read, hlt, heq, if_false, ih]
        by_cases hk : k = j
        · simp [hk, show ¬ i = j from fun h => heq (h.trans hk.symm)]
        · simp [hk]

@[simp] theorem Memory.read_write_same (m : Memory) (i : Nat) (b : Byte) : (m.write i b).read i = some b := by
  simp [Memory.read_write]

theorem Memory.read_write_other (m : Memory) {i j : Nat} (b : Byte) (h : j ≠ i) :
    (m.write i b).read j = m.read j := by
  simp [Memory.read_write, Ne.symm h]

theorem Memory.mem_write {m : Memory} {i : Nat} {b : Byte} {c : Host.Cell} (h : c ∈ m.write i b) :
    c = (i, b) ∨ c ∈ m := by
  induction m with
  | nil => exact .inl (by simpa [Memory.write] using h)
  | cons d rest ih =>
    obtain ⟨k, d⟩ := d
    simp only [Memory.write] at h
    split at h
    · simpa using h
    · split at h
      · rcases List.mem_cons.mp h with h | h
        · exact .inl h
        · exact .inr (List.mem_cons_of_mem _ h)
      · rcases List.mem_cons.mp h with h | h
        · exact .inr (h ▸ List.mem_cons_self)
        · exact (ih h).imp_right (List.mem_cons_of_mem _)

/-- A write below the size of a buffer keeps the canonical form. -/
theorem Memory.write_wf {m : Memory} (h : m.wf) {i : Nat} (hi : i < Config.maxPayload) (b : Byte) :
    (m.write i b).wf := by
  refine ⟨?_, fun c hc => ?_⟩
  · obtain ⟨h, -⟩ := h
    induction m with
    | nil => simp [Memory.write]
    | cons d rest ih =>
      obtain ⟨k, d⟩ := d
      obtain ⟨hk, hrest⟩ := List.pairwise_cons.mp h
      simp only [Memory.write]
      split
      · refine List.pairwise_cons.mpr ⟨fun c hc => ?_, h⟩
        rcases List.mem_cons.mp hc with rfl | hc
        · assumption
        · exact lt_trans (by assumption) (hk c hc)
      · split
        · subst i
          exact List.pairwise_cons.mpr ⟨hk, hrest⟩
        · refine List.pairwise_cons.mpr ⟨fun c hc => ?_, ih hrest⟩
          rcases Memory.mem_write hc with rfl | hc
          · show k < i
            omega
          · exact hk c hc
  · rcases Memory.mem_write hc with rfl | hc
    · exact hi
    · exact h.2 c hc

/-- What a store can do: the index exists and the byte is written there, or it is refused. -/
theorem Memory.store_eq_some {m m' : Memory} {i : Nat} {b : Byte} :
    m.store i b = some m' ↔ i < Config.maxPayload ∧ m' = m.write i b := by
  simp only [Memory.store]
  split
  · simp [*, eq_comm]
  · simp [*]

theorem Memory.store_eq_none {m : Memory} {i : Nat} {b : Byte} : m.store i b = none ↔ Config.maxPayload ≤ i := by
  simp only [Memory.store]
  split
  · simp only [reduceCtorEq, false_iff]; omega
  · simp only [true_iff]; omega

/-- A store that is done keeps the canonical form. -/
theorem Memory.store_wf {m m' : Memory} {i : Nat} {b : Byte} (h : m.wf) (hs : m.store i b = some m') : m'.wf := by
  obtain ⟨hi, rfl⟩ := Memory.store_eq_some.mp hs
  exact Memory.write_wf h hi b

@[simp] theorem Memory.bytes_length (free : Nat → Byte) (m : Memory) (n : Nat) : (m.bytes free n).length = n := by
  simp [Memory.bytes]

@[simp] theorem Memory.bytes_zero (free : Nat → Byte) (m : Memory) : m.bytes free 0 = [] := rfl

/-- The bytes below the index written are as before. -/
theorem Memory.bytes_write_le (free : Nat → Byte) (m : Memory) {n i : Nat} (b : Byte) (h : n ≤ i) :
    (m.write i b).bytes free n = m.bytes free n := by
  refine List.map_congr_left fun j hj => ?_
  have hj' := List.mem_range.mp hj
  simp only [Memory.load]
  rw [Memory.read_write_other m b (by omega)]

/-- A byte written right after the first `n` makes them `n + 1`. -/
theorem Memory.bytes_write_succ (free : Nat → Byte) (m : Memory) (n : Nat) (b : Byte) :
    (m.write n b).bytes free (n + 1) = m.bytes free n ++ [b] := by
  have h := Memory.bytes_write_le free m b (le_refl n)
  simp only [Memory.bytes] at h ⊢
  rw [List.range_succ, List.map_append, h]
  simp [Memory.load]

/-- Bytes that have all been written do not depend on the free values. -/
theorem Memory.bytes_free_irrelevant (f g : Nat → Byte) (m : Memory) (n : Nat)
    (h : ∀ i < n, (m.read i).isSome) : m.bytes f n = m.bytes g n := by
  refine List.map_congr_left fun j hj => ?_
  obtain ⟨b, hb⟩ := Option.isSome_iff_exists.mp (h j (List.mem_range.mp hj))
  simp [Memory.load, hb]

/-- The buffers of the state after reset are in canonical form. -/
theorem State.reset_buffers_wf : State.reset.tx.tbuf.wf ∧ State.reset.rx.rbuf.wf := by decide

end Sys2Proof.Machine
end

