-- ==== Sys2Proof/Laws/Codec.lean ====
section
/-! SUPPORT. The laws of the transaction level: the checksum as a sum, byte order, and the loops without their fuel. -/

namespace Sys2Proof.Machine

/-! ### checksum -/

theorem checksum_nil : checksum [] = 0#32 := rfl

theorem checksum_foldl (p : List Byte) (a : Word) :
    p.foldl (fun acc b => acc + zext32 b) a = a + checksum p := by
  induction p generalizing a with
  | nil => simp [checksum]
  | cons b p ih =>
    simp only [List.foldl_cons, checksum]
    rw [ih, ih (0#32 + zext32 b), BitVec.zero_add, BitVec.add_assoc]

theorem checksum_cons (b : Byte) (p : List Byte) : checksum (b :: p) = zext32 b + checksum p := by
  simp only [checksum, List.foldl_cons, BitVec.zero_add]
  exact checksum_foldl p (zext32 b)

theorem checksum_append (p q : List Byte) : checksum (p ++ q) = checksum p + checksum q := by
  simp only [checksum, List.foldl_append]
  exact checksum_foldl q _

/-- One more byte, one more term (R153, R176). -/
theorem checksum_snoc (p : List Byte) (b : Byte) : checksum (p ++ [b]) = checksum p + zext32 b := by
  rw [checksum_append, checksum_cons, checksum_nil, BitVec.add_zero]

/-- The checksum is the sum of the bytes modulo 2^32 (R103). -/
theorem checksum_toNat (p : List Byte) : (checksum p).toNat = (p.map BitVec.toNat).sum % 2 ^ 32 := by
  induction p with
  | nil => rfl
  | cons b p ih =>
    rw [checksum_cons, BitVec.toNat_add, ih]
    have hz : (zext32 b).toNat = b.toNat := by
      simp only [zext32, BitVec.toNat_setWidth]
      exact Nat.mod_eq_of_lt (by have := b.isLt; omega)
    simp [hz]

/-- The sum of `n` bytes is at most `255 n` (R103). -/
theorem sum_toNat_le (p : List Byte) : (p.map BitVec.toNat).sum ≤ 255 * p.length := by
  induction p with
  | nil => simp
  | cons b p ih =>
    have := b.isLt
    simp only [List.map_cons, List.sum_cons, List.length_cons]
    omega

/-! ### Byte order -/

@[simp] theorem be32_length (v : Word) : (be32 v).length = 4 := rfl

/-- `be32dec(be32(v)) = v` (R105 f). -/
@[simp] theorem be32dec_be32 (v : Word) : be32dec (be32 v) = v := by
  simp only [be32dec, be32, List.foldl_cons, List.foldl_nil, shiftInByte]
  refine BitVec.eq_of_getLsbD_eq fun i hi => ?_
  simp only [BitVec.getLsbD_append, BitVec.getLsbD_extractLsb']
  rcases Nat.lt_or_ge i 8 with h | h
  · simp [h]
  · rcases Nat.lt_or_ge i 16 with h' | h'
    · simp [show ¬ i < 8 by omega, show i - 8 < 8 by omega, show 8 + (i - 8) = i by omega]
      omega
    · rcases Nat.lt_or_ge i 24 with h'' | h''
      · simp [show ¬ i < 8 by omega, show ¬ i - 8 < 8 by omega, show i - 8 - 8 < 8 by omega,
          show 16 + (i - 8 - 8) = i by omega, show i - 8 - 8 < 24 by omega]
        omega
      · simp [show ¬ i < 8 by omega, show ¬ i - 8 < 8 by omega, show ¬ i - 8 - 8 < 8 by omega,
          show i - 8 - 8 - 8 < 8 by omega, show 24 + (i - 8 - 8 - 8) = i by omega,
          show i - 8 - 8 < 24 by omega, show i - 8 - 8 - 8 < 24 by omega]
        omega

/-! ### fromSource and toPackets -/

/-- `fromSource` of a capacity that is not 0: at most `capacity` bytes from the front (R101). -/
theorem fromSource_of_ne_zero (source : List Byte) {c : Byte} (h : c ≠ 0#8) :
    fromSource source c = some (packetOf (source.take c.toNat), source.drop c.toNat) := by
  simp only [fromSource, h, if_false]
  rcases Nat.le_total c.toNat source.length with hle | hle
  · simp [Nat.min_eq_left hle]
  · simp [Nat.min_eq_right hle, List.take_of_length_le hle, List.drop_of_length_le hle]

theorem toNat_pos_of_ne_zero {c : Byte} (h : c ≠ 0#8) : 0 < c.toNat := by
  rcases Nat.eq_zero_or_pos c.toNat with h0 | h0
  · exact absurd (BitVec.eq_of_toNat_eq (by simpa using h0)) h
  · exact h0

/-- One round of the loop of R121. -/
theorem toPacketsLoop_succ (message : List Byte) {c : Byte} (h : c ≠ 0#8) (fuel : Nat) :
    toPacketsLoop c (fuel + 1) message =
      if message.drop c.toNat = [] then some [packetOf (message.take c.toNat)]
      else (toPacketsLoop c fuel (message.drop c.toNat)).map (packetOf (message.take c.toNat) :: ·) := by
  simp [toPacketsLoop, fromSource_of_ne_zero message h]

/-- More rounds than bytes change nothing: the fuel is only a bound. -/
theorem toPacketsLoop_fuel {c : Byte} (h : c ≠ 0#8) (fuel : Nat) (message : List Byte)
    (hf : message.length < fuel) : toPacketsLoop c fuel message = toPackets message c := by
  have hpos := toNat_pos_of_ne_zero h
  suffices H : ∀ f m g, m.length < f → m.length < g → toPacketsLoop c f m = toPacketsLoop c g m from
    H _ _ _ hf (Nat.lt_succ_self _)
  intro f
  induction f with
  | zero => intro m g hm; omega
  | succ f ih =>
    intro m g hm hg
    obtain ⟨g, rfl⟩ : ∃ k, g = k + 1 := ⟨g - 1, by omega⟩
    rw [toPacketsLoop_succ m h, toPacketsLoop_succ m h]
    split
    · rfl
    · rename_i hne
      have hlen : (m.drop c.toNat).length < m.length := by
        rw [List.length_drop]
        have : m ≠ [] := by rintro rfl; simp at hne
        have := List.length_pos_iff.mpr this
        omega
      rw [ih _ g (by omega) (by omega)]

/-- `toPackets` without its fuel (R121): the loop's own equation. -/
theorem toPackets_unfold (message : List Byte) {c : Byte} (h : c ≠ 0#8) :
    toPackets message c =
      if message.drop c.toNat = [] then some [packetOf (message.take c.toNat)]
      else (toPackets (message.drop c.toNat) c).map (packetOf (message.take c.toNat) :: ·) := by
  have hpos := toNat_pos_of_ne_zero h
  conv_lhs => rw [toPackets, toPacketsLoop_succ message h]
  split
  · rfl
  · rename_i hne
    rw [toPacketsLoop_fuel h]
    rw [List.length_drop]
    have : message ≠ [] := by rintro rfl; simp at hne
    have := List.length_pos_iff.mpr this
    omega

theorem toPackets_zero (message : List Byte) : toPackets message 0#8 = none := by
  simp [toPackets, toPacketsLoop, fromSource]

/-! ### deserialize and fromPacketData -/

/-- A frame that is passed takes at least 6 bytes (R104 steps 3 and 5). -/
theorem deserialize_ok_length {bytes rest : List Byte} {p : Packet} (h : deserialize bytes = .ok (p, rest)) :
    rest.length + 6 + p.payload.length = bytes.length := by
  unfold deserialize at h
  split at h
  · rename_i v l tail
    split at h
    · cases h
    · dsimp only at h
      split at h
      · cases h
      · split at h
        · cases h
        · rename_i hlen _
          cases h
          simp only [List.length_drop, List.length_take, List.length_cons, Config.overhead] at *
          omega
  · cases h

/-- One round of the loop of R134. -/
theorem fromPacketDataLoop_succ (valid : List Byte → Bool) (fuel : Nat) (acc rest : List Byte) :
    fromPacketDataLoop valid (fuel + 1) acc rest =
      if rest = [] then (if valid acc then .ok acc else .err .corruptedMessage)
      else
        match deserialize rest with
        | .err e => .err e
        | .ok (p, rest') => fromPacketDataLoop valid fuel (acc ++ p.payload) rest' := rfl

/-- As many rounds as bytes are enough: the fuel is only a bound. -/
theorem fromPacketDataLoop_fuel (valid : List Byte → Bool) (f g : Nat) (acc rest : List Byte)
    (hf : rest.length ≤ f) (hg : rest.length ≤ g) :
    fromPacketDataLoop valid f acc rest = fromPacketDataLoop valid g acc rest := by
  induction f generalizing g acc rest with
  | zero =>
    obtain rfl : rest = [] := List.length_eq_zero_iff.mp (by omega)
    cases g <;> simp [fromPacketDataLoop]
  | succ f ih =>
    cases g with
    | zero =>
      obtain rfl : rest = [] := List.length_eq_zero_iff.mp (by omega)
      simp [fromPacketDataLoop]
    | succ g =>
      rw [fromPacketDataLoop_succ, fromPacketDataLoop_succ]
      split
      · rfl
      · split
        · rfl
        · rename_i p rest' hd
          have := deserialize_ok_length hd
          exact ih g _ _ (by omega) (by omega)

end Sys2Proof.Machine
end

