-- ==== Sys2Proof/Laws/Engines.lean ====
section
/-! SUPPORT. What each shared operation can do, said once: the ports, the two engines, the fetch and the step. -/

namespace Sys2Proof.Machine

/-! ### Symbols (R62, R88) -/

theorem getLsbD_byteWord (b : Byte) (i : Nat) :
    (byteWord b).getLsbD i = if i < 8 then b.getLsbD i else (0#1).getLsbD (i - 8) :=
  BitVec.getLsbD_append

theorem getLsbD_endWord (x : Byte) (i : Nat) :
    (endWord x).getLsbD i = if i < 8 then x.getLsbD i else (1#1).getLsbD (i - 8) :=
  BitVec.getLsbD_append

@[simp] theorem isEnd_byteWord (b : Byte) : isEnd (byteWord b) = false := by
  rw [isEnd, getLsbD_byteWord]; rfl

@[simp] theorem isEnd_endWord (x : Byte) : isEnd (endWord x) = true := by
  rw [isEnd, getLsbD_endWord]; rfl

@[simp] theorem dataBits_byteWord (b : Byte) : dataBits (byteWord b) = b := by
  refine BitVec.eq_of_getLsbD_eq fun i hi => ?_
  simp [dataBits, getLsbD_byteWord, hi]

@[simp] theorem dataBits_endWord (x : Byte) : dataBits (endWord x) = x := by
  refine BitVec.eq_of_getLsbD_eq fun i hi => ?_
  simp [dataBits, getLsbD_endWord, hi]

@[simp] theorem symbolOfWord_byteWord (b : Byte) : symbolOfWord (byteWord b) = .byte b := by simp [symbolOfWord]

@[simp] theorem symbolOfWord_endWord (x : Byte) : symbolOfWord (endWord x) = .endMark := by simp [symbolOfWord]

/-- What an output port drives is read back as the same symbol (R72: loopback sees what was produced). -/
@[simp] theorem symbolOfWord_wordOfSymbol (x : Symbol) : symbolOfWord (wordOfSymbol x) = x := by
  cases x <;> simp [wordOfSymbol]

@[simp] theorem leadingBytes_nil : leadingBytes [] = [] := rfl

theorem leadingBytes_byteWords (bs : List Byte) (ws : List SymWord) :
    leadingBytes (bs.map byteWord ++ ws) = bs ++ leadingBytes ws := by
  induction bs with
  | nil => rfl
  | cons b bs ih => simp [leadingBytes, ih]

/-! ### Enabling (R150, R171) -/

theorem txInEnabled_iff (t : Tx) : txInEnabled t = true ↔ t.ctl ≠ .abort ∧ t.q = [] := by
  simp [txInEnabled, bne_iff_ne, List.isEmpty_iff]

theorem rxInEnabled_iff (r : Rx) : rxInEnabled r = true ↔ ¬ r.terminal := by
  unfold rxInEnabled Rx.terminal
  cases r.ctl <;> simp

theorem rxOutPend_iff (r : Rx) : rxOutPend r = true ↔ r.ctl = .done ∧ r.rrd ≤ r.acc.length := by
  simp [rxOutPend]

/-- In loopback `TX_OUT` is taken exactly where `RX_IN` takes (R72, R262). -/
theorem txOutReady_iff (s : State) :
    txOutReady s = true ↔ (s.env.loopback = true → ¬ s.rx.terminal ∧ s.env.rxIn = []) := by
  rw [← rxInEnabled_iff, txOutReady]
  cases s.env.loopback <;> simp [List.isEmpty_iff]

/-! ### The TX engine -/

/-- The byte of a chunk is stored, counted and summed; a chunk that is full is emitted (R153, R154). -/
theorem Tx.collect_ok {epoch : Nat} {b : Byte} {t t' : Tx} (h : t.collect epoch b = .ok t') :
    t.tcnt.toNat < 255 ∧
    ((t.tcnt + 1#8 ≠ t.tcap ∧
        t' = { t with tbuf := t.tbuf.write t.tcnt.toNat b, tsum := t.tsum + zext32 b, tcnt := t.tcnt + 1#8 }) ∨
      (t.tcnt + 1#8 = t.tcap ∧
        t' = { t with
          tbuf := t.tbuf.write t.tcnt.toNat b, tsum := 0#32, tcnt := 0#8,
          q := t.q ++ ([Config.version, t.tcnt + 1#8] ++
            (t.tbuf.write t.tcnt.toNat b).bytes (tbufFree epoch) (t.tcnt + 1#8).toNat ++
            be32 (t.tsum + zext32 b)).map .byte })) := by
  unfold Tx.collect at h
  split at h
  · cases h
  · rename_i m hs
    obtain ⟨hi, rfl⟩ := Memory.store_eq_some.mp hs
    refine ⟨hi, ?_⟩
    cases h
    by_cases hc : t.tcnt + 1#8 = t.tcap
    · exact .inr ⟨hc, by simp only [hc, if_true]; rfl⟩
    · exact .inl ⟨hc, by simp only [hc, if_false]⟩

/-- `collect` stops only where `tbuf` has no such index (R24). -/
theorem Tx.collect_error {epoch : Nat} {b : Byte} {t : Tx} {f : Fault} (h : t.collect epoch b = .error f) :
    f = .tbufIndex ∧ 255 ≤ t.tcnt.toNat := by
  unfold Tx.collect at h
  split at h
  · rename_i hs
    cases h
    exact ⟨rfl, Memory.store_eq_none.mp hs⟩
  · cases h

/-- What the TX engine can do with an accepted symbol: the rows of R160. -/
theorem Tx.accept_cases (epoch : Nat) (cap : Byte) (x : Symbol) (t : Tx) :
    (t.ctl = .idle ∧ cap = 0#8 ∧ t.accept epoch cap x = .ok ({ t with tcap := cap }).abortCapZero) ∨
    (t.ctl = .idle ∧ cap ≠ 0#8 ∧ x = .endMark ∧
      t.accept epoch cap x = .ok (({ t with tcap := cap }).emptyMessage epoch)) ∨
    (t.ctl = .idle ∧ cap ≠ 0#8 ∧ ∃ b, x = .byte b ∧
      t.accept epoch cap x =
        Tx.collect epoch b { t with tcap := cap, ctl := .collect, tcnt := 0#8, tsum := 0#32 }) ∨
    (t.ctl ≠ .idle ∧ x = .endMark ∧ t.accept epoch cap x = .ok (t.endOfMessage epoch)) ∨
    (t.ctl ≠ .idle ∧ ∃ b, x = .byte b ∧ t.accept epoch cap x = t.collect epoch b) := by
  by_cases hi : t.ctl = .idle
  · by_cases hc : cap = 0#8
    · exact .inl ⟨hi, hc, by simp [Tx.accept, Tx.messageStart, hi, hc]⟩
    · cases x with
      | endMark => exact .inr (.inl ⟨hi, hc, rfl, by simp [Tx.accept, Tx.messageStart, hi, hc]⟩)
      | byte b =>
        exact .inr (.inr (.inl ⟨hi, hc, b, rfl, by simp [Tx.accept, Tx.messageStart, Tx.inMessage, hi, hc]⟩))
  · cases x with
    | endMark => exact .inr (.inr (.inr (.inl ⟨hi, rfl, by simp [Tx.accept, Tx.inMessage, hi]⟩)))
    | byte b => exact .inr (.inr (.inr (.inr ⟨hi, b, rfl, by simp [Tx.accept, Tx.inMessage, hi]⟩)))

/-- What `TxIn` can do when it answers a next state: only the TX engine changes, or only what is offered on `TX_IN`. -/
theorem txIn_next {w : SymWord} {s t : State} (h : txIn w s = .next t) :
    (txInEnabled s.tx = true ∧ ∃ x, s.tx.accept s.epoch s.cap (symbolOfWord w) = .ok x ∧ t = s.setTx x) ∨
    (txInEnabled s.tx = false ∧ t = s.holdTxIn w) := by
  unfold txIn at h
  split at h
  · rename_i he
    split at h
    · rename_i x hx
      exact .inl ⟨he, x, hx, by cases h; rfl⟩
    · cases h
  · rename_i he
    exact .inr ⟨by simpa using he, by cases h; rfl⟩

/-! ### The RX engine -/

/-- The payload byte is stored, counted and summed; after the last the checksum bytes come (R176). -/
theorem Rx.payloadByte_ok {b : Byte} {r r' : Rx} (h : r.payloadByte b = .ok r') :
    r.ridx.toNat < 255 ∧
    ((r.ridx + 1#8 ≠ r.rlen ∧
        r' = { r with rbuf := r.rbuf.write r.ridx.toNat b, rsum := r.rsum + zext32 b, ridx := r.ridx + 1#8 }) ∨
      (r.ridx + 1#8 = r.rlen ∧
        r' = { r with
          rbuf := r.rbuf.write r.ridx.toNat b, rsum := r.rsum + zext32 b, ridx := 0#8, ctl := .csum })) := by
  unfold Rx.payloadByte at h
  split at h
  · cases h
  · rename_i m hs
    obtain ⟨hi, rfl⟩ := Memory.store_eq_some.mp hs
    refine ⟨hi, ?_⟩
    cases h
    by_cases hc : r.ridx + 1#8 = r.rlen
    · exact .inr ⟨hc, by simp only [hc, if_true]⟩
    · exact .inl ⟨hc, by simp only [hc, if_false]⟩

/-- `payload_byte` stops only where `rbuf` has no such index (R29). -/
theorem Rx.payloadByte_error {b : Byte} {r : Rx} {f : Fault} (h : r.payloadByte b = .error f) :
    f = .rbufIndex ∧ 255 ≤ r.ridx.toNat := by
  unfold Rx.payloadByte at h
  split at h
  · rename_i hs
    cases h
    exact ⟨rfl, Memory.store_eq_none.mp hs⟩
  · cases h

/-- What `RxIn` can do when it answers a next state: only the RX engine changes, or only what is offered on `RX_IN`. -/
theorem rxIn_next {w : SymWord} {s t : State} (h : rxIn w s = .next t) :
    (rxInEnabled s.rx = true ∧ ∃ r, s.rx.accept s.accMax s.epoch (symbolOfWord w) = .ok r ∧ t = s.setRx r) ∨
    (rxInEnabled s.rx = false ∧ t = s.holdRxIn [w]) := by
  unfold rxIn at h
  split at h
  · rename_i he
    split at h
    · rename_i x hx
      exact .inl ⟨he, x, hx, by cases h; rfl⟩
    · cases h
  · rename_i he
    exact .inr ⟨by simpa using he, by cases h; rfl⟩

/-- One byte of wire bytes offered one after another. -/
theorem Rx.feed_cons (accMax : Option Nat) (epoch : Nat) (b : Byte) (bs : List Byte) (r : Rx) :
    r.feed accMax epoch (b :: bs) =
      if rxInEnabled r then
        match r.acceptByte accMax epoch b with
        | .ok r' => r'.feed accMax epoch bs
        | .error f => .error f
      else .ok (r, b :: bs) := rfl

/-- What wire bytes can do when they answer a next state: the RX engine changes, and the bytes it has not accepted, a
suffix, stay offered. -/
theorem rxBytes_next {bs : List Byte} {s t : State} (h : rxBytes bs s = .next t) :
    ∃ r rest, s.rx.feed s.accMax s.epoch bs = .ok (r, rest) ∧
      t = (s.setRx r).holdRxIn (rest.map byteWord) := by
  unfold rxBytes at h
  split at h
  · rename_i r rest hf
    exact ⟨r, rest, hf, by cases h; rfl⟩
  · cases h

theorem Rx.feed_suffix {accMax : Option Nat} {epoch : Nat} {bs rest : List Byte} {r r' : Rx}
    (h : r.feed accMax epoch bs = .ok (r', rest)) : rest <:+ bs := by
  induction bs generalizing r with
  | nil => cases h; exact List.suffix_refl _
  | cons b bs ih =>
    rw [Rx.feed_cons] at h
    split at h
    · split at h
      · exact (ih h).trans (List.suffix_cons b bs)
      · cases h
    · cases h
      exact List.suffix_refl _

/-! ### The functions -/

/-- A function that answers a next state has returned a value and changed nothing else (R10, R46). -/
theorem returnsOrAborts_next {r : Option Reply} {s t : State} (h : returnsOrAborts r s = .next t) :
    ∃ v, r = some v ∧ t = s.answer v := by
  unfold returnsOrAborts at h
  split at h
  · exact ⟨_, rfl, by cases h; rfl⟩
  · cases h

theorem returnsOrAborts_fault {r : Option Reply} {s : State} {f : Fault} (h : returnsOrAborts r s = .fault f) :
    r = none ∧ f = .capZero := by
  unfold returnsOrAborts at h
  split at h
  · cases h
  · exact ⟨rfl, by cases h; rfl⟩

/-! ### The step -/

/-- What the move `txOut` comes to: `TXOUT`, or in loopback nothing where `RX_IN` takes nothing. -/
theorem fetchMove_txOut (s : State) :
    fetchMove .txOut s = if txOutReady s then .run .txout s.popMove else .quiet s.popMove := rfl

/-- What the move `frame` comes to where no whole frame stands at the front of `RX_IN`. -/
theorem fetchMove_frame_error {s : State} {why : Reject} (h : decodeWire (leadingBytes s.env.rxIn) = .error why) :
    fetchMove .frame s = .quiet s.popMove := by
  simp only [fetchMove, fetchFrame, h]

/-- A step whose move finds nothing to run. -/
theorem step_quiet {s t : State} {m : Move} {ms : List Move} (hm : s.env.moves = m :: ms)
    (h : fetchMove m s = .quiet t) : step s = .next t := by
  simp only [step, fetch, hm, h]

/-- What a step can be. -/
theorem step_cases (s : State) :
    (∃ t, fetch s = .quiet t ∧ step s = .next t) ∨
    (∃ i t, fetch s = .run i t ∧ step s = exec i t) ∨
    (∃ r, fetch s = .stop r ∧ step s = .refused r) := by
  unfold step
  cases h : fetch s with
  | quiet t => exact .inl ⟨t, rfl, rfl⟩
  | run i t => exact .inr (.inl ⟨i, t, rfl, rfl⟩)
  | stop r => exact .inr (.inr ⟨r, rfl, rfl⟩)

theorem run_zero (s : State) : run 0 s = .next s := rfl

theorem run_succ {n : Nat} {s t : State} (h : step s = .next t) : run (n + 1) s = run n t := by
  simp [run, h]

theorem run_add {m n : Nat} {s t : State} (h : run m s = .next t) : run (m + n) s = run n t := by
  induction m generalizing s with
  | zero => cases h; simp
  | succ m ih =>
    rw [Nat.succ_add]
    simp only [run] at h ⊢
    split at h
    · rename_i u hu
      exact ih h
    · cases h
    · cases h

end Sys2Proof.Machine
end

