-- ==== Sys2Proof/Laws/PerInstr.lean ====
section
/-! SUPPORT. Per instruction: whatever the decoder yields is well formed (no reserved or ill-formed operand gets past it). -/

namespace Sys2Proof.Laws.DecodeGivesWf

/-- Whatever offer the decoder reads this instruction from, the instruction is well formed. -/
def Statement (i : Instr) : Prop := ∀ o, decode o = .ok i → i.wf = true

/-- What the wire decoder yields: a frame whose payload fits its length byte, or a bad version and a byte (R83, R85). -/
theorem decodeWire_cases {bytes rest : List Byte} {i : Instr} (h : decodeWire bytes = .ok (i, rest)) :
    (∃ p c, i = .frame p c ∧ p.length ≤ Config.maxPayload) ∨ (∃ v b, i = .frameBadver v b ∧ v ≠ Config.version) := by
  unfold decodeWire at h
  split at h
  · cases h
  · cases h
  · rename_i v l tail
    split at h
    · split at h
      · cases h
      · cases h
        refine .inl ⟨_, _, rfl, ?_⟩
        have := l.isLt
        simp only [List.length_take, Config.maxPayload]
        omega
    · cases h
      exact .inr ⟨_, _, rfl, by assumption⟩

/-- Every instruction the decoder yields is well formed. -/
theorem all {o : Offer} {i : Instr} (h : decode o = .ok i) : i.wf = true := by
  cases o with
  | wire bytes =>
    simp only [decode] at h
    cases hd : decodeWire bytes with
    | error e => rw [hd] at h; cases h
    | ok ir =>
      rw [hd] at h
      obtain ⟨j, rest⟩ := ir
      cases h
      obtain ⟨p, c, rfl, hp⟩ | ⟨v, b, rfl, hv⟩ := decodeWire_cases hd
      · simpa [Instr.wf] using hp
      · simpa [Instr.wf, bne_iff_ne] using hv
  | txIn w =>
    simp only [decode, decodeTxSymbol, Except.ok.injEq] at h
    split at h <;> (subst h; rfl)
  | rxIn w =>
    simp only [decode, decodeRxSymbol, Except.ok.injEq] at h
    split at h <;> (subst h; rfl)
  | txOut => cases h; rfl
  | rxOut => cases h; rfl
  | csrRead n => cases h; rfl
  | csrWrite n v =>
    simp only [decode, decodeCsrWrite, Except.ok.injEq] at h
    split at h
    · rename_i hv
      subst h
      simp only [Bool.and_eq_true] at hv
      simpa [Instr.wf] using hv.2
    · rename_i hv
      subst h
      simp only [Instr.wf, eq_false_of_ne_true hv, Bool.not_false]
  | reset => cases h; rfl
  | call c =>
    cases c with
    | serialize p =>
      simp only [decode, decodeCall] at h
      split at h
      · cases h
        assumption
      · cases h
    | fromSource m c => simp only [decode, decodeCall, decodeCapacity] at h; split at h <;> cases h; rfl
    | toPackets m c => simp only [decode, decodeCall, decodeCapacity] at h; split at h <;> cases h; rfl
    | toPacketData m c => simp only [decode, decodeCall, decodeCapacity] at h; split at h <;> cases h; rfl
    | checksum p => cases h; rfl
    | deserialize b => cases h; rfl
    | fromPacketData b => cases h; rfl

theorem frame (payload : List Byte) (checksum : Word) : Statement (.frame payload checksum) := fun _ => all
theorem frameBadver (version byte1 : Byte) : Statement (.frameBadver version byte1) := fun _ => all
theorem txinB (d : Byte) : Statement (.txinB d) := fun _ => all
theorem txinE (x : Byte) : Statement (.txinE x) := fun _ => all
theorem rxinB (d : Byte) : Statement (.rxinB d) := fun _ => all
theorem rxinE (x : Byte) : Statement (.rxinE x) := fun _ => all
theorem txout : Statement .txout := fun _ => all
theorem rxout : Statement .rxout := fun _ => all
theorem csrr (n : Nat) : Statement (.csrr n) := fun _ => all
theorem csrw (n : Nat) (v : Word) : Statement (.csrw n v) := fun _ => all
theorem rxclr (v : Word) : Statement (.rxclr v) := fun _ => all
theorem reset : Statement .reset := fun _ => all
theorem checksum (payload : List Byte) : Statement (.checksum payload) := fun _ => all
theorem fromSource (source : List Byte) (capacity : Byte) : Statement (.fromSource source capacity) := fun _ => all
theorem serialize (packet : Packet) : Statement (.serialize packet) := fun _ => all
theorem deserialize (bytes : List Byte) : Statement (.deserialize bytes) := fun _ => all
theorem toPackets (message : List Byte) (capacity : Byte) : Statement (.toPackets message capacity) := fun _ => all
theorem toPacketData (message : List Byte) (capacity : Byte) : Statement (.toPacketData message capacity) :=
  fun _ => all
theorem fromPacketData (bytes : List Byte) : Statement (.fromPacketData bytes) := fun _ => all

end Sys2Proof.Laws.DecodeGivesWf
end

