-- ==== Sys2Proof/Tests/Slice0.lean ====
section
/-! SUPPORT. The session's own tests: each check of WellFormed with a term it refuses, a word written out from the spec's
encodings for every constructor, one step of every instruction with the result spec/95_test_vectors.md gives, and a
witness for the hypotheses of every statement. -/

namespace Sys2Proof.Tests

open Sys2Proof Sys2Proof.Machine

/-- The state after an operation that answers a next state. -/
def next? (o : Out) : Option State :=
  match o with
  | .next t => some t
  | .fault _ => none
  | .refused _ => none

/-- `hello` framed as `"he"` (95 T6): 01 02 68 65 00 00 00 CD. -/
def heFrame : List Byte := [0x01#8, 0x02#8, 0x68#8, 0x65#8, 0x00#8, 0x00#8, 0x00#8, 0xCD#8]

/-- After `RESET`, `CSRW CAP, c`. -/
def capped (c : Byte) : State := { State.reset with cap := c }

/-- After `RESET`, `CSRW CAP, 2`, `TXIN 68` (95 section 2.8). -/
def collecting : State :=
  { capped 2#8 with tx :=
    { ctl := .collect, tcap := 2#8, tcnt := 1#8, tsum := 0x68#32, tbuf := [(0, 0x68#8)], q := [] } }

/-- After `RESET`, `TXIN 68` (95 P7). -/
def txAborted : State := { State.reset with tx := { Tx.reset with ctl := .abort } }

/-- The RX engine after `RESET` in another control state. -/
def rxIs (r : Rx) : State := { State.reset with rx := r }

/-- After `RXIN 01`, `RXIN 02`, `RXIN 68` (95 P2). -/
def inPayload : Rx :=
  { Rx.reset with ctl := .payload, rver := 1#8, rlen := 2#8, ridx := 1#8, rsum := 0x68#32, rbuf := [(0, 0x68#8)], roff := 3#32 }

/-- After the payload and three checksum bytes (95 P2). -/
def atFourth : Rx :=
  { Rx.reset with ctl := .csum, rver := 1#8, rlen := 2#8, ridx := 3#8, rsum := 0xCD#32, rbuf := [(0, 0x68#8), (1, 0x65#8)], roff := 7#32 }

/-- `RXS_DONE` with the message "hi" (95 section 2.10). -/
def doneHi : Rx := { Rx.reset with ctl := .done, acc := [0x68#8, 0x69#8] }

/-- `RXS_FAILED` with `rerr = 2`, `roff = 16`, `rfoff = 8` (95 section 2.10). -/
def failed2 : Rx := { Rx.reset with ctl := .failed, rerr := some .invalidChecksum, roff := 16#32, rfoff := 8#32, acc := [0x68#8, 0x65#8] }

/-- A state whose host makes this move. -/
def moving (m : Move) (s : State) : State := { s with env := { s.env with moves := [m] } }

/-- A state whose host offers these symbols on `TX_IN` and makes this move. -/
def withTxIn (ws : List SymWord) (m : Move) : State := { State.reset with env := { Env.quiet with txIn := ws, moves := [m] } }

/-- A state whose host offers these symbols on `RX_IN` and makes this move. -/
def withRxIn (ws : List SymWord) (m : Move) : State := { State.reset with env := { Env.quiet with rxIn := ws, moves := [m] } }

/-- Four fields that break the invariant of R100. -/
def noPacket : Packet := { version := 1#8, length := 2#8, payload := [0x68#8], checksum := 0x68#32 }

/-- A host in loopback whose RX engine has failed, with a symbol on `tx_q` (R262), making these moves. -/
def deadlocked (ms : List Move) : State :=
  { State.reset with
    tx := { Tx.reset with q := [.endMark] }, rx := failed2, env := { Env.quiet with loopback := true, moves := ms } }

/-! ### WellFormed refuses -/

theorem test_wf_frame_payload_256 : (Instr.frame (List.replicate 256 0#8) 0#32).wf = false := by
  simp only [Instr.wf, List.length_replicate]; decide
theorem test_wf_frame_payload_255 : (Instr.frame (List.replicate 255 0#8) 0#32).wf = true := by
  simp only [Instr.wf, List.length_replicate]; decide
theorem test_wf_badver_one : (Instr.frameBadver 1#8 0#8).wf = false := by decide
theorem test_wf_csrw_is_rxclr : (Instr.csrw 1 1#32).wf = false := by decide
theorem test_wf_rxclr_bit_clear : (Instr.rxclr 2#32).wf = false := by decide
theorem test_wf_serialize_length : (Instr.serialize noPacket).wf = false := by decide
theorem test_wf_serialize_version : (Instr.serialize { packetOf [0x68#8] with version := 2#8 }).wf = false := by decide
theorem test_wf_serialize_checksum : (Instr.serialize { packetOf [0x68#8] with checksum := 0#32 }).wf = false := by decide

/-! ### A word for every constructor -/

theorem test_decode_frame : decode (.wire heFrame) = .ok (.frame [0x68#8, 0x65#8] 0xCD#32) := by decide
theorem test_decode_frame_badver : decode (.wire [0x02#8, 0x05#8]) = .ok (.frameBadver 0x02#8 0x05#8) := by decide
theorem test_decode_txin_b : decode (.txIn 0b001101000#9) = .ok (.txinB 0x68#8) := by decide
theorem test_decode_txin_e : decode (.txIn 0b101010101#9) = .ok (.txinE 0x55#8) := by decide
theorem test_decode_rxin_b : decode (.rxIn 0b011001101#9) = .ok (.rxinB 0xCD#8) := by decide
theorem test_decode_rxin_e : decode (.rxIn 0b100000000#9) = .ok (.rxinE 0x00#8) := by decide
theorem test_decode_txout : decode .txOut = .ok .txout := by decide
theorem test_decode_rxout : decode .rxOut = .ok .rxout := by decide
theorem test_decode_csrr : decode (.csrRead 3) = .ok (.csrr 3) := by decide
theorem test_decode_csrw : decode (.csrWrite 1 0xFFFFFFFE#32) = .ok (.csrw 1 0xFFFFFFFE#32) := by decide
theorem test_decode_rxclr : decode (.csrWrite 1 0xFFFFFFFF#32) = .ok (.rxclr 0xFFFFFFFF#32) := by decide
theorem test_decode_reset : decode .reset = .ok .reset := by decide
theorem test_decode_checksum : decode (.call (.checksum [0x68#8])) = .ok (.checksum [0x68#8]) := by decide
theorem test_decode_fromSource : decode (.call (.fromSource [] 255)) = .ok (.fromSource [] 255#8) := by decide
theorem test_decode_serialize : decode (.call (.serialize (packetOf [0x6F#8]))) = .ok (.serialize (packetOf [0x6F#8])) := by decide
theorem test_decode_deserialize : decode (.call (.deserialize [0x01#8])) = .ok (.deserialize [0x01#8]) := by decide
theorem test_decode_toPackets : decode (.call (.toPackets [] 7)) = .ok (.toPackets [] 7#8) := by decide
theorem test_decode_toPacketData : decode (.call (.toPacketData [] 0)) = .ok (.toPacketData [] 0#8) := by decide
theorem test_decode_fromPacketData : decode (.call (.fromPacketData [])) = .ok (.fromPacketData []) := by decide
theorem test_decode_cut_frame : decode (.wire [0x01#8, 0xFF#8, 0x00#8]) = .error .frameCut := by decide
theorem test_decode_lone_byte : decode (.wire [0x02#8]) = .error .headerUnreadable := by decide
theorem test_decode_capacity_256 : decode (.call (.toPackets [] 256)) = .error .capacityAbove255 := by decide
theorem test_table_word_frame : decodeTableWord 8 0x01 = some (.frame [] 0#32) := by decide
theorem test_table_word_badver : decodeTableWord 8 0x00 = some (.frameBadver 0#8 0#8) := by decide
theorem test_table_word_txin : decodeTableWord 16 0x168 = some (.txinE 0x68#8) := by decide

/-! ### One step of every instruction (95 sections 2.1 to 2.10) -/

theorem test_txin_b_stores : (next? (exec (.txinB 0x68#8) (capped 2#8))).map (·.tx) = some collecting.tx := by decide
theorem test_txin_b_fills :
    (next? (exec (.txinB 0x65#8) collecting)).map (·.tx.q) = some (heFrame.map .byte) := by decide
theorem test_txin_e_empty :
    (next? (exec (.txinE 0#8) (capped 7#8))).map (fun t => (t.tx.q, csrValue 2 t)) =
      some ([0x01#8, 0#8, 0#8, 0#8, 0#8, 0#8].map .byte ++ [.endMark], 0x00070004#32) := by decide
theorem test_txin_e_capacity_zero :
    (next? (exec (.txinE 0#8) State.reset)).map (csrValue 2) = some 0x00000002#32 := by decide
theorem test_rxin_b_fourth_matches :
    (next? (exec (.rxinB 0xCD#8) (rxIs atFourth))).map (fun t => (t.rx.ctl, t.rx.acc, t.rx.ridx)) =
      some (.acc, [0x68#8, 0x65#8], 0#8) := by decide
theorem test_rxin_b_fourth_differs :
    (next? (exec (.rxinB 0xCE#8) (rxIs atFourth))).map (fun t => (t.rx.acc, t.rx.ridx, csrValue 3 t)) =
      some ([], 4#8, 0x026#32) := by decide
theorem test_rxin_e_inside_frame :
    (next? (exec (.rxinE 0#8) (rxIs inPayload))).map (fun t => (csrValue 3 t, csrValue 5 t)) = some (0x016#32, 3#32) := by
  decide
theorem test_rxin_e_bad_text :
    (next? (exec (.rxinE 0#8) (rxIs { Rx.reset with ctl := .acc, acc := [0x80#8] }))).map (csrValue 3) = some 0x046#32 := by
  decide
theorem test_frame_commits :
    (next? (exec (.frame [0x68#8, 0x65#8] 0xCD#32) State.reset)).map (fun t => (t.rx.acc, csrValue 3 t, csrValue 5 t)) =
      some ([0x68#8, 0x65#8], 0x004#32, 8#32) := by decide
theorem test_frame_overflow :
    (next? (exec (.frame [0x68#8, 0x65#8] 0xCD#32) { State.reset with accMax := some 1 })).map
      (fun t => (t.rx.acc, csrValue 3 t)) = some ([], 0x007#32) := by decide
theorem test_frame_badver :
    (next? (exec (.frameBadver 0xFF#8 5#8) State.reset)).map (fun t => (csrValue 3 t, csrValue 5 t, csrValue 6 t, t.rx.rlen)) =
      some (0x036#32, 2#32, 0#32, 0#8) := by decide
theorem test_txout_loopback :
    (next? (exec .txout { State.reset with
        tx := { Tx.reset with q := [.byte 0x01#8, .endMark] }, env := { Env.quiet with loopback := true } })).map
      (fun t => (t.tx.q, t.env.txGot, t.env.rxIn)) = some ([.endMark], [.byte 0x01#8], [0b000000001#9]) := by decide
theorem test_txout_loopback_deadlock :
    (next? (step (deadlocked [.txOut]))).map (fun t => (t.tx.q, t.env.txGot, t.env.rxIn)) = some ([.endMark], [], []) := by decide
theorem test_rxout_second :
    (next? (exec .rxout (rxIs { doneHi with rrd := 1 }))).map (fun t => (t.env.rxGot, t.rx.rrd)) =
      some ([.byte 0x69#8], 2) := by decide
theorem test_rxout_end :
    (next? (exec .rxout (rxIs { doneHi with rrd := 2 }))).map (fun t => (t.env.rxGot, csrValue 3 t, csrValue 4 t)) =
      some ([.endMark], 0x005#32, 2#32) := by decide
theorem test_csrr_hidden_length :
    (next? (exec (.csrr 4) (rxIs failed2))).map (·.env.reply) = some (some (.csr 0#32)) := by decide
theorem test_csrw_cap_low_byte : (next? (exec (.csrw 0 0x1FF#32) State.reset)).map (csrValue 0) = some 0xFF#32 := by decide
theorem test_rxclr_after_error :
    (next? (exec (.rxclr 1#32) (rxIs failed2))).map (fun t => (csrValue 3 t, csrValue 5 t, csrValue 6 t, t.rx.acc)) =
      some (0#32, 0#32, 0#32, []) := by decide
theorem test_reset_leaves_abort : (next? (exec .reset txAborted)).map (fun t => (t.tx, t.rx)) = some (Tx.reset, Rx.reset) := by decide
theorem test_checksum_hello :
    (next? (exec (.checksum [0x68#8, 0x65#8, 0x6C#8, 0x6C#8, 0x6F#8]) State.reset)).map (·.env.reply) =
      some (some (.checksum 0x214#32)) := by decide
theorem test_fromSource_llo :
    (next? (exec (.fromSource [0x6C#8, 0x6C#8, 0x6F#8] 2#8) State.reset)).map (·.env.reply) =
      some (some (.chunk ⟨1#8, 2#8, [0x6C#8, 0x6C#8], 216#32⟩ [0x6F#8])) := by decide
theorem test_serialize_he :
    (next? (exec (.serialize ⟨1#8, 2#8, [0x68#8, 0x65#8], 205#32⟩) State.reset)).map (·.env.reply) =
      some (some (.bytes heFrame)) := by decide
theorem test_deserialize_suffix :
    (next? (exec (.deserialize (heFrame ++ [0x01#8])) State.reset)).map (·.env.reply) =
      some (some (.parsed (.ok (⟨1#8, 2#8, [0x68#8, 0x65#8], 205#32⟩, [0x01#8])))) := by decide
theorem test_deserialize_high_byte :
    (next? (exec (.deserialize [1#8, 1#8, 0x61#8, 1#8, 0#8, 0#8, 0x61#8]) State.reset)).map (·.env.reply) =
      some (some (.parsed (.err .invalidChecksum))) := by decide
theorem test_toPackets_multiple :
    (next? (exec (.toPackets [0x61#8, 0x62#8] 2#8) State.reset)).map (·.env.reply) =
      some (some (.packets [⟨1#8, 2#8, [0x61#8, 0x62#8], 0xC3#32⟩])) := by decide
theorem test_toPacketData_ab :
    (next? (exec (.toPacketData [0x61#8, 0x62#8] 1#8) State.reset)).map (·.env.reply) =
      some (some (.bytes [1#8, 1#8, 0x61#8, 0#8, 0#8, 0#8, 0x61#8, 1#8, 1#8, 0x62#8, 0#8, 0#8, 0#8, 0x62#8])) := by decide
theorem test_fromPacketData_frame_error_wins :
    (next? (exec (.fromPacketData [1#8, 1#8, 0x80#8, 0#8, 0#8, 0#8, 0x80#8, 1#8]) State.reset)).map (·.env.reply) =
      some (some (.message (.err .invalidPacket))) := by decide
theorem test_fromPacketData_split_character :
    (next? (exec (.fromPacketData
        [1#8, 1#8, 0xC3#8, 0#8, 0#8, 0#8, 0xC3#8, 1#8, 1#8, 0xA9#8, 0#8, 0#8, 0#8, 0xA9#8]) State.reset)).map (·.env.reply) =
      some (some (.message (.ok [0xC3#8, 0xA9#8]))) := by decide
theorem test_utf8_surrogate_refused : msgValid [0xED#8, 0xA0#8, 0x80#8] = false := by decide
theorem test_utf8_last_code_point : msgValid [0xF4#8, 0x8F#8, 0xBF#8, 0xBF#8] = true := by decide
theorem test_withFetchWord_frame : next? (step (State.reset.withFetchWord 8 0x01)) = next? (exec (.frame [] 0#32) State.reset) := by
  decide

/-! ### Witnesses for the hypotheses of the statements -/

theorem witness_DecodeOfEncodeIsTheInstruction :
    (Instr.frame [0x68#8] 0x68#32).wf = true ∧
    encode (.frame [0x68#8] 0x68#32) = .wire [1#8, 1#8, 0x68#8, 0#8, 0#8, 0#8, 0x68#8] := by decide
theorem witness_DecodedWireBytesAreTheEncoding :
    decodeWire (heFrame ++ [0x01#8]) = .ok (.frame [0x68#8, 0x65#8] 0xCD#32, [0x01#8]) := by decide
theorem witness_FrameSizeIsSixPlusLength :
    (List.replicate 258 (0#8 : Byte)).length + 2 < 6 + (255#8 : Byte).toNat ∧
    6 + (255#8 : Byte).toNat ≤ (List.replicate 259 (0#8 : Byte)).length + 2 := by
  simp only [List.length_replicate]; decide
theorem witness_StepRunsTheDecodedInstruction_ports :
    (withTxIn [0x068#9] .txIn).env.moves = .txIn :: [] ∧ decode (.txIn 0x068#9) = .ok (.txinB 0x68#8) ∧
    (withRxIn [0x1FF#9] .rxIn).env.moves = .rxIn :: [] ∧ decode (.rxIn 0x1FF#9) = .ok (.rxinE 0xFF#8) ∧
    (withRxIn (heFrame.map byteWord ++ [0x100#9]) .frame).env.moves = .frame :: [] ∧
    decodeWire heFrame = .ok (.frame [0x68#8, 0x65#8] 0xCD#32, []) ∧
    (withTxIn [] .txIn).env.txIn = [] ∧ (withRxIn [] .rxIn).env.rxIn = [] ∧ State.reset.env.moves = [] := by decide
theorem witness_StepRunsTheDecodedInstruction_quiet :
    (withRxIn [0x001#9] .frame).env.moves = .frame :: [] ∧
    decodeWire (leadingBytes (withRxIn [0x001#9] .frame).env.rxIn) = .error .headerUnreadable ∧
    decodeWire (leadingBytes (withRxIn [] .frame).env.rxIn) = .error .noByte ∧
    (deadlocked [.txOut]).env.moves = .txOut :: [] ∧ (deadlocked [.txOut]).env.loopback = true ∧
    (deadlocked [.txOut]).rx.terminal ∧ (withRxIn [0x001#9] .txOut).env.rxIn ≠ [] ∧
    (moving (.offerTx [0x068#9]) State.reset).env.moves = .offerTx [0x068#9] :: [] ∧
    (moving (.offerRx []) State.reset).env.moves = .offerRx [] :: [] ∧
    (withTxIn [0x068#9] (.withdrawTx 1)).env.moves = .withdrawTx 1 :: [] ∧
    (withRxIn [0x068#9] (.withdrawRx 9)).env.moves = .withdrawRx 9 :: [] := by decide
theorem witness_StepRunsTheDecodedInstruction_labels :
    decode .txOut = .ok .txout ∧ decode .rxOut = .ok .rxout ∧ decode .reset = .ok .reset ∧
    decode (.csrRead 0) = .ok (.csrr 0) ∧ decode (.csrWrite 1 0#32) = .ok (.csrw 1 0#32) ∧
    decode (.call (.toPackets [] 255)) = .ok (.toPackets [] 255#8) ∧
    (moving .txOut State.reset).env.moves = .txOut :: [] ∧ State.reset.env.loopback = false ∧ (moving .rxOut State.reset).env.moves = .rxOut :: [] ∧
    (moving .reset State.reset).env.moves = .reset :: [] ∧
    (moving (.csrRead 0) State.reset).env.moves = .csrRead 0 :: [] ∧
    (moving (.csrWrite 1 0#32) State.reset).env.moves = .csrWrite 1 0#32 :: [] ∧
    (moving (.call (.toPackets [] 255)) State.reset).env.moves = .call (.toPackets [] 255) :: [] := by decide
theorem witness_PlacedTableWordRunsNext : decodeTableWord 9 0x1FF = some (.txinE 0xFF#8) := by decide
theorem witness_OnlyInexpressibleCallsAreRefused_capacity :
    255 < 256 ∧ (moving (.call (.fromSource [] 256)) State.reset).env.moves = .call (.fromSource [] 256) :: [] ∧
    (moving (.call (.toPackets [] 256)) State.reset).env.moves = .call (.toPackets [] 256) :: [] ∧
    (moving (.call (.toPacketData [] 256)) State.reset).env.moves = .call (.toPacketData [] 256) :: [] := by decide
theorem witness_OnlyInexpressibleCallsAreRefused_packet :
    noPacket.wf = false ∧ (moving (.call (.serialize noPacket)) State.reset).env.moves = .call (.serialize noPacket) :: [] := by
  decide
theorem witness_OnlyInexpressibleCallsAreRefused_refused :
    step (moving (.call (.serialize noPacket)) State.reset) = .refused (.rejected .notAPacket) := rfl
theorem witness_OnlyResetLeavesAnAbortState_tx :
    next? (exec (.csrw 0 2#32) txAborted) = some { txAborted with cap := 2#8 } ∧ Instr.csrw 0 2#32 ≠ .reset ∧
    txAborted.tx.ctl = .abort ∧ txAborted.tx.q = [] := by decide
theorem witness_OnlyResetLeavesAnAbortState_rx :
    next? (exec (.rxclr 1#32) (rxIs { Rx.reset with ctl := .abort })) = some (rxIs { Rx.reset with ctl := .abort }) := by decide
theorem witness_ZeroCapacityAbortsTheFramer :
    State.reset.tx.ctl = .idle ∧ State.reset.tx.q = [] ∧ State.reset.cap = 0#8 := by decide
theorem witness_FirstByteLatchesCapacityAndStartsChunk :
    (capped 1#8).tx.ctl = .idle ∧ (capped 1#8).tx.q = [] ∧ (capped 1#8).cap ≠ 0#8 ∧ (capped 255#8).cap ≠ 1#8 := by decide
theorem witness_ByteInsideChunkIsStoredAndSummed :
    let s := { collecting with tx := { collecting.tx with tcap := 255#8 } }
    s.tx.ctl = .collect ∧ s.tx.q = [] ∧ s.tx.tcnt.toNat < 255 ∧ s.tx.tcnt + 1#8 ≠ s.tx.tcap := by decide
theorem witness_FullChunkEmitsItsFrame :
    collecting.tx.Inv collecting.epoch ∧ collecting.tx.ctl = .collect ∧ collecting.tx.q = [] ∧
    collecting.tx.tcnt + 1#8 = collecting.tx.tcap := by decide
theorem witness_EndFlushesTheLastChunk :
    (collecting.tx.Inv collecting.epoch ∧ collecting.tx.ctl = .collect ∧ collecting.tx.q = [] ∧ collecting.tx.tcnt ≠ 0#8) ∧
    ({ collecting.tx with tcnt := 0#8, tsum := 0#32 } : Tx).Inv collecting.epoch := by decide
theorem witness_EmptyMessageGivesOneEmptyFrame :
    (capped 7#8).tx.Inv 0 ∧ (capped 7#8).tx.ctl = .idle ∧ (capped 7#8).tx.q = [] ∧ (capped 7#8).cap ≠ 0#8 := by decide
theorem witness_TxSymbolStaysOfferedWhenNotEnabled :
    (moving .txIn txAborted).tx.ctl = .abort ∧ (moving .txIn txAborted).env.moves = .txIn :: [] ∧
    ({ capped 2#8 with tx := { Tx.reset with q := [.endMark] } } : State).tx.q ≠ [] := by decide
theorem witness_TxoutTakesTheHeadOfTheQueue :
    ({ capped 2#8 with tx := { Tx.reset with q := [.endMark] } } : State).tx.q = .endMark :: [] ∧ State.reset.tx.q = [] := by decide
theorem witness_TxOutputIsFirstInFirstOut :
    (next? (exec (.txinB 0x65#8) collecting)).isSome = true ∧ Instr.txinB 0x65#8 ≠ .reset := by decide
/-- A host that offers the message 68 and takes all output. -/
def framing (c : Byte) (ms : List Move) : State :=
  { capped c with env := { Env.quiet with txIn := offered [0x68#8] 0#8, moves := ms } }
theorem witness_FramerRefinesToPacketData :
    (framing 0#8 []).tx.Inv 0 ∧ (framing 0#8 []).tx.ctl = .idle ∧ (framing 0#8 []).tx.q = [] ∧ (framing 0#8 []).cap = 0#8 ∧
    (framing 1#8 []).cap ≠ 0#8 ∧ (framing 255#8 []).cap ≠ 0#8 ∧ (framing 255#8 []).tx = (framing 0#8 []).tx := by decide
theorem witness_FramerRefinesToPacketData_ports :
    (framing 1#8 (drainSchedule 2)).env.txIn = offered [0x68#8] 0#8 ∧ (framing 1#8 (drainSchedule 2)).env.loopback = false ∧
    (framing 1#8 (drainSchedule 2)).env.moves = drainSchedule ([0x68#8].length + 1) := ⟨rfl, rfl, rfl⟩
theorem witness_WireStreamIndependentOfSchedule :
    (framing 1#8 [.txOut, .txIn, .txIn]).tx.Inv 0 ∧ (framing 1#8 [.txOut, .txIn, .txIn]).cap ≠ 0#8 ∧
    (framing 1#8 [.txOut, .txIn, .txIn]).env.txIn = offered [0x68#8] 0#8 ∧
    ∀ mv ∈ (framing 1#8 [.txOut, .txIn, .txIn]).env.moves, mv = .txIn ∨ mv = .txOut := by decide
theorem witness_VersionByteStartsAFrame :
    State.reset.rx.atBoundary ∧ (rxIs { Rx.reset with ctl := .acc }).rx.atBoundary := by decide
theorem witness_LengthByteJudgesTheVersion :
    (rxIs { Rx.reset with ctl := .len, rver := 1#8 }).rx.ctl = .len ∧
    (rxIs { Rx.reset with ctl := .len, rver := 2#8 }).rx.rver ≠ 1#8 := by decide
theorem witness_PayloadByteIsStoredAndSummed :
    inPayload.ctl = .payload ∧ inPayload.ridx.toNat < 255 ∧ inPayload.ridx + 1#8 = inPayload.rlen ∧
    ({ inPayload with rlen := 255#8 } : Rx).ridx + 1#8 ≠ 255#8 := by decide
theorem witness_ChecksumBytesDecideAtTheFourth :
    atFourth.ctl = .csum ∧ atFourth.ridx = 3#8 ∧ ({ atFourth with ridx := 2#8 } : Rx).ridx ≠ 3#8 ∧
    atFourth.rcsum.extractLsb' 0 24 ++ 0xCD#8 = atFourth.rsum ∧ atFourth.rcsum.extractLsb' 0 24 ++ 0xCE#8 ≠ atFourth.rsum ∧
    atFourth.acc.length + atFourth.rlen.toNat ≤ 2 ∧ 1 < atFourth.acc.length + atFourth.rlen.toNat := by decide
theorem witness_EndOfStreamVerdict :
    State.reset.rx.atBoundary ∧ msgValid State.reset.rx.acc = true ∧
    (rxIs { Rx.reset with ctl := .acc, acc := [0x80#8] }).rx.atBoundary ∧ msgValid [0x80#8] = false ∧
    (rxIs inPayload).rx.ctl = .payload := by decide
theorem witness_TerminalStatesAcceptNothing :
    doneHi.terminal ∧ failed2.terminal ∧ (moving .frame (rxIs failed2)).env.moves = .frame :: [] ∧
    (moving .rxIn (rxIs failed2)).env.moves = .rxIn :: [] := by decide
theorem witness_TerminalStatesAcceptNothing_deadlock :
    (deadlocked [.txOut, .txIn, .rxIn, .frame]).rx.terminal ∧ (deadlocked [.txOut, .txIn, .rxIn, .frame]).tx.q ≠ [] ∧
    (deadlocked [.txOut, .txIn, .rxIn, .frame]).env.loopback = true ∧
    ∀ m ∈ (deadlocked [.txOut, .txIn, .rxIn, .frame]).env.moves, m = .txIn ∨ m = .txOut ∨ m = .rxIn ∨ m = .frame := by decide
theorem witness_RxoutGivesTheMessageOnlyWhenDone :
    doneHi.ctl = .done ∧ doneHi.acc[doneHi.rrd]? = some 0x68#8 ∧
    ({ doneHi with rrd := 2 } : Rx).rrd = doneHi.acc.length ∧ doneHi.acc.length < ({ doneHi with rrd := 3 } : Rx).rrd ∧
    failed2.ctl ≠ .done := by decide
theorem witness_ReadOutGivesTheWholeMessage :
    let s := { rxIs doneHi with env := { Env.quiet with moves := [.rxOut, .rxOut, .rxOut] } }
    s.rx.ctl = .done ∧ s.rx.rrd = 0 ∧ s.env.moves = List.replicate (s.rx.acc.length + 1) .rxOut := by decide
theorem witness_FrameAtBoundary :
    State.reset.rx.atBoundary ∧ [0x68#8, 0x65#8].length ≤ 255 ∧ 0xCD#32 = checksum [0x68#8, 0x65#8] ∧
    0xCE#32 ≠ checksum [0x68#8, 0x65#8] ∧ 0#32 = checksum [] := by decide
theorem witness_FrameAtBoundary_room :
    (∀ m, (some 2 : Option Nat) = some m → ([] : List Byte).length + [0x68#8, 0x65#8].length ≤ m) ∧
    (∃ m, (some 1 : Option Nat) = some m ∧ m < ([] : List Byte).length + [0x68#8, 0x65#8].length) :=
  ⟨fun m h => by cases h; decide, 1, rfl, by decide⟩
theorem witness_BadVersionAtBoundaryFails : State.reset.rx.atBoundary ∧ 0x00#8 ≠ 1#8 ∧ 0xFF#8 ≠ 1#8 := by decide
theorem witness_OnlyClearsLeaveFailedOrDone :
    (next? (exec (.rxinB 1#8) (rxIs failed2))).isSome = true ∧ (next? (exec .rxout (rxIs doneHi))).isSome = true ∧
    clearsRx (.rxinB 1#8) = false ∧ clearsRx .rxout = false ∧ failed2.ctl = .failed ∧ doneHi.ctl = .done := by decide
theorem witness_AccumulatorIsAppendOnly :
    (next? (exec (.rxinB 0xCD#8) (rxIs atFourth))).isSome = true ∧ clearsRx (.rxinB 0xCD#8) = false := by decide
/-- A host that offers a wire stream and `End` on `RX_IN`. -/
def reassembling (w : List Byte) : State :=
  { State.reset with env := { Env.quiet with rxIn := offered w 0#8, moves := List.replicate (w.length + 1) .rxIn } }
theorem witness_ReassemblerRefinesFromPacketData :
    (reassembling heFrame).rx.ctl = .idle ∧ (reassembling heFrame).rx.acc = [] ∧ (reassembling heFrame).rx.rerr = none ∧
    (reassembling heFrame).env.rxIn = offered heFrame 0#8 ∧
    (reassembling heFrame).env.moves = List.replicate (heFrame.length + 1) .rxIn ∧
    (goodPayloads heFrame.length heFrame).length ≤ 2 := by decide
theorem witness_ReassemblerRefinesFromPacketData_unbounded :
    ∀ m, (reassembling heFrame).accMax = some m → (goodPayloads heFrame.length heFrame).length ≤ m :=
  fun _ h => by cases h
/-- A host in loopback that offers the message 68. -/
def looping : State :=
  { capped 1#8 with env := { Env.quiet with loopback := true, txIn := offered [0x68#8] 0#8, moves := loopSchedule 2 } }
theorem witness_LoopbackReturnsTheMessage :
    looping.tx.ctl = .idle ∧ looping.tx.q = [] ∧ looping.cap ≠ 0#8 ∧ looping.rx.ctl = .idle ∧
    looping.rx.acc = [] ∧ looping.env.loopback = true ∧ looping.env.txIn = offered [0x68#8] 0#8 ∧ looping.env.rxIn = [] ∧
    msgValid [0x68#8] = true ∧ msgValid [0x80#8] = false := by decide
theorem witness_LoopbackReturnsTheMessage_schedule :
    looping.env.moves = loopSchedule ([0x68#8].length + 1) ∧
    (∀ k, looping.accMax = some k → [0x68#8].length ≤ k) ∧ run 0 looping = .next looping :=
  ⟨rfl, fun _ h => (by cases h), rfl⟩
theorem witness_LoopbackReturnsTheMessage_inv : looping.Inv := ⟨by decide, by decide⟩
theorem witness_CsrReadReturnsTheFields : doneHi.ctl = .done ∧ failed2.ctl ≠ .done ∧ 7 ≤ 7 ∧ 7 ≤ 100 := by decide
theorem witness_CsrWriteEffects : (0xFFFFFFFE#32).getLsbD 0 = false ∧ (1#32).getLsbD 0 = true ∧ 2 ≤ 2 ∧ 2 ≤ 9 := by decide
theorem witness_RxclrClearsTheReassembler :
    (rxIs { Rx.reset with ctl := .abort }).rx.ctl = .abort ∧ (rxIs inPayload).rx.ctl ≠ .abort := by decide
theorem witness_HiddenStateIsNotHostReadable :
    let s := rxIs failed2
    let s' := rxIs { failed2 with acc := [], rver := 9#8, rsum := 5#32 }
    s.rx.ctl ≠ .done ∧ s'.cap = s.cap ∧ s'.tx = s.tx ∧ s'.rx.ctl = s.rx.ctl ∧ s'.rx.rerr = s.rx.rerr ∧
    s'.rx.roff = s.rx.roff ∧ s'.rx.rfoff = s.rx.rfoff ∧ s'.env = s.env := by decide
theorem witness_HiddenStateIsNotHostReadable_done :
    let s := rxIs { doneHi with rrd := 1 }
    let s' : State := { rxIs { doneHi with rrd := 1, rver := 9#8, rlen := 7#8, rbuf := [(0, 1#8)] } with
      tx := { Tx.reset with tsum := 3#32, tbuf := [(4, 1#8)] } }
    s.rx.ctl = .done ∧ s'.rx.acc = s.rx.acc ∧ s'.rx.rrd = s.rx.rrd ∧ s'.cap = s.cap ∧ s'.tx.ctl = s.tx.ctl ∧
    s'.tx.tcap = s.tx.tcap ∧ s'.tx.tcnt = s.tx.tcnt ∧ s'.tx.q = s.tx.q ∧ s'.rx.ctl = s.rx.ctl ∧ s'.rx.rerr = s.rx.rerr ∧
    s'.rx.roff = s.rx.roff ∧ s'.rx.rfoff = s.rx.rfoff ∧ s'.env = s.env := by decide
theorem witness_ChecksumIsTheByteSum : (List.replicate 255 (0xFF#8 : Byte)).length ≤ 255 := by
  simp only [List.length_replicate]; decide
theorem witness_FromSourceTakesOneChunk : 1#8 ≠ 0#8 ∧ 255#8 ≠ 0#8 ∧ 0#8 = 0#8 := by decide
theorem witness_SerializeLaysOutTheFrame : (packetOf [0x68#8]).wf = true ∧ (packetOf []).wf = true := by decide
theorem witness_DeserializeChecksInOrder :
    ([] : List Byte).length < 2 ∧ [0x02#8].length < 2 ∧ 0xFF#8 ≠ 1#8 ∧
    [1#8, 5#8, 0x68#8].length < 6 + (5#8).toNat ∧
    [0x61#8, 0#8, 0#8, 0#8, 0x61#8] = [0x61#8] ++ [0#8, 0#8, 0#8, 0x61#8] ++ [] ∧ [0x61#8].length = (1#8).toNat ∧
    ([0x61#8].map BitVec.toNat).sum =
      (0#8).toNat * 2 ^ 24 + (0#8).toNat * 2 ^ 16 + (0#8).toNat * 2 ^ 8 + (0x61#8).toNat ∧
    ([0x61#8].map BitVec.toNat).sum ≠
      (1#8).toNat * 2 ^ 24 + (0#8).toNat * 2 ^ 16 + (0#8).toNat * 2 ^ 8 + (0x61#8).toNat := by decide
theorem witness_ToPacketsCutsTheMessage : 1#8 ≠ 0#8 ∧ 255#8 ≠ 0#8 := by decide
theorem witness_FromPacketDataReassembles :
    (∀ p ∈ [packetOf [0x68#8], packetOf []], p.wf = true) ∧ msgValid [0x68#8] = true ∧ msgValid [0x80#8] = false ∧
    [0x01#8] ≠ [] ∧ deserialize [0x01#8] = .err .invalidPacket := by decide
theorem witness_DeserializeInvertsSerialize :
    (packetOf [0x68#8]).wf = true ∧
    deserialize (heFrame ++ [0x01#8]) = .ok (packetOf [0x68#8, 0x65#8], [0x01#8]) := by decide
theorem witness_DamagedFramesAreDetected :
    (packetOf [0x68#8]).wf = true ∧ 0 < (packetOf [0x68#8]).payload.length ∧
    (packetOf [0x68#8]).payload[0]? ≠ some 0x69#8 ∧ 0#8 ≠ 1#8 ∧ 6 < 6 + (packetOf [0x68#8]).length.toNat ∧
    (be32 (packetOf [0x68#8]).checksum)[3]? ≠ some 0#8 ∧ (packetOf [0x68#8]).length.toNat < (255#8).toNat ∧
    (0#8).toNat < (packetOf [0x68#8]).length.toNat ∧
    ((serialize (packetOf [0x68#8])).drop 2).take 4 ≠ be32 (checksum []) := by decide
theorem witness_RoundTripLaw : 255#8 ≠ 0#8 ∧ msgValid [0x68#8] = true ∧ msgValid [0x80#8] = false := by decide
theorem witness_EnginesShareNothing :
    (next? (exec (.txinB 0x65#8) collecting)).isSome = true ∧ (next? (exec .txout collecting)).isSome = true ∧
    (next? (exec (.frame [] 0#32) State.reset)).isSome = true ∧ isWireInput (.frame [] 0#32) = true ∧
    (next? (exec .rxout (rxIs doneHi))).isSome = true ∧ (next? (exec (.rxclr 1#32) State.reset)).isSome = true := by decide
theorem witness_WireInputCausesOnlyPacketErrors :
    isWireInput (.rxinE 0#8) = true ∧ (next? (exec (.rxinE 0#8) (rxIs inPayload))).isSome = true ∧
    (rxIs inPayload).accMax = none ∧ ¬ (rxIs inPayload).aborted := by decide
theorem witness_BufferBytesOutsideTheStoreAreKept :
    (next? (exec (.txinB 0x65#8) collecting)).isSome = true ∧ txInEnabled collecting.tx = true ∧
    254 ≠ collecting.tx.tcnt.toNat ∧ (next? (exec (.rxinB 0x65#8) (rxIs inPayload))).isSome = true ∧
    254 ≠ inPayload.ridx.toNat := by decide
theorem witness_UnwrittenBytesNeverMatter_inv : collecting.Inv ∧ (rxIs atFourth).Inv :=
  ⟨⟨by decide, by decide⟩, by decide, by decide⟩
theorem witness_UnwrittenBytesNeverMatter :
    (next? (exec (.txinB 0x65#8) collecting)).isSome = true ∧
    (next? (exec (.rxinB 0xCD#8) (rxIs atFourth))).isSome = true ∧ Instr.txinB 0x65#8 ≠ .reset := by decide
theorem witness_InvariantKeptByEveryStep_inv : (moving (.csrWrite 0 2#32) (rxIs inPayload)).Inv := ⟨by decide, by decide⟩
theorem witness_InvariantKeptByEveryStep :
    (next? (step (moving (.csrWrite 0 2#32) (rxIs inPayload)))).isSome = true := by decide
theorem witness_OperationsCompleteUnderInvariant : (rxIs inPayload).Inv ∧ collecting.Inv :=
  ⟨⟨by decide, by decide⟩, by decide, by decide⟩

end Sys2Proof.Tests
end

/-! ## Proofs: the step, and the completion of every operation (O5, O60) -/

namespace Sys2Proof.Machine

/-! ### The state a move leaves -/

theorem State.popMove_of_moves {s : State} {m : Move} {ms : List Move} (hm : s.env.moves = m :: ms) :
    s.popMove = { s with env := { s.env with moves := ms } } := by
  simp [State.popMove, State.setEnv, hm]

theorem State.takeTxIn_of_moves {s : State} {m : Move} {ms : List Move} (hm : s.env.moves = m :: ms) (n : Nat) :
    s.takeTxIn n = { s with env := { s.env with moves := ms, txIn := s.env.txIn.drop n } } := by
  simp [State.takeTxIn, State.setEnv, hm]

theorem State.takeRxIn_of_moves {s : State} {m : Move} {ms : List Move} (hm : s.env.moves = m :: ms) (n : Nat) :
    s.takeRxIn n = { s with env := { s.env with moves := ms, rxIn := s.env.rxIn.drop n } } := by
  simp [State.takeRxIn, State.setEnv, hm]

/-! ### What a step does, by what its move comes to -/

theorem step_of_no_move {s : State} (hm : s.env.moves = []) : step s = .next s := by
  simp only [step, fetch, hm]

/-- A step whose move finds an operation runs it. -/
theorem step_run {s t : State} {m : Move} {ms : List Move} {i : Instr} (hm : s.env.moves = m :: ms)
    (h : fetchMove m s = .run i t) : step s = exec i t := by
  simp only [step, fetch, hm, h]

/-- A step whose move does nothing takes the move from the list and changes nothing else. -/
theorem step_idle {s : State} {m : Move} {ms : List Move} (hm : s.env.moves = m :: ms)
    (h : fetchMove m s = .quiet s.popMove) : step s = .next { s with env := { s.env with moves := ms } } := by
  rw [step_quiet hm h, State.popMove_of_moves hm]

/-- A label move runs what its label decodes to (R91, R200). -/
theorem step_label {s : State} {m : Move} {ms : List Move} {o : Offer} {i : Instr} (hm : s.env.moves = m :: ms)
    (hf : fetchMove m s = fetchLabel o s) (ho : decode o = .ok i) :
    step s = exec i { s with env := { s.env with moves := ms } } := by
  have hrun : fetchMove m s = .run i s.popMove := by rw [hf, fetchLabel, ho]
  rw [step_run hm hrun, State.popMove_of_moves hm]

theorem step_txIn {s : State} {ms : List Move} {w : SymWord} {ws : List SymWord} {i : Instr}
    (hm : s.env.moves = .txIn :: ms) (hp : s.env.txIn = w :: ws) (ho : decode (.txIn w) = .ok i) :
    step s = exec i { s with env := { s.env with moves := ms, txIn := ws } } := by
  obtain rfl : decodeTxSymbol w = i := Except.ok.inj ho
  have hrun : fetchMove .txIn s = .run (decodeTxSymbol w) (s.takeTxIn 1) := by simp only [fetchMove, hp]
  rw [step_run hm hrun, State.takeTxIn_of_moves hm, hp, List.drop_one, List.tail_cons]

theorem step_rxIn {s : State} {ms : List Move} {w : SymWord} {ws : List SymWord} {i : Instr}
    (hm : s.env.moves = .rxIn :: ms) (hp : s.env.rxIn = w :: ws) (ho : decode (.rxIn w) = .ok i) :
    step s = exec i { s with env := { s.env with moves := ms, rxIn := ws } } := by
  obtain rfl : decodeRxSymbol w = i := Except.ok.inj ho
  have hrun : fetchMove .rxIn s = .run (decodeRxSymbol w) (s.takeRxIn 1) := by simp only [fetchMove, hp]
  rw [step_run hm hrun, State.takeRxIn_of_moves hm, hp, List.drop_one, List.tail_cons]

/-- A wire instruction at the front of a stream is read whatever bytes follow it (R83, R85). -/
theorem decodeWire_append {bs rest : List Byte} {i : Instr} (h : decodeWire bs = .ok (i, rest)) (tail : List Byte) :
    decodeWire (bs ++ tail) = .ok (i, rest ++ tail) := by
  match bs, h with
  | version :: len :: bytes, h =>
    simp only [decodeWire] at h
    simp only [List.cons_append, decodeWire]
    by_cases hv : version = Config.version
    · simp only [hv, if_true] at h ⊢
      split at h
      · cases h
      · rename_i hlen
        cases h
        have hpay : len.toNat ≤ bytes.length := by omega
        have hsum : 4 ≤ (bytes.drop len.toNat).length := by rw [List.length_drop]; omega
        rw [if_neg (by rw [List.length_append]; omega), List.take_append_of_le_length hpay,
          List.drop_append_of_le_length hpay, List.take_append_of_le_length hsum,
          List.drop_append_of_le_length (by omega)]
    · simp only [hv, if_false] at h ⊢
      cases h
      rfl

/-- A whole frame at the front of `RX_IN` is run, and exactly its bytes are taken (log entry 11). -/
theorem step_frame {s : State} {ms : List Move} {bs : List Byte} {ws : List SymWord} {i : Instr}
    (hm : s.env.moves = .frame :: ms) (hp : s.env.rxIn = bs.map byteWord ++ ws) (hd : decodeWire bs = .ok (i, [])) :
    step s = exec i { s with env := { s.env with moves := ms, rxIn := ws } } := by
  have hlead : leadingBytes s.env.rxIn = bs ++ leadingBytes ws := by rw [hp, leadingBytes_byteWords]
  have hrun : fetchMove .frame s = .run i (s.takeRxIn bs.length) := by
    simp only [fetchMove, fetchFrame, hlead, decodeWire_append hd, List.nil_append, List.length_append,
      Nat.add_sub_cancel]
  have hdrop : s.env.rxIn.drop bs.length = ws := by
    rw [hp, List.drop_append_of_le_length (by simp), List.drop_eq_nil_of_le (by simp), List.nil_append]
  rw [step_run hm hrun, State.takeRxIn_of_moves hm, hdrop]

/-- Settles O5: one lemma about `step` for each kind of move. -/
theorem stepRunsTheDecodedInstruction : Obligations.StepRunsTheDecodedInstruction := by
  intro s ms i
  refine ⟨fun w ws => step_txIn, fun w ws => step_rxIn, fun bs ws => step_frame, ?label, ?noTx, ?noRx, ?noFrame,
    ?stalled, ?offerTx, ?offerRx, ?withdrawTx, ?withdrawRx, step_of_no_move⟩
  case label =>
    intro m o hm ho hlabel
    rcases hlabel with ⟨rfl, rfl, hready⟩ | ⟨rfl, rfl⟩ | ⟨rfl, rfl⟩ | ⟨n, rfl, rfl⟩ | ⟨n, v, rfl, rfl⟩ | ⟨c, rfl, rfl⟩
    · exact step_label hm (if_pos ((txOutReady_iff s).mpr hready)) ho
    all_goals exact step_label hm rfl ho
  case noTx => exact fun hm hp => step_idle hm (by simp only [fetchMove, hp])
  case noRx => exact fun hm hp => step_idle hm (by simp only [fetchMove, hp])
  case noFrame => exact fun why hm hd => step_idle hm (fetchMove_frame_error hd)
  case stalled =>
    intro hm hloop hstall
    have hnot : ¬ txOutReady s = true := by rw [txOutReady_iff]; tauto
    exact step_idle hm (if_neg hnot)
  case offerTx => exact fun ws hm => by rw [step_quiet hm rfl, State.popMove_of_moves hm]; rfl
  case offerRx => exact fun ws hm => by rw [step_quiet hm rfl, State.popMove_of_moves hm]; rfl
  case withdrawTx => exact fun n hm => by rw [step_quiet hm rfl, State.takeTxIn_of_moves hm]
  case withdrawRx => exact fun n hm => by rw [step_quiet hm rfl, State.takeRxIn_of_moves hm]

/-! ### The TX engine completes under its invariant (R24, R44 b) -/

/-- `collect` finds its index in `tbuf`: a chunk that is not full holds at most 254 bytes. -/
theorem Tx.collect_completes (epoch : Nat) (b : Byte) {t : Tx} (h : t.tcnt.toNat < 255) :
    ∃ t', t.collect epoch b = .ok t' := by
  cases hc : t.collect epoch b with
  | ok t' => exact ⟨t', rfl⟩
  | error f =>
    obtain ⟨-, hge⟩ := Tx.collect_error hc
    omega

/-- In `TXS_COLLECT` the count is below the capacity, so `tbuf` has the next index (R44 b). -/
theorem Tx.Inv.tcnt_lt {epoch : Nat} {t : Tx} (h : t.Inv epoch) (hc : t.ctl = .collect) : t.tcnt.toNat < 255 := by
  obtain ⟨-, hcollect, -⟩ := h
  obtain ⟨-, hlt, -⟩ := hcollect hc
  have := t.tcap.isLt
  omega

theorem Tx.accept_completes {epoch : Nat} {t : Tx} (h : t.Inv epoch) (hen : txInEnabled t = true) (cap : Byte)
    (x : Symbol) : ∃ t', t.accept epoch cap x = .ok t' := by
  rcases Tx.accept_cases epoch cap x t with ⟨-, -, hx⟩ | ⟨-, -, -, hx⟩ | ⟨-, -, b, -, hx⟩ | ⟨-, -, hx⟩ | ⟨hni, b, -, hx⟩
  · exact ⟨_, hx⟩
  · exact ⟨_, hx⟩
  · rw [hx]
    exact Tx.collect_completes epoch b (show (0#8).toNat < 255 by decide)
  · exact ⟨_, hx⟩
  · have hcollect : t.ctl = .collect := by
      have hna := ((txInEnabled_iff t).mp hen).1
      cases hctl : t.ctl with
      | idle => exact absurd hctl hni
      | collect => rfl
      | abort => exact absurd hctl hna
    rw [hx]
    exact Tx.collect_completes epoch b (h.tcnt_lt hcollect)

theorem txIn_completes {s : State} (h : s.tx.Inv s.epoch) (w : SymWord) : ∃ t, txIn w s = .next t := by
  by_cases hen : txInEnabled s.tx = true
  · obtain ⟨t', ht⟩ := Tx.accept_completes h hen s.cap (symbolOfWord w)
    exact ⟨s.setTx t', by simp only [txIn, hen, if_true, ht]⟩
  · exact ⟨s.holdTxIn w, if_neg hen⟩

theorem execTxout_completes (s : State) : ∃ t, execTxout s = .next t := by
  unfold execTxout
  split <;> exact ⟨_, rfl⟩

/-! ### The RX engine completes (R29, R44 d) -/

/-- The clause of R44 (d) that keeps stores inside `rbuf`: the next payload byte of a frame lies below its length. -/
def Rx.PayloadIndexInside (r : Rx) : Prop := r.ctl = .payload → r.ridx.toNat < r.rlen.toNat

theorem Rx.Inv.payloadIndexInside {accMax : Option Nat} {epoch : Nat} {r : Rx} (h : r.Inv accMax epoch) :
    r.PayloadIndexInside := by
  intro hc
  obtain ⟨hpayload, -⟩ := h
  obtain ⟨-, -, hlt, -⟩ := hpayload hc
  exact hlt

theorem Rx.PayloadIndexInside.of_ctl_ne {r : Rx} (h : r.ctl ≠ .payload) : r.PayloadIndexInside :=
  fun hc => absurd hc h

/-- After the length byte the payload starts at index 0, and only where the length is not 0 (R175). -/
theorem Rx.lengthByte_payloadIndexInside (b : Byte) (r : Rx) : (r.lengthByte b).PayloadIndexInside := by
  unfold Rx.lengthByte
  split
  · exact .of_ctl_ne (by simp)
  · by_cases hb : b = 0#8
    · exact .of_ctl_ne (by simp [hb])
    · exact fun _ => toNat_pos_of_ne_zero hb

/-- A payload byte finds its index in `rbuf`; after it the index is the next one, or the payload is complete (R176). -/
theorem Rx.payloadByte_completes (b : Byte) {r : Rx} (hlt : r.ridx.toNat < r.rlen.toNat) :
    ∃ r', r.payloadByte b = .ok r' ∧ r'.PayloadIndexInside := by
  have hlen := r.rlen.isLt
  cases hp : r.payloadByte b with
  | error f =>
    obtain ⟨-, hge⟩ := Rx.payloadByte_error hp
    omega
  | ok r' =>
    refine ⟨r', rfl, ?_⟩
    obtain ⟨-, ⟨hne, rfl⟩ | ⟨-, rfl⟩⟩ := Rx.payloadByte_ok hp
    · intro _
      show (r.ridx + 1#8).toNat < r.rlen.toNat
      bv_omega
    · exact .of_ctl_ne (by simp)

/-- A checksum byte never leads into the payload (R177 to R179). -/
theorem Rx.checksumByte_ctl_ne_payload (accMax : Option Nat) (epoch : Nat) (b : Byte) {r : Rx}
    (h : r.ctl = .csum) : (r.checksumByte accMax epoch b).ctl ≠ .payload := by
  unfold Rx.checksumByte Rx.commit
  dsimp only
  split
  · split
    · split <;> simp
    · simp
  · simp [h]

/-- The engine accepts any byte, without a fault, and keeps the index inside the payload. -/
theorem Rx.acceptByte_completes (accMax : Option Nat) (epoch : Nat) (b : Byte) {r : Rx} (h : r.PayloadIndexInside) :
    ∃ r', r.acceptByte accMax epoch b = .ok r' ∧ r'.PayloadIndexInside := by
  unfold Rx.acceptByte
  cases hc : r.ctl with
  | idle => exact ⟨_, rfl, .of_ctl_ne (by simp [Rx.versionByte])⟩
  | acc => exact ⟨_, rfl, .of_ctl_ne (by simp [Rx.versionByte])⟩
  | len => exact ⟨_, rfl, Rx.lengthByte_payloadIndexInside b _⟩
  | payload => exact Rx.payloadByte_completes b (h hc)
  | csum => exact ⟨_, rfl, .of_ctl_ne (Rx.checksumByte_ctl_ne_payload _ _ _ rfl)⟩
  | done => exact ⟨r, rfl, h⟩
  | failed => exact ⟨r, rfl, h⟩
  | abort => exact ⟨r, rfl, h⟩

theorem Rx.accept_completes (accMax : Option Nat) (epoch : Nat) (x : Symbol) {r : Rx} (h : r.PayloadIndexInside) :
    ∃ r', r.accept accMax epoch x = .ok r' := by
  cases x with
  | byte b =>
    obtain ⟨r', hr, -⟩ := Rx.acceptByte_completes accMax epoch b h
    exact ⟨r', hr⟩
  | endMark => exact ⟨r.acceptEnd, rfl⟩

theorem rxIn_completes {s : State} (h : s.rx.PayloadIndexInside) (w : SymWord) : ∃ t, rxIn w s = .next t := by
  by_cases hen : rxInEnabled s.rx = true
  · obtain ⟨r', hr⟩ := Rx.accept_completes s.accMax s.epoch (symbolOfWord w) h
    exact ⟨s.setRx r', by simp only [rxIn, hen, if_true, hr]⟩
  · exact ⟨s.holdRxIn [w], if_neg hen⟩

theorem Rx.feed_completes (accMax : Option Nat) (epoch : Nat) (bs : List Byte) {r : Rx} (h : r.PayloadIndexInside) :
    ∃ p, r.feed accMax epoch bs = .ok p := by
  induction bs generalizing r with
  | nil => exact ⟨_, rfl⟩
  | cons b bs ih =>
    rw [Rx.feed_cons]
    split
    · obtain ⟨r', hr, hr'⟩ := Rx.acceptByte_completes accMax epoch b h
      rw [hr]
      exact ih hr'
    · exact ⟨_, rfl⟩

theorem rxBytes_completes {s : State} (h : s.rx.PayloadIndexInside) (bs : List Byte) :
    ∃ t, rxBytes bs s = .next t := by
  obtain ⟨⟨r, rest⟩, hf⟩ := Rx.feed_completes s.accMax s.epoch bs h
  exact ⟨(s.setRx r).holdRxIn (rest.map byteWord), by simp only [rxBytes, hf]⟩

theorem execRxout_completes (s : State) : ∃ t, execRxout s = .next t := by
  unfold execRxout
  split <;> exact ⟨_, rfl⟩

/-! ### The functions stop only at capacity 0 (R101, R121, R131, R232) -/

theorem toPacketsLoop_isSome {c : Byte} (h : c ≠ 0#8) (fuel : Nat) (message : List Byte) :
    (toPacketsLoop c fuel message).isSome := by
  induction fuel generalizing message with
  | zero => rfl
  | succ fuel ih =>
    rw [toPacketsLoop_succ message h]
    split
    · rfl
    · simpa using ih (message.drop c.toNat)

theorem toPackets_isSome (message : List Byte) {c : Byte} (h : c ≠ 0#8) : (toPackets message c).isSome :=
  toPacketsLoop_isSome h _ message

/-- A function that has a value returns it. -/
theorem returnsOrAborts_completes {r : Option Reply} (h : r.isSome) (s : State) :
    ∃ t, returnsOrAborts r s = .next t := by
  obtain ⟨v, rfl⟩ := Option.isSome_iff_exists.mp h
  exact ⟨s.answer v, rfl⟩

/-- The three functions that take a capacity return a value for every capacity but 0, and abort for 0. -/
theorem exec_capacity_outcome (s : State) {m : List Byte} {c : Byte} {i : Instr}
    (hi : i = .fromSource m c ∨ i = .toPackets m c ∨ i = .toPacketData m c) :
    (∃ t, exec i s = .next t) ∨
    (exec i s = .fault .capZero ∧ ∃ m, i = .fromSource m 0#8 ∨ i = .toPackets m 0#8 ∨ i = .toPacketData m 0#8) := by
  by_cases hc : c = 0#8
  · subst hc
    refine .inr ⟨?_, m, hi⟩
    rcases hi with rfl | rfl | rfl
    · rfl
    · simp [exec, execToPackets, toPackets_zero, returnsOrAborts]
    · simp [exec, execToPacketData, toPacketData, toPackets_zero, returnsOrAborts]
  · left
    rcases hi with rfl | rfl | rfl
    · exact returnsOrAborts_completes (by simp [fromSource_of_ne_zero m hc]) s
    · exact returnsOrAborts_completes (by simp [toPackets_isSome m hc]) s
    · exact returnsOrAborts_completes (by simp [toPacketData, toPackets_isSome m hc]) s

/-- Settles O60: the engines never meet index 255 under the invariant, and a function stops only at capacity 0. -/
theorem operationsCompleteUnderInvariant : Obligations.OperationsCompleteUnderInvariant := by
  rintro i s ⟨htx, hrxInv⟩
  have hrx : s.rx.PayloadIndexInside := hrxInv.payloadIndexInside
  cases i with
  | frame payload checksum => exact .inl (rxBytes_completes hrx _)
  | frameBadver version byte1 => exact .inl (rxBytes_completes hrx _)
  | txinB d => exact .inl (txIn_completes htx _)
  | txinE x => exact .inl (txIn_completes htx _)
  | rxinB d => exact .inl (rxIn_completes hrx _)
  | rxinE x => exact .inl (rxIn_completes hrx _)
  | txout => exact .inl (execTxout_completes s)
  | rxout => exact .inl (execRxout_completes s)
  | csrr n => exact .inl ⟨_, rfl⟩
  | csrw n v => exact .inl ⟨_, rfl⟩
  | rxclr v => exact .inl ⟨_, rfl⟩
  | reset => exact .inl ⟨_, rfl⟩
  | checksum payload => exact .inl ⟨_, rfl⟩
  | fromSource source capacity => exact exec_capacity_outcome s (.inl rfl)
  | serialize packet => exact .inl ⟨_, rfl⟩
  | deserialize bytes => exact .inl ⟨_, rfl⟩
  | toPackets message capacity => exact exec_capacity_outcome s (.inr (.inl rfl))
  | toPacketData message capacity => exact exec_capacity_outcome s (.inr (.inr rfl))
  | fromPacketData bytes => exact .inl ⟨_, rfl⟩

end Sys2Proof.Machine

/-! ## Proofs: the invariant of R44 (O58, O59) -/

namespace Sys2Proof.Machine

/-! ### The TX engine keeps its invariant -/

theorem Tx.inv_of_idle {epoch : Nat} {t : Tx} (hctl : t.ctl = .idle) (hcnt : t.tcnt = 0#8) (hsum : t.tsum = 0#32)
    (hq : t.q.length ≤ 262) (hbuf : t.tbuf.wf) : t.Inv epoch :=
  ⟨fun _ => ⟨hcnt, hsum⟩, by simp [hctl], by simp [hctl], hq, hbuf⟩

theorem Tx.inv_of_collect {epoch : Nat} {t : Tx} (hctl : t.ctl = .collect) (hlt : t.tcnt.toNat < t.tcap.toNat)
    (hsum : t.tsum = checksum (t.tbuf.bytes (tbufFree epoch) t.tcnt.toNat))
    (hwritten : ∀ i < t.tcnt.toNat, (t.tbuf.read i).isSome) (hq : t.q.length ≤ 262) (hbuf : t.tbuf.wf) :
    t.Inv epoch :=
  ⟨by simp [hctl], fun _ => ⟨by omega, hlt, hsum, hwritten⟩, by simp [hctl], hq, hbuf⟩

/-- A frame is `6 + n` symbols (R83, R155). -/
@[simp] theorem Tx.frameSymbols_length (epoch : Nat) (n : Byte) (t : Tx) :
    (t.frameSymbols epoch n).length = 6 + n.toNat := by
  simp [Tx.frameSymbols]; omega

/-- After a write right behind them, the bytes held have still all been written. -/
theorem Memory.written_write_succ {m : Memory} {n : Nat} (b : Byte) (h : ∀ i < n, (m.read i).isSome) :
    ∀ i < n + 1, ((m.write n b).read i).isSome := by
  intro i hi
  rw [Memory.read_write]
  split
  · rfl
  · exact h i (by omega)

/-- The next byte of a chunk goes on with it, or fills it and starts an empty one (R153, R154). -/
theorem Tx.collect_inv {epoch : Nat} {b : Byte} {t t' : Tx} (h : t.Inv epoch) (hctl : t.ctl = .collect)
    (hempty : t.q = []) (hc : t.collect epoch b = .ok t') : t'.Inv epoch := by
  obtain ⟨-, hcollect, -, -, hbuf⟩ := h
  obtain ⟨hcap, hlt, hsum, hwritten⟩ := hcollect hctl
  obtain ⟨hroom, hcase⟩ := Tx.collect_ok hc
  have hbuf' := Memory.write_wf hbuf hroom b
  have hnext : (t.tcnt + 1#8).toNat = t.tcnt.toNat + 1 := by bv_omega
  rcases hcase with ⟨hne, rfl⟩ | ⟨heq, rfl⟩
  · refine Tx.inv_of_collect hctl ?_ ?_ ?_ (by simp [hempty]) hbuf'
    · show (t.tcnt + 1#8).toNat < t.tcap.toNat
      bv_omega
    · simp only [hnext, Memory.bytes_write_succ, checksum_snoc, hsum]
    · simp only [hnext]
      exact Memory.written_write_succ b hwritten
  · refine Tx.inv_of_collect hctl hcap rfl (by simp) ?_ hbuf'
    have hcap255 := t.tcap.isLt
    simp [hempty, heq]
    omega

/-- `end_of_message` returns to an idle engine, with at most one frame and `End` queued (R156). -/
theorem Tx.endOfMessage_inv {epoch : Nat} {t : Tx} (hempty : t.q = []) (hbuf : t.tbuf.wf) :
    (t.endOfMessage epoch).Inv epoch := by
  have hcnt := t.tcnt.isLt
  unfold Tx.endOfMessage
  split
  · exact Tx.inv_of_idle rfl rfl rfl (by simp [hempty]) hbuf
  · exact Tx.inv_of_idle rfl rfl rfl (by simp [Tx.emitFrame, hempty]; omega) hbuf

/-- An engine that accepts input is idle or in a message. -/
theorem Tx.ctl_eq_collect {t : Tx} (hen : txInEnabled t = true) (hni : t.ctl ≠ .idle) : t.ctl = .collect := by
  obtain ⟨hna, -⟩ := (txInEnabled_iff t).mp hen
  cases hctl : t.ctl with
  | idle => exact absurd hctl hni
  | collect => rfl
  | abort => exact absurd hctl hna

theorem Tx.accept_inv {epoch : Nat} {cap : Byte} {x : Symbol} {t t' : Tx} (h : t.Inv epoch)
    (hen : txInEnabled t = true) (ha : t.accept epoch cap x = .ok t') : t'.Inv epoch := by
  obtain ⟨hna, hempty⟩ := (txInEnabled_iff t).mp hen
  have ⟨hidle, _, _, _, hbuf⟩ := h
  rcases Tx.accept_cases epoch cap x t with
    ⟨-, rfl, hx⟩ | ⟨hi, -, -, hx⟩ | ⟨-, hcap, b, -, hx⟩ | ⟨-, -, hx⟩ | ⟨hni, b, -, hx⟩ <;> rw [hx] at ha
  · obtain rfl := Except.ok.inj ha
    exact ⟨by simp, by simp, fun _ => ⟨rfl, hempty⟩, by simp [hempty], hbuf⟩
  · obtain rfl := Except.ok.inj ha
    obtain ⟨hcnt, hsum⟩ := hidle hi
    exact Tx.inv_of_idle hi hcnt hsum (by simp [Tx.emptyMessage, Tx.emitFrame, hempty]) hbuf
  · have hstart : Tx.Inv epoch { t with tcap := cap, ctl := .collect, tcnt := 0#8, tsum := 0#32 } :=
      Tx.inv_of_collect rfl (toNat_pos_of_ne_zero hcap) rfl (by simp) (by simp [hempty]) hbuf
    exact Tx.collect_inv hstart rfl hempty ha
  · obtain rfl := Except.ok.inj ha
    exact Tx.endOfMessage_inv hempty hbuf
  · exact Tx.collect_inv h (Tx.ctl_eq_collect hen hni) hempty ha

/-- Taking a symbol only shortens `tx_q` (R205). -/
theorem Tx.Inv.tail {epoch : Nat} {t : Tx} {x : Symbol} {rest : List Symbol} (h : t.Inv epoch) (hq : t.q = x :: rest) :
    Tx.Inv epoch { t with q := rest } := by
  obtain ⟨hidle, hcollect, habort, hlen, hbuf⟩ := h
  refine ⟨hidle, hcollect, fun hctl => ?_, ?_, hbuf⟩
  · exact absurd ((habort hctl).2) (by simp [hq])
  · rw [hq, List.length_cons] at hlen
    exact Nat.le_of_succ_le hlen

/-! ### The RX engine keeps its invariant -/

/-- What the invariant says of an RX engine that accepts input, beside the counters and sums of a frame. -/
abbrev Rx.Receiving (accMax : Option Nat) (r : Rx) : Prop :=
  r.rerr = none ∧ r.rrd = 0 ∧ (∀ m ∈ accMax, r.acc.length ≤ m) ∧ r.rbuf.wf

theorem Rx.Inv.receiving {accMax : Option Nat} {epoch : Nat} {r : Rx} (h : r.Inv accMax epoch)
    (hnt : ¬ r.terminal) : r.Receiving accMax := by
  obtain ⟨-, -, herr, -, hrrd, -, hacc, hbuf⟩ := h
  obtain ⟨hdone, hfailed, -⟩ : r.ctl ≠ .done ∧ r.ctl ≠ .failed ∧ r.ctl ≠ .abort := by simpa [Rx.terminal] using hnt
  exact ⟨not_not.mp fun hne => hfailed (herr.mp hne), not_not.mp fun hne => hdone (hrrd hne), hacc, hbuf⟩

/-- Between frames, after a version byte and in `RXS_ABORT` the invariant asks nothing more. -/
theorem Rx.Receiving.inv_of_plain {accMax : Option Nat} {epoch : Nat} {r : Rx} (h : r.Receiving accMax)
    (hctl : r.ctl = .idle ∨ r.ctl = .acc ∨ r.ctl = .len ∨ r.ctl = .abort) : r.Inv accMax epoch := by
  obtain ⟨herr, hrrd, hacc, hbuf⟩ := h
  refine ⟨?_, ?_, ?_, ?_, by simp [hrrd], by simp [hrrd], hacc, hbuf⟩ <;>
    rcases hctl with hctl | hctl | hctl | hctl <;> simp [hctl, herr]

theorem Rx.Receiving.inv_of_payload {accMax : Option Nat} {epoch : Nat} {r : Rx} (h : r.Receiving accMax)
    (hctl : r.ctl = .payload) (hver : r.rver = 1#8) (hlt : r.ridx.toNat < r.rlen.toNat)
    (hsum : r.rsum = checksum (r.rbuf.bytes (rbufFree epoch) r.ridx.toNat)) (hcsum : r.rcsum = 0#32)
    (hwritten : ∀ i < r.ridx.toNat, (r.rbuf.read i).isSome) : r.Inv accMax epoch := by
  obtain ⟨herr, hrrd, hacc, hbuf⟩ := h
  exact ⟨fun _ => ⟨hver, by omega, hlt, hsum, hcsum, hwritten⟩, by simp [hctl], by simp [hctl, herr], by simp [hctl],
    by simp [hrrd], by simp [hrrd], hacc, hbuf⟩

theorem Rx.Receiving.inv_of_csum {accMax : Option Nat} {epoch : Nat} {r : Rx} (h : r.Receiving accMax)
    (hctl : r.ctl = .csum) (hver : r.rver = 1#8) (hlt : r.ridx.toNat < 4)
    (hsum : r.rsum = checksum (r.rbuf.bytes (rbufFree epoch) r.rlen.toNat))
    (hcsum : r.rcsum.toNat < 2 ^ (8 * r.ridx.toNat))
    (hwritten : ∀ i < r.rlen.toNat, (r.rbuf.read i).isSome) : r.Inv accMax epoch := by
  obtain ⟨herr, hrrd, hacc, hbuf⟩ := h
  exact ⟨by simp [hctl], fun _ => ⟨hver, hlt, hsum, hcsum, hwritten⟩, by simp [hctl, herr], by simp [hctl],
    by simp [hrrd], by simp [hrrd], hacc, hbuf⟩

/-- `fail(E)` writes the code and the state together (R228), so one says as much as the other. -/
theorem Rx.Receiving.fail_inv {accMax : Option Nat} {epoch : Nat} {r : Rx} (h : r.Receiving accMax) (e : PacketError) :
    (r.fail e).Inv accMax epoch := by
  obtain ⟨-, hrrd, hacc, hbuf⟩ := h
  exact ⟨by simp, by simp, by simp, by simp, by simp [hrrd], by simp [hrrd], hacc, hbuf⟩

theorem Rx.lengthByte_inv {accMax : Option Nat} {epoch : Nat} {r : Rx} (b : Byte) (h : r.Receiving accMax) :
    (r.lengthByte b).Inv accMax epoch := by
  unfold Rx.lengthByte
  by_cases hver : r.rver = Config.version
  · rw [if_neg (not_not.mpr hver)]
    by_cases hb : b = 0#8
    · exact Rx.Receiving.inv_of_csum h (by simp [hb]) hver (by simp) (by simp [hb, checksum_nil]) (by simp) (by simp [hb])
    · exact Rx.Receiving.inv_of_payload h (by simp [hb]) hver (toNat_pos_of_ne_zero hb) (by simp [checksum_nil]) rfl
        (by simp)
  · rw [if_pos hver]
    exact h.fail_inv _

/-- The next payload byte goes on with the payload, or completes it and turns to the checksum (R176). -/
theorem Rx.payloadByte_inv {accMax : Option Nat} {epoch : Nat} {b : Byte} {r r' : Rx} (h : r.Inv accMax epoch)
    (hctl : r.ctl = .payload) (hp : r.payloadByte b = .ok r') : r'.Inv accMax epoch := by
  obtain ⟨herr, hrrd, hacc, hbuf⟩ := h.receiving (by simp [hctl])
  obtain ⟨hpayload, -⟩ := h
  obtain ⟨hver, -, hlt, hsum, hcsum, hwritten⟩ := hpayload hctl
  obtain ⟨hroom, hcase⟩ := Rx.payloadByte_ok hp
  have hnext : (r.ridx + 1#8).toNat = r.ridx.toNat + 1 := by bv_omega
  have hreceiving : Rx.Receiving accMax { r with rbuf := r.rbuf.write r.ridx.toNat b } :=
    ⟨herr, hrrd, hacc, Memory.write_wf hbuf hroom b⟩
  have hsum' : r.rsum + zext32 b =
      checksum ((r.rbuf.write r.ridx.toNat b).bytes (rbufFree epoch) (r.ridx + 1#8).toNat) := by
    rw [hnext, Memory.bytes_write_succ, checksum_snoc, hsum]
  have hwritten' : ∀ i < (r.ridx + 1#8).toNat, ((r.rbuf.write r.ridx.toNat b).read i).isSome := by
    rw [hnext]
    exact Memory.written_write_succ b hwritten
  rcases hcase with ⟨hne, rfl⟩ | ⟨heq, rfl⟩
  · refine Rx.Receiving.inv_of_payload hreceiving hctl hver ?_ hsum' hcsum hwritten'
    show (r.ridx + 1#8).toNat < r.rlen.toNat
    bv_omega
  · rw [heq] at hsum' hwritten'
    exact Rx.Receiving.inv_of_csum hreceiving rfl hver (by simp) hsum' (by simp [hcsum]) hwritten'

/-- The big-endian assembly step moves the bytes held up by one (R177). -/
theorem shiftInByte_toNat (v : Word) (b : Byte) : (shiftInByte v b).toNat = v.toNat % 2 ^ 24 * 256 + b.toNat := by
  have hb : b.toNat < 2 ^ 8 := b.isLt
  rw [shiftInByte, BitVec.toNat_append, ← Nat.shiftLeft_add_eq_or_of_lt hb, Nat.shiftLeft_eq]
  simp

/-- `commit()` adds a payload only where `ACC_MAX` has room for it (R178). -/
theorem Rx.commit_inv {accMax : Option Nat} {epoch : Nat} {r : Rx} (h : r.Receiving accMax) :
    (r.commit accMax epoch).Inv accMax epoch := by
  unfold Rx.commit
  split
  · exact Rx.Receiving.inv_of_plain h (by simp)
  · rename_i hroom
    obtain ⟨herr, hrrd, -, hbuf⟩ := h
    have hacc : ∀ m ∈ accMax, (r.acc ++ r.rbuf.bytes (rbufFree epoch) r.rlen.toNat).length ≤ m := by
      rintro m rfl
      simpa [accOverflows] using hroom
    exact Rx.Receiving.inv_of_plain ⟨herr, hrrd, hacc, hbuf⟩ (by simp)

theorem Rx.checksumByte_inv {accMax : Option Nat} {epoch : Nat} {r : Rx} (b : Byte) (h : r.Inv accMax epoch)
    (hctl : r.ctl = .csum) : (r.checksumByte accMax epoch b).Inv accMax epoch := by
  have hshifted : Rx.Receiving accMax { r with rcsum := shiftInByte r.rcsum b, ridx := r.ridx + 1#8 } :=
    h.receiving (by simp [hctl])
  obtain ⟨-, hcsum, -⟩ := h
  obtain ⟨hver, hlt, hsum, hbound, hwritten⟩ := hcsum hctl
  unfold Rx.checksumByte
  dsimp only
  split
  · split
    · exact Rx.commit_inv hshifted
    · exact hshifted.fail_inv _
  · rename_i hne
    have hnext : (r.ridx + 1#8).toNat = r.ridx.toNat + 1 := by bv_omega
    refine hshifted.inv_of_csum hctl hver ?_ hsum ?_ hwritten
    · show (r.ridx + 1#8).toNat < 4
      bv_omega
    · have hb := b.isLt
      have hmod := Nat.mod_le r.rcsum.toNat (2 ^ 24)
      have hpow : 2 ^ (8 * (r.ridx.toNat + 1)) = 2 ^ (8 * r.ridx.toNat) * 256 := by rw [Nat.mul_succ, Nat.pow_add]
      simp only [hnext, shiftInByte_toNat, hpow]
      omega

theorem Rx.acceptByte_inv {accMax : Option Nat} {epoch : Nat} {b : Byte} {r r' : Rx} (h : r.Inv accMax epoch)
    (ha : r.acceptByte accMax epoch b = .ok r') : r'.Inv accMax epoch := by
  have hcount : Rx.Inv accMax epoch { r with roff := r.roff + 1#32 } := h
  unfold Rx.acceptByte at ha
  split at ha <;> rename_i hctl
  · obtain rfl := Except.ok.inj ha
    exact Rx.Receiving.inv_of_plain (h.receiving (by simp [hctl])) (by simp [Rx.versionByte])
  · obtain rfl := Except.ok.inj ha
    exact Rx.Receiving.inv_of_plain (h.receiving (by simp [hctl])) (by simp [Rx.versionByte])
  · obtain rfl := Except.ok.inj ha
    exact Rx.lengthByte_inv b (hcount.receiving (by simp [hctl]))
  · exact Rx.payloadByte_inv hcount hctl ha
  · obtain rfl := Except.ok.inj ha
    exact Rx.checksumByte_inv b hcount hctl
  all_goals exact Except.ok.inj ha ▸ h

/-- The end of a stream is a valid message or an error (R180). -/
theorem Rx.endAtBoundary_inv {accMax : Option Nat} {epoch : Nat} {r : Rx} (h : r.Receiving accMax) :
    r.endAtBoundary.Inv accMax epoch := by
  unfold Rx.endAtBoundary
  split
  · rename_i hvalid
    obtain ⟨herr, -, hacc, hbuf⟩ := h
    exact ⟨by simp, by simp, by simp [herr], fun _ => hvalid, by simp, by simp, hacc, hbuf⟩
  · exact h.fail_inv _

theorem Rx.acceptEnd_inv {accMax : Option Nat} {epoch : Nat} {r : Rx} (h : r.Inv accMax epoch) :
    r.acceptEnd.Inv accMax epoch := by
  unfold Rx.acceptEnd
  split <;> rename_i hctl
  · exact Rx.endAtBoundary_inv (h.receiving (by simp [hctl]))
  · exact Rx.endAtBoundary_inv (h.receiving (by simp [hctl]))
  · exact (h.receiving (by simp [hctl])).fail_inv _
  · exact (h.receiving (by simp [hctl])).fail_inv _
  · exact (h.receiving (by simp [hctl])).fail_inv _
  all_goals exact h

theorem Rx.accept_inv {accMax : Option Nat} {epoch : Nat} {x : Symbol} {r r' : Rx} (h : r.Inv accMax epoch)
    (ha : r.accept accMax epoch x = .ok r') : r'.Inv accMax epoch := by
  cases x with
  | byte b => exact Rx.acceptByte_inv h ha
  | endMark => exact Except.ok.inj ha ▸ Rx.acceptEnd_inv h

theorem Rx.feed_inv {accMax : Option Nat} {epoch : Nat} {bs rest : List Byte} {r r' : Rx} (h : r.Inv accMax epoch)
    (hf : r.feed accMax epoch bs = .ok (r', rest)) : r'.Inv accMax epoch := by
  induction bs generalizing r with
  | nil => cases hf; exact h
  | cons b bs ih =>
    rw [Rx.feed_cons] at hf
    split at hf
    · split at hf
      · rename_i hb
        exact ih (Rx.acceptByte_inv h hb) hf
      · cases hf
    · cases hf
      exact h

/-- `RxOut` goes at most one past the message, where it gives `End` (R206). -/
theorem Rx.Inv.readNext {accMax : Option Nat} {epoch : Nat} {r : Rx} (h : r.Inv accMax epoch)
    (hpend : rxOutPend r = true) : Rx.Inv accMax epoch { r with rrd := r.rrd + 1 } := by
  obtain ⟨hdone, hle⟩ := (rxOutPend_iff r).mp hpend
  obtain ⟨hpayload, hcsum, herr, hvalid, -, -, hacc, hbuf⟩ := h
  exact ⟨hpayload, hcsum, herr, hvalid, fun _ => hdone, Nat.succ_le_succ hle, hacc, hbuf⟩

theorem Rx.Inv.clear {accMax : Option Nat} {epoch : Nat} {r : Rx} (h : r.Inv accMax epoch) :
    r.clear.Inv accMax epoch := by
  unfold Rx.clear
  split
  · exact h
  · obtain ⟨-, -, -, -, -, -, -, hbuf⟩ := h
    exact Rx.Receiving.inv_of_plain ⟨rfl, rfl, by simp, hbuf⟩ (by simp)

/-! ### The invariant at reset, after every operation and after every step -/

/-- Every register at its reset value satisfies the invariant, whatever the free values and `ACC_MAX` are (R45). -/
theorem Tx.reset_inv (epoch : Nat) : Tx.reset.Inv epoch :=
  Tx.inv_of_idle rfl rfl rfl (Nat.zero_le _) State.reset_buffers_wf.1

theorem Rx.reset_inv (accMax : Option Nat) (epoch : Nat) : Rx.reset.Inv accMax epoch :=
  Rx.Receiving.inv_of_plain ⟨rfl, rfl, fun _ _ => Nat.zero_le _, State.reset_buffers_wf.2⟩ (.inl rfl)

/-- Settles O58: both engines are at their reset values. -/
theorem invariantHoldsAtReset : Obligations.InvariantHoldsAtReset :=
  ⟨Tx.reset_inv _, Rx.reset_inv _ _⟩

theorem txIn_inv {w : SymWord} {s t : State} (h : s.Inv) (hx : txIn w s = .next t) : t.Inv := by
  obtain ⟨htx, hrx⟩ := h
  rcases txIn_next hx with ⟨hen, x, ha, rfl⟩ | ⟨-, rfl⟩
  · exact ⟨Tx.accept_inv htx hen ha, hrx⟩
  · exact ⟨htx, hrx⟩

theorem rxIn_inv {w : SymWord} {s t : State} (h : s.Inv) (hx : rxIn w s = .next t) : t.Inv := by
  obtain ⟨htx, hrx⟩ := h
  rcases rxIn_next hx with ⟨-, r, ha, rfl⟩ | ⟨-, rfl⟩
  · exact ⟨htx, Rx.accept_inv hrx ha⟩
  · exact ⟨htx, hrx⟩

theorem rxBytes_inv {bs : List Byte} {s t : State} (h : s.Inv) (hx : rxBytes bs s = .next t) : t.Inv := by
  obtain ⟨htx, hrx⟩ := h
  obtain ⟨r, rest, hf, rfl⟩ := rxBytes_next hx
  exact ⟨htx, Rx.feed_inv hrx hf⟩

/-- What `TXOUT` does: nothing while `tx_q` is empty, else it hands its head to the host (R205). -/
theorem execTxout_cases (s : State) :
    (s.tx.q = [] ∧ execTxout s = .next s) ∨
    (∃ x rest, s.tx.q = x :: rest ∧ execTxout s = .next ((s.setTx { s.tx with q := rest }).giveTxOut x)) := by
  unfold execTxout
  cases hq : s.tx.q with
  | nil => exact .inl ⟨rfl, rfl⟩
  | cons x rest => exact .inr ⟨x, rest, rfl, rfl⟩

theorem execTxout_inv {s t : State} (h : s.Inv) (hx : execTxout s = .next t) : t.Inv := by
  obtain ⟨htx, hrx⟩ := h
  rcases execTxout_cases s with ⟨-, he⟩ | ⟨x, rest, hq, he⟩ <;> obtain rfl := Host.Outcome.next.inj (he.symm.trans hx)
  · exact ⟨htx, hrx⟩
  · exact ⟨htx.tail hq, hrx⟩

/-- What `RXOUT` does: it hands the next symbol of a message to the host while one is left, else nothing (R206). -/
theorem execRxout_cases (s : State) :
    (rxOutPend s.rx = true ∧
      execRxout s = .next ((s.setRx { s.rx with rrd := s.rx.rrd + 1 }).giveRxOut s.rx.outSymbol)) ∨
    (rxOutPend s.rx = false ∧ execRxout s = .next s) := by
  unfold execRxout
  cases rxOutPend s.rx
  · exact .inr ⟨rfl, rfl⟩
  · exact .inl ⟨rfl, rfl⟩

theorem execRxout_inv {s t : State} (h : s.Inv) (hx : execRxout s = .next t) : t.Inv := by
  obtain ⟨htx, hrx⟩ := h
  rcases execRxout_cases s with ⟨hpend, he⟩ | ⟨-, he⟩ <;> obtain rfl := Host.Outcome.next.inj (he.symm.trans hx)
  · exact ⟨htx, hrx.readNext hpend⟩
  · exact ⟨htx, hrx⟩

theorem csrWritten_inv {s : State} (h : s.Inv) (n : Nat) (v : Word) : (csrWritten n v s).Inv := by
  obtain ⟨htx, hrx⟩ := h
  unfold csrWritten
  split
  · exact ⟨htx, hrx⟩
  · split
    · exact ⟨htx, hrx.clear⟩
    · exact ⟨htx, hrx⟩
  · exact ⟨htx, hrx⟩

/-- A function returns its value and writes no register (R46). -/
theorem returnsOrAborts_inv {r : Option Reply} {s t : State} (h : s.Inv) (hx : returnsOrAborts r s = .next t) :
    t.Inv := by
  obtain ⟨v, -, rfl⟩ := returnsOrAborts_next hx
  exact h

theorem exec_inv {i : Instr} {s t : State} (h : s.Inv) (hx : exec i s = .next t) : t.Inv := by
  cases i with
  | frame payload checksum => exact rxBytes_inv h hx
  | frameBadver version byte1 => exact rxBytes_inv h hx
  | txinB d => exact txIn_inv h hx
  | txinE x => exact txIn_inv h hx
  | rxinB d => exact rxIn_inv h hx
  | rxinE x => exact rxIn_inv h hx
  | txout => exact execTxout_inv h hx
  | rxout => exact execRxout_inv h hx
  | csrr n => cases hx; exact h
  | csrw n v => cases hx; exact csrWritten_inv h n v
  | rxclr v => cases hx; exact ⟨h.1, h.2.clear⟩
  | reset => cases hx; exact ⟨Tx.reset_inv _, Rx.reset_inv _ _⟩
  | checksum payload => cases hx; exact h
  | fromSource source capacity => exact returnsOrAborts_inv h hx
  | serialize packet => cases hx; exact h
  | deserialize bytes => cases hx; exact h
  | toPackets message capacity => exact returnsOrAborts_inv h hx
  | toPacketData message capacity => exact returnsOrAborts_inv h hx
  | fromPacketData bytes => cases hx; exact h

/-- What a fetch comes to differs from the state it starts at in the host side alone. -/
def Fetched.OnlyEnvChanged (s : State) : Fetched → Prop
  | .quiet t => ∃ e, t = s.setEnv e
  | .run _ t => ∃ e, t = s.setEnv e
  | .stop _ => True

theorem fetchLabel_onlyEnvChanged (o : Offer) (s : State) : (fetchLabel o s).OnlyEnvChanged s := by
  unfold fetchLabel
  split
  · exact ⟨_, rfl⟩
  · trivial

theorem fetchMove_onlyEnvChanged (m : Move) (s : State) : (fetchMove m s).OnlyEnvChanged s := by
  cases m with
  | txIn => simp only [fetchMove]; split <;> exact ⟨_, rfl⟩
  | rxIn => simp only [fetchMove]; split <;> exact ⟨_, rfl⟩
  | frame => simp only [fetchMove, fetchFrame]; split <;> exact ⟨_, rfl⟩
  | txOut => rw [fetchMove_txOut]; split <;> exact ⟨_, rfl⟩
  | rxOut => exact fetchLabel_onlyEnvChanged .rxOut s
  | csrRead n => exact fetchLabel_onlyEnvChanged (.csrRead n) s
  | csrWrite n v => exact fetchLabel_onlyEnvChanged (.csrWrite n v) s
  | reset => exact fetchLabel_onlyEnvChanged .reset s
  | call c => exact fetchLabel_onlyEnvChanged (.call c) s
  | offerTx ws => exact ⟨_, rfl⟩
  | offerRx ws => exact ⟨_, rfl⟩
  | withdrawTx n => exact ⟨_, rfl⟩
  | withdrawRx n => exact ⟨_, rfl⟩

theorem fetch_onlyEnvChanged (s : State) : (fetch s).OnlyEnvChanged s := by
  unfold fetch
  split
  · exact ⟨s.env, rfl⟩
  · exact fetchMove_onlyEnvChanged _ s

/-- Settles O59: a fetch leaves both engines as they are, and every operation keeps their invariants. -/
theorem invariantKeptByEveryStep : Obligations.InvariantKeptByEveryStep := by
  intro s t h hstep
  have hfetch := fetch_onlyEnvChanged s
  rcases step_cases s with ⟨u, hf, hs⟩ | ⟨i, u, hf, hs⟩ | ⟨r, -, hs⟩ <;> rw [hs] at hstep
  · rw [hf] at hfetch
    obtain ⟨e, rfl⟩ := hfetch
    cases hstep
    exact h
  · rw [hf] at hfetch
    obtain ⟨e, rfl⟩ := hfetch
    exact exec_inv (s := s.setEnv e) h hstep
  · cases hstep

end Sys2Proof.Machine

/-! ## Proofs: the unwritten bytes of the buffers (O57) -/

namespace Sys2Proof.Machine

/-! ### The TX engine reads only bytes of `tbuf` that have been written (R24, R44 b) -/

theorem Tx.emitFrame_free_irrelevant (epoch e : Nat) {n : Byte} {t : Tx} (h : ∀ i < n.toNat, (t.tbuf.read i).isSome) :
    t.emitFrame epoch n = t.emitFrame e n := by
  simp only [Tx.emitFrame, Tx.frameSymbols, Memory.bytes_free_irrelevant (tbufFree epoch) (tbufFree e) t.tbuf n.toNat h]

/-- The byte that fills a chunk is written before the frame is read out of `tbuf`. -/
theorem Tx.collect_free_irrelevant (epoch e : Nat) (b : Byte) {t : Tx} (h : ∀ i < t.tcnt.toNat, (t.tbuf.read i).isSome) :
    t.collect epoch b = t.collect e b := by
  unfold Tx.collect
  split
  · rfl
  · rename_i m hs
    obtain ⟨hi, rfl⟩ := Memory.store_eq_some.mp hs
    have hroom : t.tcnt.toNat < 255 := hi
    have hnext : (t.tcnt + 1#8).toNat = t.tcnt.toNat + 1 := by bv_omega
    have hwritten : ∀ i < (t.tcnt + 1#8).toNat, ((t.tbuf.write t.tcnt.toNat b).read i).isSome := by
      rw [hnext]
      exact Memory.written_write_succ b h
    simp only [Tx.chunkFull]
    rw [Tx.emitFrame_free_irrelevant epoch e hwritten]

theorem Tx.endOfMessage_free_irrelevant (epoch e : Nat) {t : Tx} (h : ∀ i < t.tcnt.toNat, (t.tbuf.read i).isSome) :
    t.endOfMessage epoch = t.endOfMessage e := by
  simp only [Tx.endOfMessage, Tx.emitFrame_free_irrelevant epoch e h]

theorem Tx.emptyMessage_free_irrelevant (epoch e : Nat) (t : Tx) : t.emptyMessage epoch = t.emptyMessage e := by
  simp only [Tx.emptyMessage, Tx.emitFrame_free_irrelevant epoch e (n := 0#8) (t := t) (by simp)]

theorem Tx.accept_free_irrelevant {epoch : Nat} {t : Tx} (h : t.Inv epoch) (hen : txInEnabled t = true) (e : Nat)
    (cap : Byte) (x : Symbol) : t.accept epoch cap x = t.accept e cap x := by
  by_cases hi : t.ctl = .idle
  · simp only [Tx.accept, hi, if_true, Tx.messageStart]
    split
    · rfl
    · cases x with
      | endMark => exact congrArg Except.ok (Tx.emptyMessage_free_irrelevant epoch e _)
      | byte b =>
        exact Tx.collect_free_irrelevant epoch e b (by simp)
          (t := { t with tcap := cap, ctl := .collect, tcnt := 0#8, tsum := 0#32 })
  · obtain ⟨-, hcollect, -⟩ := h
    obtain ⟨-, -, -, hwritten⟩ := hcollect (Tx.ctl_eq_collect hen hi)
    simp only [Tx.accept, hi, if_false]
    cases x with
    | endMark => exact congrArg Except.ok (Tx.endOfMessage_free_irrelevant epoch e hwritten)
    | byte b => exact Tx.collect_free_irrelevant epoch e b hwritten

/-! ### The RX engine reads only bytes of `rbuf` that have been written (R29, R44 e) -/

theorem Rx.commit_free_irrelevant (accMax : Option Nat) (epoch e : Nat) {r : Rx}
    (h : ∀ i < r.rlen.toNat, (r.rbuf.read i).isSome) : r.commit accMax epoch = r.commit accMax e := by
  simp only [Rx.commit, Memory.bytes_free_irrelevant (rbufFree epoch) (rbufFree e) r.rbuf r.rlen.toNat h]

theorem Rx.checksumByte_free_irrelevant (accMax : Option Nat) (epoch e : Nat) (b : Byte) {r : Rx}
    (h : ∀ i < r.rlen.toNat, (r.rbuf.read i).isSome) :
    r.checksumByte accMax epoch b = r.checksumByte accMax e b := by
  have hcommit := Rx.commit_free_irrelevant accMax epoch e
    (r := { r with rcsum := shiftInByte r.rcsum b, ridx := r.ridx + 1#8 }) h
  simp only [Rx.checksumByte, hcommit]

/-- Only the checksum bytes, the last of which commits the payload, can read `rbuf`. -/
theorem Rx.acceptByte_free_irrelevant {accMax : Option Nat} {epoch : Nat} {r : Rx} (h : r.Inv accMax epoch) (e : Nat)
    (b : Byte) : r.acceptByte accMax epoch b = r.acceptByte accMax e b := by
  cases hctl : r.ctl with
  | csum =>
    obtain ⟨-, hcsum, -⟩ := h
    obtain ⟨-, -, -, -, hwritten⟩ := hcsum hctl
    have hbyte := Rx.checksumByte_free_irrelevant accMax epoch e b (r := { r with roff := r.roff + 1#32 }) hwritten
    simp only [Rx.acceptByte, hbyte]
  | _ => simp only [Rx.acceptByte, hctl]

theorem Rx.accept_free_irrelevant {accMax : Option Nat} {epoch : Nat} {r : Rx} (h : r.Inv accMax epoch) (e : Nat)
    (x : Symbol) : r.accept accMax epoch x = r.accept accMax e x := by
  cases x with
  | byte b => exact Rx.acceptByte_free_irrelevant h e b
  | endMark => rfl

theorem Rx.feed_free_irrelevant {accMax : Option Nat} {epoch : Nat} {r : Rx} (h : r.Inv accMax epoch) (e : Nat)
    (bs : List Byte) : r.feed accMax epoch bs = r.feed accMax e bs := by
  induction bs generalizing r with
  | nil => rfl
  | cons b bs ih =>
    rw [Rx.feed_cons, Rx.feed_cons, ← Rx.acceptByte_free_irrelevant h e b]
    cases ha : r.acceptByte accMax epoch b with
    | error f => rfl
    | ok r' => simp only [ih (Rx.acceptByte_inv h ha)]

/-! ### Every operation -/

theorem txIn_free_irrelevant {w : SymWord} {s t : State} (h : s.Inv) (e : Nat) (hx : txIn w s = .next t) :
    txIn w { s with epoch := e } = .next { t with epoch := e } := by
  rcases txIn_next hx with ⟨hen, x, ha, rfl⟩ | ⟨hen, rfl⟩
  · rw [Tx.accept_free_irrelevant h.1 hen e] at ha
    simp only [txIn, hen, ha]
    rfl
  · simp only [txIn, hen]
    rfl

theorem rxIn_free_irrelevant {w : SymWord} {s t : State} (h : s.Inv) (e : Nat) (hx : rxIn w s = .next t) :
    rxIn w { s with epoch := e } = .next { t with epoch := e } := by
  rcases rxIn_next hx with ⟨hen, r, ha, rfl⟩ | ⟨hen, rfl⟩
  · rw [Rx.accept_free_irrelevant h.2 e] at ha
    simp only [rxIn, hen, ha]
    rfl
  · simp only [rxIn, hen]
    rfl

theorem rxBytes_free_irrelevant {bs : List Byte} {s t : State} (h : s.Inv) (e : Nat) (hx : rxBytes bs s = .next t) :
    rxBytes bs { s with epoch := e } = .next { t with epoch := e } := by
  obtain ⟨r, rest, hf, rfl⟩ := rxBytes_next hx
  rw [Rx.feed_free_irrelevant h.2 e] at hf
  simp only [rxBytes, hf]
  rfl

theorem execTxout_free_irrelevant {s t : State} (e : Nat) (hx : execTxout s = .next t) :
    execTxout { s with epoch := e } = .next { t with epoch := e } := by
  rcases execTxout_cases s with ⟨hq, he⟩ | ⟨x, rest, hq, he⟩ <;> obtain rfl := Host.Outcome.next.inj (he.symm.trans hx)
  · simp only [execTxout, hq]
  · simp only [execTxout, hq]
    rfl

theorem execRxout_free_irrelevant {s t : State} (e : Nat) (hx : execRxout s = .next t) :
    execRxout { s with epoch := e } = .next { t with epoch := e } := by
  rcases execRxout_cases s with ⟨hp, he⟩ | ⟨hp, he⟩ <;> obtain rfl := Host.Outcome.next.inj (he.symm.trans hx) <;>
    simp only [execRxout, hp] <;> rfl

theorem csrWritten_free_irrelevant (n : Nat) (v : Word) (s : State) (e : Nat) :
    csrWritten n v { s with epoch := e } = { csrWritten n v s with epoch := e } := by
  unfold csrWritten
  split
  · rfl
  · split <;> rfl
  · rfl

theorem returnsOrAborts_free_irrelevant {r : Option Reply} {s t : State} (e : Nat)
    (hx : returnsOrAborts r s = .next t) :
    returnsOrAborts r { s with epoch := e } = .next { t with epoch := e } := by
  obtain ⟨v, rfl, rfl⟩ := returnsOrAborts_next hx
  rfl

/-- Settles O57: the engines read only buffer bytes that the invariant says are written, nothing else reads a buffer. -/
theorem unwrittenBytesNeverMatter : Obligations.UnwrittenBytesNeverMatter := by
  intro i s t e h hreset hx
  cases i with
  | frame payload checksum => exact rxBytes_free_irrelevant h e hx
  | frameBadver version byte1 => exact rxBytes_free_irrelevant h e hx
  | txinB d => exact txIn_free_irrelevant h e hx
  | txinE x => exact txIn_free_irrelevant h e hx
  | rxinB d => exact rxIn_free_irrelevant h e hx
  | rxinE x => exact rxIn_free_irrelevant h e hx
  | txout => exact execTxout_free_irrelevant e hx
  | rxout => exact execRxout_free_irrelevant e hx
  | csrr n => cases hx; rfl
  | csrw n v =>
    cases hx
    exact congrArg Host.Outcome.next (csrWritten_free_irrelevant n v s e)
  | rxclr v => cases hx; rfl
  | reset => exact absurd rfl hreset
  | checksum payload => cases hx; rfl
  | fromSource source capacity => exact returnsOrAborts_free_irrelevant e hx
  | serialize packet => cases hx; rfl
  | deserialize bytes => cases hx; rfl
  | toPackets message capacity => exact returnsOrAborts_free_irrelevant e hx
  | toPacketData message capacity => exact returnsOrAborts_free_irrelevant e hx
  | fromPacketData bytes => cases hx; rfl

end Sys2Proof.Machine

/-! ## Proofs: the refused calls, hidden state, the two engines apart, and reset (O7, O41, O54, O8) -/

namespace Sys2Proof.Machine

/-! ### Refusals -/

theorem decodeCapacity_error {capacity : Nat} {f : Byte → Instr} {why : Reject} :
    decodeCapacity capacity f = .error why ↔ 255 < capacity ∧ why = .capacityAbove255 := by
  unfold decodeCapacity
  split
  · simp; omega
  · simp [eq_comm]; omega

/-- The calls the decoder rejects: a capacity above 255 (93 U4), or four fields that are no Packet (R100). -/
theorem decodeCall_error {c : Call} {why : Reject} (h : decodeCall c = .error why) :
    (∃ m n, 255 < n ∧ (c = .fromSource m n ∨ c = .toPackets m n ∨ c = .toPacketData m n) ∧ why = .capacityAbove255) ∨
    (∃ p : Packet, p.wf = false ∧ c = .serialize p ∧ why = .notAPacket) := by
  cases c with
  | checksum payload => cases h
  | deserialize bytes => cases h
  | fromPacketData bytes => cases h
  | fromSource m n =>
    obtain ⟨hn, hwhy⟩ := decodeCapacity_error.mp h
    exact .inl ⟨m, n, hn, .inl rfl, hwhy⟩
  | toPackets m n =>
    obtain ⟨hn, hwhy⟩ := decodeCapacity_error.mp h
    exact .inl ⟨m, n, hn, .inr (.inl rfl), hwhy⟩
  | toPacketData m n =>
    obtain ⟨hn, hwhy⟩ := decodeCapacity_error.mp h
    exact .inl ⟨m, n, hn, .inr (.inr rfl), hwhy⟩
  | serialize p =>
    simp only [decodeCall] at h
    split at h
    · cases h
    · rename_i hwf
      cases h
      exact .inr ⟨p, by simpa using hwf, rfl, rfl⟩

/-- A step whose move is a call the decoder rejects is refused. -/
theorem step_call_rejected {s : State} {c : Call} {ms : List Move} {why : Reject} (hm : s.env.moves = .call c :: ms)
    (hd : decodeCall c = .error why) : step s = .refused (.rejected why) := by
  simp only [step, fetch, hm, fetchMove, fetchLabel, decode, hd]

/-- The only move a fetch refuses is a call the decoder rejects. -/
theorem fetchMove_stop {m : Move} {s : State} {r : Refusal} (h : fetchMove m s = .stop r) :
    ∃ c why, m = .call c ∧ decodeCall c = .error why ∧ r = .rejected why := by
  cases m with
  | txIn => simp only [fetchMove] at h; split at h <;> cases h
  | rxIn => simp only [fetchMove] at h; split at h <;> cases h
  | frame => simp only [fetchMove, fetchFrame] at h; split at h <;> cases h
  | txOut => rw [fetchMove_txOut] at h; split at h <;> cases h
  | rxOut => cases h
  | csrRead n => cases h
  | csrWrite n v => cases h
  | reset => cases h
  | offerTx ws => cases h
  | offerRx ws => cases h
  | withdrawTx n => cases h
  | withdrawRx n => cases h
  | call c =>
    simp only [fetchMove, fetchLabel, decode] at h
    split at h
    · cases h
    · rename_i why hd
      cases h
      exact ⟨c, why, rfl, hd, rfl⟩

theorem txIn_ne_refused (w : SymWord) (s : State) (r : Refusal) : txIn w s ≠ .refused r := by
  unfold txIn
  split
  · split <;> simp
  · simp

theorem rxIn_ne_refused (w : SymWord) (s : State) (r : Refusal) : rxIn w s ≠ .refused r := by
  unfold rxIn
  split
  · split <;> simp
  · simp

theorem rxBytes_ne_refused (bs : List Byte) (s : State) (r : Refusal) : rxBytes bs s ≠ .refused r := by
  unfold rxBytes
  split <;> simp

theorem returnsOrAborts_ne_refused (v : Option Reply) (s : State) (r : Refusal) : returnsOrAborts v s ≠ .refused r := by
  unfold returnsOrAborts
  split <;> simp

/-- Every operation of the table has a meaning. -/
theorem exec_ne_refused (i : Instr) (s : State) (r : Refusal) : exec i s ≠ .refused r := by
  cases i with
  | frame payload checksum => exact rxBytes_ne_refused _ s r
  | frameBadver version byte1 => exact rxBytes_ne_refused _ s r
  | txinB d => exact txIn_ne_refused _ s r
  | txinE x => exact txIn_ne_refused _ s r
  | rxinB d => exact rxIn_ne_refused _ s r
  | rxinE x => exact rxIn_ne_refused _ s r
  | txout =>
    obtain ⟨t, ht⟩ := execTxout_completes s
    simp [exec, ht]
  | rxout =>
    obtain ⟨t, ht⟩ := execRxout_completes s
    simp [exec, ht]
  | csrr n => exact nofun
  | csrw n v => exact nofun
  | rxclr v => exact nofun
  | reset => exact nofun
  | checksum payload => exact nofun
  | fromSource source capacity => exact returnsOrAborts_ne_refused _ s r
  | serialize packet => exact nofun
  | deserialize bytes => exact nofun
  | toPackets message capacity => exact returnsOrAborts_ne_refused _ s r
  | toPacketData message capacity => exact returnsOrAborts_ne_refused _ s r
  | fromPacketData bytes => exact nofun

/-- A refused step is the step of a call the decoder rejects. -/
theorem step_refused {s : State} {r : Refusal} (h : step s = .refused r) :
    ∃ c ms why, s.env.moves = .call c :: ms ∧ decodeCall c = .error why ∧ r = .rejected why := by
  rcases step_cases s with ⟨t, -, hs⟩ | ⟨i, t, -, hs⟩ | ⟨q, hf, hs⟩ <;> rw [hs] at h
  · cases h
  · exact absurd h (exec_ne_refused i t r)
  · cases h
    cases hm : s.env.moves with
    | nil => simp [fetch, hm] at hf
    | cons m ms =>
      simp only [fetch, hm] at hf
      obtain ⟨c, why, rfl, hd, hr⟩ := fetchMove_stop hf
      exact ⟨c, ms, why, rfl, hd, hr⟩

/-- Settles O7: a step is refused exactly where the decoder rejects a call. -/
theorem onlyInexpressibleCallsAreRefused : Obligations.OnlyInexpressibleCallsAreRefused := by
  refine ⟨fun s m c ms hc => ?_, fun s p ms hp hm => ?_, fun s r h => ?_⟩
  · have hd (f : Byte → Instr) : decodeCapacity c f = .error .capacityAbove255 := decodeCapacity_error.mpr ⟨hc, rfl⟩
    exact ⟨fun hm => step_call_rejected hm (hd _), fun hm => step_call_rejected hm (hd _),
      fun hm => step_call_rejected hm (hd _)⟩
  · exact step_call_rejected hm (by simp [decodeCall, hp])
  · obtain ⟨c, ms, why, hm, hd, rfl⟩ := step_refused h
    refine ⟨c, ms, hm, ?_⟩
    rcases decodeCall_error hd with ⟨m, n, hn, hc, rfl⟩ | ⟨p, hp, hc, rfl⟩
    · exact .inl ⟨m, n, hn, hc, rfl⟩
    · exact .inr ⟨p, hp, hc, rfl⟩

/-! ### What the host can see (R20, R30, R40) -/

/-- The two states agree in everything the host can read or take: `acc` and `rrd` only in `RXS_DONE`. -/
structure State.LooksLike (s' s : State) : Prop where
  cap : s'.cap = s.cap
  txCtl : s'.tx.ctl = s.tx.ctl
  tcap : s'.tx.tcap = s.tx.tcap
  tcnt : s'.tx.tcnt = s.tx.tcnt
  q : s'.tx.q = s.tx.q
  rxCtl : s'.rx.ctl = s.rx.ctl
  rerr : s'.rx.rerr = s.rx.rerr
  roff : s'.rx.roff = s.rx.roff
  rfoff : s'.rx.rfoff = s.rx.rfoff
  env : s'.env = s.env
  message : s.rx.ctl = .done → s'.rx.acc = s.rx.acc ∧ s'.rx.rrd = s.rx.rrd

section
variable {s s' : State} (h : s'.LooksLike s)
include h

theorem State.LooksLike.txStatus_eq : txStatus s'.tx = txStatus s.tx := by
  simp only [txStatus, txPend, h.txCtl, h.tcap, h.tcnt, h.q]

theorem State.LooksLike.rxOutPend_eq : rxOutPend s'.rx = rxOutPend s.rx := by
  by_cases hd : s.rx.ctl = .done
  · obtain ⟨hacc, hrrd⟩ := h.message hd
    simp only [rxOutPend, h.rxCtl, hacc, hrrd]
  · have hnot : (s.rx.ctl == .done) = false := beq_eq_false_iff_ne.mpr hd
    simp only [rxOutPend, h.rxCtl, hnot, Bool.false_and]

theorem State.LooksLike.rxStatus_eq : rxStatus s'.rx = rxStatus s.rx := by
  simp only [rxStatus, h.rxOutPend_eq, h.rerr, h.rxCtl]

theorem State.LooksLike.rxLen_eq : rxLen s'.rx = rxLen s.rx := by
  simp only [rxLen, h.rxCtl]
  split
  · rename_i hd
    rw [(h.message hd).1]
  · rfl

theorem State.LooksLike.csrValue_eq (n : Nat) : csrValue n s' = csrValue n s := by
  simp only [csrValue, h.cap, h.txStatus_eq, h.rxStatus_eq, h.rxLen_eq, h.roff, h.rfoff]

theorem State.LooksLike.csrr_same (n : Nat) :
    ∃ e, exec (.csrr n) s = .next { s with env := e } ∧ exec (.csrr n) s' = .next { s' with env := e } := by
  refine ⟨(s.answer (.csr (csrValue n s))).env, rfl, ?_⟩
  simp only [exec, execCsrr, State.answer, State.setEnv, h.csrValue_eq, h.env]

theorem State.LooksLike.txout_same :
    ∃ q e, exec .txout s = .next { s with tx := { s.tx with q := q }, env := e } ∧
      exec .txout s' = .next { s' with tx := { s'.tx with q := q }, env := e } := by
  rcases execTxout_cases s with ⟨hq, hx⟩ | ⟨x, rest, hq, hx⟩
  · have hx' : execTxout s' = .next s' := by simp only [execTxout, h.q, hq]
    refine ⟨s.tx.q, s.env, hx, ?_⟩
    rw [← h.q, ← h.env]
    exact hx'
  · refine ⟨rest, (s.giveTxOut x).env, hx, ?_⟩
    simp only [exec, execTxout, h.q, hq, State.giveTxOut, State.setEnv, State.setTx, h.env]

/-- Where `RXOUT` gives a symbol the engine is in `RXS_DONE`, and there `acc` and `rrd` are compared (R206). -/
theorem State.LooksLike.rxout_same :
    ∃ k k' e, exec .rxout s = .next { s with rx := { s.rx with rrd := k }, env := e } ∧
      exec .rxout s' = .next { s' with rx := { s'.rx with rrd := k' }, env := e } := by
  rcases execRxout_cases s with ⟨hp, hx⟩ | ⟨hp, hx⟩
  · obtain ⟨hacc, hrrd⟩ := h.message ((rxOutPend_iff s.rx).mp hp).1
    refine ⟨s.rx.rrd + 1, s'.rx.rrd + 1, (s.giveRxOut s.rx.outSymbol).env, hx, ?_⟩
    simp only [exec, execRxout, h.rxOutPend_eq, hp, if_true, State.giveRxOut, State.setEnv, State.setRx, h.env,
      Rx.outSymbol, hacc, hrrd]
  · have hx' : execRxout s' = .next s' := by simp [execRxout, h.rxOutPend_eq, hp]
    refine ⟨s.rx.rrd, s'.rx.rrd, s.env, hx, ?_⟩
    rw [← h.env]
    exact hx'

end

theorem execRxout_of_not_done {s : State} (hd : s.rx.ctl ≠ .done) : execRxout s = .next s := by
  rcases execRxout_cases s with ⟨hp, -⟩ | ⟨-, hx⟩
  · exact absurd ((rxOutPend_iff s.rx).mp hp).1 hd
  · exact hx

/-- Settles O41: the CSRs and both output ports are functions of what `State.LooksLike` compares. -/
theorem hiddenStateIsNotHostReadable : Obligations.HiddenStateIsNotHostReadable := by
  intro s s' hcap htxCtl htcap htcnt hq hrxCtl hrerr hroff hrfoff henv hmessage
  have h : s'.LooksLike s := ⟨hcap, htxCtl, htcap, htcnt, hq, hrxCtl, hrerr, hroff, hrfoff, henv, hmessage⟩
  exact ⟨h.csrr_same, h.txout_same, h.rxout_same, fun hd =>
    ⟨execRxout_of_not_done hd, execRxout_of_not_done (hrxCtl ▸ hd)⟩⟩

/-! ### The engines apart (R43) -/

/-- The operation leaves RX state and `CAP` unchanged and does the same beside any RX state. -/
def ApartFromRx (op : State → Out) : Prop :=
  ∀ s t, op s = .next t → t.rx = s.rx ∧ t.cap = s.cap ∧ ∀ r, op { s with rx := r } = .next { t with rx := r }

/-- The operation leaves TX state and `CAP` unchanged and does the same beside any TX state and any `CAP`. -/
def ApartFromTx (op : State → Out) : Prop :=
  ∀ s t, op s = .next t →
    t.tx = s.tx ∧ t.cap = s.cap ∧ ∀ x c, op { s with tx := x, cap := c } = .next { t with tx := x, cap := c }

theorem txIn_apartFromRx (w : SymWord) : ApartFromRx (txIn w) := by
  intro s t h
  rcases txIn_next h with ⟨hen, x, ha, rfl⟩ | ⟨hen, rfl⟩ <;> refine ⟨rfl, rfl, fun r => ?_⟩
  · simp only [txIn, hen, ha]
    rfl
  · simp only [txIn, hen]
    rfl

theorem execTxout_apartFromRx : ApartFromRx execTxout := by
  intro s t h
  rcases execTxout_cases s with ⟨hq, hx⟩ | ⟨x, rest, hq, hx⟩ <;>
    obtain rfl := Host.Outcome.next.inj (hx.symm.trans h) <;> refine ⟨rfl, rfl, fun r => ?_⟩
  · simp only [execTxout, hq]
  · simp only [execTxout, hq]
    rfl

theorem rxIn_apartFromTx (w : SymWord) : ApartFromTx (rxIn w) := by
  intro s t h
  rcases rxIn_next h with ⟨hen, r, ha, rfl⟩ | ⟨hen, rfl⟩ <;> refine ⟨rfl, rfl, fun x c => ?_⟩
  · simp only [rxIn, hen, ha]
    rfl
  · simp only [rxIn, hen]
    rfl

theorem rxBytes_apartFromTx (bs : List Byte) : ApartFromTx (rxBytes bs) := by
  intro s t h
  obtain ⟨r, rest, hf, rfl⟩ := rxBytes_next h
  refine ⟨rfl, rfl, fun x c => ?_⟩
  simp only [rxBytes, hf]
  rfl

theorem execRxout_apartFromTx : ApartFromTx execRxout := by
  intro s t h
  rcases execRxout_cases s with ⟨hp, hx⟩ | ⟨hp, hx⟩ <;>
    obtain rfl := Host.Outcome.next.inj (hx.symm.trans h) <;> refine ⟨rfl, rfl, fun x c => ?_⟩ <;>
    simp only [execRxout, hp] <;> rfl

theorem execRxclr_apartFromTx (v : Word) : ApartFromTx (execRxclr v) := by
  intro s t h
  cases h
  exact ⟨rfl, rfl, fun _ _ => rfl⟩

theorem exec_apartFromTx_of_isWireInput {i : Instr} (h : isWireInput i = true) : ApartFromTx (exec i) := by
  cases i with
  | frame payload checksum => exact rxBytes_apartFromTx _
  | frameBadver version byte1 => exact rxBytes_apartFromTx _
  | rxinB d => exact rxIn_apartFromTx _
  | rxinE x => exact rxIn_apartFromTx _
  | _ => cases h

/-- Settles O54: each TX operation stays apart from RX state, each RX operation from TX state and `CAP`. -/
theorem enginesShareNothing : Obligations.EnginesShareNothing := by
  intro i s t hx
  refine ⟨fun hi => ?_, fun hi => ?_⟩
  · rcases hi with ⟨d, rfl | rfl⟩ | rfl
    · exact txIn_apartFromRx _ s t hx
    · exact txIn_apartFromRx _ s t hx
    · exact execTxout_apartFromRx s t hx
  · rcases hi with hi | rfl | ⟨v, rfl⟩
    · exact exec_apartFromTx_of_isWireInput hi s t hx
    · exact execRxout_apartFromTx s t hx
    · exact execRxclr_apartFromTx v s t hx

/-! ### The state right after reset (R45) -/

/-- Settles O8: the values are those `State.reset` is defined with. -/
theorem stateResetHoldsTheSpecValues : Obligations.StateResetHoldsTheSpecValues :=
  ⟨rfl, rfl, rfl, rfl, rfl⟩

end Sys2Proof.Machine

/-! ## Proofs: what each operation does to the engines; the output queue, `acc` and the buffers (O20, O35, O56) -/

namespace Sys2Proof.Machine

/-! ### The TX engine: what an accepted symbol does to `tx_q` and `tbuf` (R151 to R157) -/

@[simp] theorem Tx.emitFrame_q (epoch : Nat) (n : Byte) (t : Tx) :
    (t.emitFrame epoch n).q = t.q ++ t.frameSymbols epoch n := rfl

@[simp] theorem Tx.emitFrame_tbuf (epoch : Nat) (n : Byte) (t : Tx) : (t.emitFrame epoch n).tbuf = t.tbuf := rfl

@[simp] theorem Tx.emptyMessage_q (epoch : Nat) (t : Tx) :
    (t.emptyMessage epoch).q = t.q ++ t.frameSymbols epoch 0#8 ++ [.endMark] := rfl

@[simp] theorem Tx.emptyMessage_tbuf (epoch : Nat) (t : Tx) : (t.emptyMessage epoch).tbuf = t.tbuf := rfl

@[simp] theorem Tx.endOfMessage_q (epoch : Nat) (t : Tx) :
    (t.endOfMessage epoch).q =
      t.q ++ (if t.tcnt = 0#8 then [] else t.frameSymbols epoch t.tcnt) ++ [.endMark] := by
  unfold Tx.endOfMessage
  split <;> simp

@[simp] theorem Tx.endOfMessage_tbuf (epoch : Nat) (t : Tx) : (t.endOfMessage epoch).tbuf = t.tbuf := by
  unfold Tx.endOfMessage
  split <;> rfl

theorem Tx.collect_q_prefix {epoch : Nat} {b : Byte} {t t' : Tx} (h : t.collect epoch b = .ok t') : t.q <+: t'.q := by
  obtain ⟨-, ⟨-, rfl⟩ | ⟨-, rfl⟩⟩ := Tx.collect_ok h
  · exact List.prefix_refl _
  · exact List.prefix_append _ _

/-- The only store of `collect` is at the index `tcnt` (R153). -/
theorem Tx.collect_tbuf {epoch : Nat} {b : Byte} {t t' : Tx} (h : t.collect epoch b = .ok t') :
    t'.tbuf = t.tbuf.write t.tcnt.toNat b := by
  obtain ⟨-, ⟨-, rfl⟩ | ⟨-, rfl⟩⟩ := Tx.collect_ok h <;> rfl

/-- An accepted symbol only adds symbols at the end of `tx_q` (R33, R155 to R157). -/
theorem Tx.accept_q_prefix {epoch : Nat} {cap : Byte} {x : Symbol} {t t' : Tx}
    (h : t.accept epoch cap x = .ok t') : t.q <+: t'.q := by
  rcases Tx.accept_cases epoch cap x t with
    ⟨-, -, hx⟩ | ⟨-, -, -, hx⟩ | ⟨-, -, b, -, hx⟩ | ⟨-, -, hx⟩ | ⟨-, b, -, hx⟩ <;> rw [hx] at h
  · obtain rfl := Except.ok.inj h
    exact List.prefix_refl _
  · obtain rfl := Except.ok.inj h
    simp
  · exact Tx.collect_q_prefix (t := { t with tcap := cap, ctl := .collect, tcnt := 0#8, tsum := 0#32 }) h
  · obtain rfl := Except.ok.inj h
    simp
  · exact Tx.collect_q_prefix h

/-- Where `TxIn` stores a byte: `tcnt` is 0 when a message starts, and inside one it is the next index (R151, R153). -/
def Tx.storeIndex (t : Tx) : Nat := if t.ctl = .idle then 0 else t.tcnt.toNat

/-- An accepted symbol changes no byte of `tbuf` but, when it is a byte, the one at `storeIndex`. -/
theorem Tx.accept_tbuf_read {epoch : Nat} {cap : Byte} {x : Symbol} {t t' : Tx} {a : Nat}
    (h : t.accept epoch cap x = .ok t') (ha : ∀ b, x = .byte b → a ≠ t.storeIndex) :
    t'.tbuf.read a = t.tbuf.read a := by
  rcases Tx.accept_cases epoch cap x t with
    ⟨-, -, hx⟩ | ⟨-, -, -, hx⟩ | ⟨hi, -, b, hb, hx⟩ | ⟨-, -, hx⟩ | ⟨hi, b, hb, hx⟩ <;> rw [hx] at h
  · obtain rfl := Except.ok.inj h
    rfl
  · obtain rfl := Except.ok.inj h
    rfl
  · have hne : a ≠ 0 := by simpa [Tx.storeIndex, hi] using ha b hb
    rw [Tx.collect_tbuf h]
    exact Memory.read_write_other _ b hne
  · obtain rfl := Except.ok.inj h
    rw [Tx.endOfMessage_tbuf]
  · have hne : a ≠ t.tcnt.toNat := by simpa [Tx.storeIndex, hi] using ha b hb
    rw [Tx.collect_tbuf h]
    exact Memory.read_write_other _ b hne

/-! ### The RX engine: what an accepted symbol does to `acc` and `rbuf` (R174 to R181) -/

@[simp] theorem Rx.lengthByte_acc (b : Byte) (r : Rx) : (r.lengthByte b).acc = r.acc := by
  unfold Rx.lengthByte
  split <;> rfl

@[simp] theorem Rx.lengthByte_rbuf (b : Byte) (r : Rx) : (r.lengthByte b).rbuf = r.rbuf := by
  unfold Rx.lengthByte
  split <;> rfl

theorem Rx.payloadByte_acc {b : Byte} {r r' : Rx} (h : r.payloadByte b = .ok r') : r'.acc = r.acc := by
  obtain ⟨-, ⟨-, rfl⟩ | ⟨-, rfl⟩⟩ := Rx.payloadByte_ok h <;> rfl

/-- The only store of `payload_byte` is at the index `ridx` (R176). -/
theorem Rx.payloadByte_rbuf {b : Byte} {r r' : Rx} (h : r.payloadByte b = .ok r') :
    r'.rbuf = r.rbuf.write r.ridx.toNat b := by
  obtain ⟨-, ⟨-, rfl⟩ | ⟨-, rfl⟩⟩ := Rx.payloadByte_ok h <;> rfl

/-- `commit()` appends the payload to `acc`, or aborts and leaves it as it is (R178, R183). -/
theorem Rx.commit_acc_prefix (accMax : Option Nat) (epoch : Nat) (r : Rx) : r.acc <+: (r.commit accMax epoch).acc := by
  unfold Rx.commit
  split
  · exact List.prefix_refl _
  · exact List.prefix_append _ _

@[simp] theorem Rx.commit_rbuf (accMax : Option Nat) (epoch : Nat) (r : Rx) : (r.commit accMax epoch).rbuf = r.rbuf := by
  unfold Rx.commit
  split <;> rfl

/-- What a checksum byte can do: count on, or at the fourth commit the frame or fail (R177, R179). -/
theorem Rx.checksumByte_cases (accMax : Option Nat) (epoch : Nat) (b : Byte) (r : Rx) :
    ∃ r', r'.acc = r.acc ∧ r'.rbuf = r.rbuf ∧
      (r.checksumByte accMax epoch b = r' ∨ r.checksumByte accMax epoch b = r'.commit accMax epoch ∨
        r.checksumByte accMax epoch b = r'.fail .invalidChecksum) := by
  refine ⟨{ r with rcsum := shiftInByte r.rcsum b, ridx := r.ridx + 1#8 }, rfl, rfl, ?_⟩
  unfold Rx.checksumByte
  dsimp only
  split
  · split
    · exact .inr (.inl rfl)
    · exact .inr (.inr rfl)
  · exact .inl rfl

theorem Rx.checksumByte_acc_prefix (accMax : Option Nat) (epoch : Nat) (b : Byte) (r : Rx) :
    r.acc <+: (r.checksumByte accMax epoch b).acc := by
  obtain ⟨r', hacc, -, hr | hr | hr⟩ := Rx.checksumByte_cases accMax epoch b r <;> rw [hr, ← hacc]
  · exact Rx.commit_acc_prefix _ _ _
  · exact List.prefix_refl _

@[simp] theorem Rx.checksumByte_rbuf (accMax : Option Nat) (epoch : Nat) (b : Byte) (r : Rx) :
    (r.checksumByte accMax epoch b).rbuf = r.rbuf := by
  obtain ⟨r', -, hrbuf, hr | hr | hr⟩ := Rx.checksumByte_cases accMax epoch b r <;> simp [hr, hrbuf]

/-- What the RX engine can do with an accepted byte, by the state it is in (R171, R173). -/
theorem Rx.acceptByte_ok {accMax : Option Nat} {epoch : Nat} {b : Byte} {r r' : Rx}
    (h : r.acceptByte accMax epoch b = .ok r') :
    (r.atBoundary ∧ r' = Rx.versionByte b { r with roff := r.roff + 1#32 }) ∨
    (r.ctl = .len ∧ r' = Rx.lengthByte b { r with roff := r.roff + 1#32 }) ∨
    (r.ctl = .payload ∧ Rx.payloadByte b { r with roff := r.roff + 1#32 } = .ok r') ∨
    (r.ctl = .csum ∧ r' = Rx.checksumByte accMax epoch b { r with roff := r.roff + 1#32 }) ∨
    (r.terminal ∧ r' = r) := by
  unfold Rx.acceptByte at h
  cases hctl : r.ctl <;> simp only [hctl] at h
  case idle => exact .inl ⟨.inl hctl, (Except.ok.inj h).symm⟩
  case acc => exact .inl ⟨.inr hctl, (Except.ok.inj h).symm⟩
  case len => exact .inr (.inl ⟨rfl, (Except.ok.inj h).symm⟩)
  case payload => exact .inr (.inr (.inl ⟨rfl, h⟩))
  case csum => exact .inr (.inr (.inr (.inl ⟨rfl, (Except.ok.inj h).symm⟩)))
  all_goals exact .inr (.inr (.inr (.inr ⟨by simp [Rx.terminal, hctl], (Except.ok.inj h).symm⟩)))

/-- An accepted byte only adds to the end of `acc` (R30, R178). -/
theorem Rx.acceptByte_acc_prefix {accMax : Option Nat} {epoch : Nat} {b : Byte} {r r' : Rx}
    (h : r.acceptByte accMax epoch b = .ok r') : r.acc <+: r'.acc := by
  rcases Rx.acceptByte_ok h with ⟨-, rfl⟩ | ⟨-, rfl⟩ | ⟨-, hp⟩ | ⟨-, rfl⟩ | ⟨-, rfl⟩
  · exact List.prefix_refl _
  · rw [Rx.lengthByte_acc]
  · rw [Rx.payloadByte_acc hp]
  · exact Rx.checksumByte_acc_prefix accMax epoch b { r with roff := r.roff + 1#32 }
  · exact List.prefix_refl _

/-- An accepted byte changes no byte of `rbuf` but, in `RXS_PAYLOAD`, the one at `ridx` (R176). -/
theorem Rx.acceptByte_rbuf_read {accMax : Option Nat} {epoch : Nat} {b : Byte} {r r' : Rx} {a : Nat}
    (h : r.acceptByte accMax epoch b = .ok r') (ha : r.ctl = .payload → a ≠ r.ridx.toNat) :
    r'.rbuf.read a = r.rbuf.read a := by
  rcases Rx.acceptByte_ok h with ⟨-, rfl⟩ | ⟨-, rfl⟩ | ⟨hctl, hp⟩ | ⟨-, rfl⟩ | ⟨-, rfl⟩
  · rfl
  · rw [Rx.lengthByte_rbuf]
  · rw [Rx.payloadByte_rbuf hp]
    exact Memory.read_write_other _ b (ha hctl)
  · rw [Rx.checksumByte_rbuf]
  · rfl

theorem Rx.feed_acc_prefix {accMax : Option Nat} {epoch : Nat} {bs rest : List Byte} {r r' : Rx}
    (h : r.feed accMax epoch bs = .ok (r', rest)) : r.acc <+: r'.acc := by
  induction bs generalizing r with
  | nil => cases h; exact List.prefix_refl _
  | cons b bs ih =>
    rw [Rx.feed_cons] at h
    split at h
    · split at h
      · rename_i hb
        exact (Rx.acceptByte_acc_prefix hb).trans (ih h)
      · cases h
    · cases h
      exact List.prefix_refl _

/-- `End` changes neither `acc` nor `rbuf`, whether it ends a message or cuts a frame (R180, R181). -/
theorem Rx.acceptEnd_keeps (r : Rx) : r.acceptEnd.acc = r.acc ∧ r.acceptEnd.rbuf = r.rbuf := by
  have hboundary : r.endAtBoundary.acc = r.acc ∧ r.endAtBoundary.rbuf = r.rbuf := by
    unfold Rx.endAtBoundary
    split <;> exact ⟨rfl, rfl⟩
  unfold Rx.acceptEnd
  cases r.ctl with
  | idle => exact hboundary
  | acc => exact hboundary
  | _ => exact ⟨rfl, rfl⟩

/-- `rx_clear()` keeps the bytes of `rbuf` (R204). -/
@[simp] theorem Rx.clear_rbuf (r : Rx) : r.clear.rbuf = r.rbuf := by
  unfold Rx.clear
  split <;> rfl

/-! ### A CSR write, register by register (R202 to R204) -/

@[simp] theorem csrWritten_tx (n : Nat) (v : Word) (s : State) : (csrWritten n v s).tx = s.tx := by
  unfold csrWritten
  split
  · rfl
  · split <;> rfl
  · rfl

@[simp] theorem csrWritten_env (n : Nat) (v : Word) (s : State) : (csrWritten n v s).env = s.env := by
  unfold csrWritten
  split
  · rfl
  · split <;> rfl
  · rfl

theorem clearsRx_csrw (n : Nat) (v : Word) : clearsRx (.csrw n v) = (n == 1 && v.getLsbD 0) := rfl

/-- A CSR write clears the RX engine exactly when it is `RXCLR`, and else leaves it as it is (R202, R204). -/
theorem csrWritten_rx (n : Nat) (v : Word) (s : State) :
    (csrWritten n v s).rx = if clearsRx (.csrw n v) then s.rx.clear else s.rx := by
  rw [clearsRx_csrw]
  unfold csrWritten
  split
  · rfl
  · cases v.getLsbD 0 <;> rfl
  · rename_i hne
    simp [show n ≠ 1 from hne]

/-! ### What an operation can do to each engine, said once -/

/-- What an operation other than `RESET` can do at `TX_IN` and `TX_OUT` (R43): nothing, accept the symbol offered, or hand
the head of `tx_q` to the host. -/
inductive State.TxEffect (s : State) : Instr → State → Prop
  | same {i : Instr} {t : State} (htx : t.tx = s.tx) (hgot : t.env.txGot = s.env.txGot) : s.TxEffect i t
  | acceptByte {d : Byte} {t : Tx} (hen : txInEnabled s.tx = true) (ha : s.tx.accept s.epoch s.cap (.byte d) = .ok t) :
    s.TxEffect (.txinB d) (s.setTx t)
  | acceptEnd {x : Byte} {t : Tx} (hen : txInEnabled s.tx = true) (ha : s.tx.accept s.epoch s.cap .endMark = .ok t) :
    s.TxEffect (.txinE x) (s.setTx t)
  | take {x : Symbol} {rest : List Symbol} (hq : s.tx.q = x :: rest) :
    s.TxEffect .txout ((s.setTx { s.tx with q := rest }).giveTxOut x)

/-- What an operation other than `RESET` can make of the RX engine (R43): leave it, let it accept a symbol or the bytes of a
wire row, count a symbol taken from the message, or clear it. -/
inductive State.RxEffect (s : State) : Instr → Rx → Prop
  | same {i : Instr} : s.RxEffect i s.rx
  | acceptByte {d : Byte} {r : Rx} (hen : rxInEnabled s.rx = true)
    (ha : s.rx.acceptByte s.accMax s.epoch d = .ok r) : s.RxEffect (.rxinB d) r
  | acceptEnd {x : Byte} (hen : rxInEnabled s.rx = true) : s.RxEffect (.rxinE x) s.rx.acceptEnd
  | frame {p : List Byte} {c : Word} {r : Rx} {rest : List Byte}
    (hf : s.rx.feed s.accMax s.epoch (frameBytes p c) = .ok (r, rest)) : s.RxEffect (.frame p c) r
  | frameBadver {v b : Byte} {r : Rx} {rest : List Byte}
    (hf : s.rx.feed s.accMax s.epoch [v, b] = .ok (r, rest)) : s.RxEffect (.frameBadver v b) r
  | readNext (hpend : rxOutPend s.rx = true) : s.RxEffect .rxout { s.rx with rrd := s.rx.rrd + 1 }
  | clear {i : Instr} (hi : clearsRx i = true) : s.RxEffect i s.rx.clear

theorem execTxinB_txEffect {d : Byte} {s t : State} (hx : execTxinB d s = .next t) : s.TxEffect (.txinB d) t := by
  rcases txIn_next hx with ⟨hen, y, ha, rfl⟩ | ⟨-, rfl⟩
  · exact .acceptByte hen (symbolOfWord_byteWord d ▸ ha)
  · exact .same rfl rfl

theorem execTxinE_txEffect {x : Byte} {s t : State} (hx : execTxinE x s = .next t) : s.TxEffect (.txinE x) t := by
  rcases txIn_next hx with ⟨hen, y, ha, rfl⟩ | ⟨-, rfl⟩
  · exact .acceptEnd hen (symbolOfWord_endWord x ▸ ha)
  · exact .same rfl rfl

theorem execTxout_txEffect {s t : State} (hx : execTxout s = .next t) : s.TxEffect .txout t := by
  rcases execTxout_cases s with ⟨-, he⟩ | ⟨x, rest, hq, he⟩ <;> obtain rfl := Host.Outcome.next.inj (he.symm.trans hx)
  · exact .same rfl rfl
  · exact .take hq

theorem rxIn_txEffect {i : Instr} {w : SymWord} {s t : State} (hx : rxIn w s = .next t) : s.TxEffect i t := by
  rcases rxIn_next hx with ⟨-, r, -, rfl⟩ | ⟨-, rfl⟩ <;> exact .same rfl rfl

theorem rxBytes_txEffect {i : Instr} {bs : List Byte} {s t : State} (hx : rxBytes bs s = .next t) :
    s.TxEffect i t := by
  obtain ⟨r, rest, -, rfl⟩ := rxBytes_next hx
  exact .same rfl rfl

theorem execRxout_txEffect {s t : State} (hx : execRxout s = .next t) : s.TxEffect .rxout t := by
  rcases execRxout_cases s with ⟨-, he⟩ | ⟨-, he⟩ <;> obtain rfl := Host.Outcome.next.inj (he.symm.trans hx) <;>
    exact .same rfl rfl

theorem returnsOrAborts_txEffect {i : Instr} {v : Option Reply} {s t : State}
    (hx : returnsOrAborts v s = .next t) : s.TxEffect i t := by
  obtain ⟨v, -, rfl⟩ := returnsOrAborts_next hx
  exact .same rfl rfl

/-- Every operation but `RESET` does one of these at the TX engine. -/
theorem exec_txEffect {i : Instr} {s t : State} (hx : exec i s = .next t) (hreset : i ≠ .reset) : s.TxEffect i t := by
  cases i with
  | frame payload checksum => exact rxBytes_txEffect hx
  | frameBadver version byte1 => exact rxBytes_txEffect hx
  | txinB d => exact execTxinB_txEffect hx
  | txinE x => exact execTxinE_txEffect hx
  | rxinB d => exact rxIn_txEffect hx
  | rxinE x => exact rxIn_txEffect hx
  | txout => exact execTxout_txEffect hx
  | rxout => exact execRxout_txEffect hx
  | csrr n => cases hx; exact .same rfl rfl
  | csrw n v => cases hx; exact .same (csrWritten_tx n v s) (congrArg Env.txGot (csrWritten_env n v s))
  | rxclr v => cases hx; exact .same rfl rfl
  | reset => exact absurd rfl hreset
  | checksum payload => cases hx; exact .same rfl rfl
  | fromSource source capacity => exact returnsOrAborts_txEffect hx
  | serialize packet => cases hx; exact .same rfl rfl
  | deserialize bytes => cases hx; exact .same rfl rfl
  | toPackets message capacity => exact returnsOrAborts_txEffect hx
  | toPacketData message capacity => exact returnsOrAborts_txEffect hx
  | fromPacketData bytes => cases hx; exact .same rfl rfl

theorem execRxinB_rxEffect {d : Byte} {s t : State} (hx : execRxinB d s = .next t) : s.RxEffect (.rxinB d) t.rx := by
  rcases rxIn_next hx with ⟨hen, r, ha, rfl⟩ | ⟨-, rfl⟩
  · rw [symbolOfWord_byteWord] at ha
    exact .acceptByte hen ha
  · exact .same

theorem execRxinE_rxEffect {x : Byte} {s t : State} (hx : execRxinE x s = .next t) : s.RxEffect (.rxinE x) t.rx := by
  rcases rxIn_next hx with ⟨hen, r, ha, rfl⟩ | ⟨-, rfl⟩
  · rw [symbolOfWord_endWord] at ha
    obtain rfl := Except.ok.inj ha
    exact .acceptEnd hen
  · exact .same

theorem execFrame_rxEffect {p : List Byte} {c : Word} {s t : State} (hx : execFrame p c s = .next t) :
    s.RxEffect (.frame p c) t.rx := by
  obtain ⟨r, rest, hf, rfl⟩ := rxBytes_next hx
  exact .frame hf

theorem execFrameBadver_rxEffect {v b : Byte} {s t : State} (hx : execFrameBadver v b s = .next t) :
    s.RxEffect (.frameBadver v b) t.rx := by
  obtain ⟨r, rest, hf, rfl⟩ := rxBytes_next hx
  exact .frameBadver hf

theorem execRxout_rxEffect {s t : State} (hx : execRxout s = .next t) : s.RxEffect .rxout t.rx := by
  rcases execRxout_cases s with ⟨hpend, he⟩ | ⟨-, he⟩ <;> obtain rfl := Host.Outcome.next.inj (he.symm.trans hx)
  · exact .readNext hpend
  · exact .same

theorem csrWritten_rxEffect (n : Nat) (v : Word) (s : State) : s.RxEffect (.csrw n v) (csrWritten n v s).rx := by
  rw [csrWritten_rx]
  split
  · exact .clear (by assumption)
  · exact .same

/-- The TX operations leave the RX engine as it is (R43). -/
theorem ApartFromRx.rxEffect {op : State → Out} (hop : ApartFromRx op) {i : Instr} {s t : State} (hx : op s = .next t) :
    s.RxEffect i t.rx := by
  obtain ⟨hrx, -, -⟩ := hop s t hx
  rw [hrx]
  exact .same

theorem returnsOrAborts_rxEffect {i : Instr} {v : Option Reply} {s t : State}
    (hx : returnsOrAborts v s = .next t) : s.RxEffect i t.rx := by
  obtain ⟨v, -, rfl⟩ := returnsOrAborts_next hx
  exact .same

/-- Every operation but `RESET` does one of these to the RX engine. -/
theorem exec_rxEffect {i : Instr} {s t : State} (hx : exec i s = .next t) (hreset : i ≠ .reset) :
    s.RxEffect i t.rx := by
  cases i with
  | frame payload checksum => exact execFrame_rxEffect hx
  | frameBadver version byte1 => exact execFrameBadver_rxEffect hx
  | txinB d => exact (txIn_apartFromRx _).rxEffect hx
  | txinE x => exact (txIn_apartFromRx _).rxEffect hx
  | rxinB d => exact execRxinB_rxEffect hx
  | rxinE x => exact execRxinE_rxEffect hx
  | txout => exact execTxout_apartFromRx.rxEffect hx
  | rxout => exact execRxout_rxEffect hx
  | csrr n => cases hx; exact .same
  | csrw n v => cases hx; exact csrWritten_rxEffect n v s
  | rxclr v => cases hx; exact .clear rfl
  | reset => exact absurd rfl hreset
  | checksum payload => cases hx; exact .same
  | fromSource source capacity => exact returnsOrAborts_rxEffect hx
  | serialize packet => cases hx; exact .same
  | deserialize bytes => cases hx; exact .same
  | toPackets message capacity => exact returnsOrAborts_rxEffect hx
  | toPacketData message capacity => exact returnsOrAborts_rxEffect hx
  | fromPacketData bytes => cases hx; exact .same

/-! ### The three statements, from the effects -/

/-- What has been taken on `TX_OUT` followed by what waits on `tx_q` only grows at its end (R69). -/
theorem State.TxEffect.output_prefix {i : Instr} {s t : State} (h : s.TxEffect i t) :
    s.env.txGot ++ s.tx.q <+: t.env.txGot ++ t.tx.q := by
  cases h with
  | same htx hgot => rw [htx, hgot]
  | acceptByte hen ha => exact (List.prefix_append_right_inj _).mpr (Tx.accept_q_prefix ha)
  | acceptEnd hen ha => exact (List.prefix_append_right_inj _).mpr (Tx.accept_q_prefix ha)
  | take hq => simp [hq]

theorem State.TxEffect.tbuf_read {i : Instr} {s t : State} {a : Nat} (h : s.TxEffect i t)
    (ha : ∀ d, i = .txinB d → txInEnabled s.tx = true → a ≠ s.tx.storeIndex) :
    t.tx.tbuf.read a = s.tx.tbuf.read a := by
  cases h with
  | same htx hgot => rw [htx]
  | @acceptByte d t hen hacc => exact Tx.accept_tbuf_read hacc fun _ _ => ha d rfl hen
  | acceptEnd hen hacc => exact Tx.accept_tbuf_read hacc nofun
  | take hq => rfl

theorem State.RxEffect.acc_prefix {i : Instr} {s : State} {r : Rx} (h : s.RxEffect i r) (hi : clearsRx i = false) :
    s.rx.acc <+: r.acc := by
  cases h with
  | same => exact List.prefix_refl _
  | acceptByte hen ha => exact Rx.acceptByte_acc_prefix ha
  | acceptEnd hen => rw [(Rx.acceptEnd_keeps s.rx).1]
  | frame hf => exact Rx.feed_acc_prefix hf
  | frameBadver hf => exact Rx.feed_acc_prefix hf
  | readNext hpend => exact List.prefix_refl _
  | clear hc => exact absurd (hc.symm.trans hi) (by decide)

theorem State.RxEffect.rbuf_read {i : Instr} {s : State} {r : Rx} {a : Nat} (h : s.RxEffect i r)
    (hframe : ∀ p c, i ≠ .frame p c) (hbadver : ∀ v b, i ≠ .frameBadver v b)
    (ha : ∀ d, i = .rxinB d → s.rx.ctl = .payload → a ≠ s.rx.ridx.toNat) :
    r.rbuf.read a = s.rx.rbuf.read a := by
  cases h with
  | same => rfl
  | @acceptByte d _ hen hacc => exact Rx.acceptByte_rbuf_read hacc (ha d rfl)
  | acceptEnd hen => rw [(Rx.acceptEnd_keeps s.rx).2]
  | @frame p c _ _ hf => exact absurd rfl (hframe p c)
  | @frameBadver v b _ _ hf => exact absurd rfl (hbadver v b)
  | readNext hpend => rfl
  | clear hc => rw [Rx.clear_rbuf]

/-- Settles O20: an accepted symbol appends to `tx_q`, and `TXOUT` moves its head to the end of what has been taken. -/
theorem txOutputIsFirstInFirstOut : Obligations.TxOutputIsFirstInFirstOut := by
  intro i s t hx hreset
  obtain ⟨added, h⟩ := (exec_txEffect hx hreset).output_prefix
  exact ⟨added, h.symm⟩

/-- Settles O35: only `commit()` and the clears write `acc`, and `commit()` appends. -/
theorem accumulatorIsAppendOnly : Obligations.AccumulatorIsAppendOnly := by
  intro i s t hx hi
  have hreset : i ≠ .reset := by
    rintro rfl
    cases hi
  exact (exec_rxEffect hx hreset).acc_prefix hi

/-- Settles O56: `collect` and `payload_byte` hold the only stores, each at one index. -/
theorem bufferBytesOutsideTheStoreAreKept : Obligations.BufferBytesOutsideTheStoreAreKept := by
  intro i s t hx hreset
  exact ⟨fun a ha => (exec_txEffect hx hreset).tbuf_read ha,
    fun hframe hbadver a ha => (exec_rxEffect hx hreset).rbuf_read hframe hbadver ha⟩

end Sys2Proof.Machine

/-! ## Proofs: the encodings, the placed word and the wire rows (O1, O2, O3, O4, O6, O32, O33) -/

namespace Sys2Proof.Machine

/-! ### The wire decoder, one lemma per row (R81, R83, R85) -/

theorem decodeWire_frame {len : Byte} {tail : List Byte} (h : len.toNat + 4 ≤ tail.length) :
    decodeWire (Config.version :: len :: tail) =
      .ok (.frame (tail.take len.toNat) (be32dec ((tail.drop len.toNat).take 4)), tail.drop (len.toNat + 4)) := by
  simp only [decodeWire, if_true, if_neg (Nat.not_lt.mpr h)]

theorem decodeWire_frame_cut {len : Byte} {tail : List Byte} (h : tail.length < len.toNat + 4) :
    decodeWire (Config.version :: len :: tail) = .error .frameCut := by
  simp only [decodeWire, if_true, if_pos h]

theorem decodeWire_badver {version : Byte} (h : version ≠ Config.version) (byte1 : Byte) (tail : List Byte) :
    decodeWire (version :: byte1 :: tail) = .ok (.frameBadver version byte1, tail) := by
  simp only [decodeWire, if_neg h]

/-- Which bytes the wire decoder reads, and what it makes of them. -/
theorem decodeWire_ok {bytes rest : List Byte} {i : Instr} (h : decodeWire bytes = .ok (i, rest)) :
    (∃ len tail, bytes = Config.version :: len :: tail ∧ len.toNat + 4 ≤ tail.length ∧
      i = .frame (tail.take len.toNat) (be32dec ((tail.drop len.toNat).take 4)) ∧ rest = tail.drop (len.toNat + 4)) ∨
    (∃ version byte1, version ≠ Config.version ∧ bytes = version :: byte1 :: rest ∧
      i = .frameBadver version byte1) := by
  match bytes, h with
  | version :: len :: tail, h =>
    by_cases hv : version = Config.version
    · subst hv
      rcases Nat.lt_or_ge tail.length (len.toNat + 4) with hcut | hlen
      · rw [decodeWire_frame_cut hcut] at h
        cases h
      · rw [decodeWire_frame hlen] at h
        cases h
        exact .inl ⟨len, tail, rfl, hlen, rfl, rfl⟩
    · rw [decodeWire_badver hv] at h
      cases h
      exact .inr ⟨version, len, hv, rfl, rfl⟩

/-- A frame is read back from its bytes, and exactly its bytes are taken (R81, R83). -/
theorem decodeWire_frameBytes {payload : List Byte} (h : payload.length ≤ Config.maxPayload) (checksum : Word)
    (rest : List Byte) : decodeWire (frameBytes payload checksum ++ rest) = .ok (.frame payload checksum, rest) := by
  have hlen : (BitVec.ofNat 8 payload.length).toNat = payload.length :=
    (BitVec.toNat_ofNat _ _).trans (Nat.mod_eq_of_lt (Nat.lt_of_le_of_lt h (by decide)))
  have hsplit : frameBytes payload checksum ++ rest =
      Config.version :: BitVec.ofNat 8 payload.length :: (payload ++ (be32 checksum ++ rest)) := by
    simp [frameBytes]
  have hsum : (be32 checksum ++ rest).take 4 = be32 checksum := List.take_left' (be32_length checksum)
  have hrest : (be32 checksum ++ rest).drop 4 = rest := List.drop_left' (be32_length checksum)
  rw [hsplit, decodeWire_frame (by simp [hlen]), hlen, List.take_left, List.drop_left, ← List.drop_drop,
    List.drop_left, hsum, hrest, be32dec_be32]

/-- The bytes of a wire row are read back, whatever bytes follow them. -/
theorem decodeWire_of_encode_eq_wire {i : Instr} {bs : List Byte} (hwf : i.wf = true) (he : encode i = .wire bs)
    (rest : List Byte) : decodeWire (bs ++ rest) = .ok (i, rest) := by
  cases i with
  | frame payload checksum =>
    cases he
    exact decodeWire_frameBytes (of_decide_eq_true hwf) checksum rest
  | frameBadver version byte1 =>
    cases he
    exact decodeWire_badver (bne_iff_ne.mp hwf) byte1 rest
  | _ => cases he

theorem decodeWire_encode {i : Instr} {bs : List Byte} (hwf : i.wf = true) (he : encode i = .wire bs) :
    decodeWire bs = .ok (i, []) := by
  simpa using decodeWire_of_encode_eq_wire hwf he []

theorem decode_wire_of_decodeWire {bytes rest : List Byte} {i : Instr} (h : decodeWire bytes = .ok (i, rest)) :
    decode (.wire bytes) = .ok i := by
  rw [decode, h]
  rfl

/-! ### The other decoders read back what their encoding carries (R88, R89, R91) -/

@[simp] theorem decodeTxSymbol_byteWord (d : Byte) : decodeTxSymbol (byteWord d) = .txinB d := by
  simp [decodeTxSymbol]

@[simp] theorem decodeTxSymbol_endWord (x : Byte) : decodeTxSymbol (endWord x) = .txinE x := by
  simp [decodeTxSymbol]

@[simp] theorem decodeRxSymbol_byteWord (d : Byte) : decodeRxSymbol (byteWord d) = .rxinB d := by
  simp [decodeRxSymbol]

@[simp] theorem decodeRxSymbol_endWord (x : Byte) : decodeRxSymbol (endWord x) = .rxinE x := by
  simp [decodeRxSymbol]

@[simp] theorem decodeCapacity_toNat (capacity : Byte) (f : Byte → Instr) :
    decodeCapacity capacity.toNat f = .ok (f capacity) := by
  have hle : capacity.toNat ≤ 255 := Nat.le_of_lt_succ capacity.isLt
  simp only [decodeCapacity, if_pos hle, BitVec.ofNat_toNat, BitVec.setWidth_eq]

/-- Settles O1: a wire row by `decodeWire_of_encode_eq_wire`, every other row by the decoder its label selects. -/
theorem decodeOfEncodeIsTheInstruction : Obligations.DecodeOfEncodeIsTheInstruction := by
  intro i hwf
  refine ⟨?_, fun bs he rest => decodeWire_of_encode_eq_wire hwf he rest⟩
  have hwire {bs : List Byte} (he : encode i = .wire bs) : decode (.wire bs) = .ok i :=
    decode_wire_of_decodeWire (decodeWire_encode hwf he)
  cases i with
  | frame payload checksum => exact hwire rfl
  | frameBadver version byte1 => exact hwire rfl
  | txinB d => exact congrArg Except.ok (decodeTxSymbol_byteWord d)
  | txinE x => exact congrArg Except.ok (decodeTxSymbol_endWord x)
  | rxinB d => exact congrArg Except.ok (decodeRxSymbol_byteWord d)
  | rxinE x => exact congrArg Except.ok (decodeRxSymbol_endWord x)
  | txout => rfl
  | rxout => rfl
  | csrr n => rfl
  | csrw n v =>
    have hplain : ¬ (n == 1 && v.getLsbD 0) = true := by
      simpa only [Instr.wf, Bool.not_eq_true', Bool.not_eq_true] using hwf
    exact congrArg Except.ok (if_neg hplain)
  | rxclr v =>
    have hclear : (1 == 1 && v.getLsbD 0) = true := hwf
    exact congrArg Except.ok (if_pos hclear)
  | reset => rfl
  | checksum payload => rfl
  | fromSource source capacity => exact decodeCapacity_toNat capacity _
  | serialize packet => exact if_pos hwf
  | deserialize bytes => rfl
  | toPackets message capacity => exact decodeCapacity_toNat capacity _
  | toPacketData message capacity => exact decodeCapacity_toNat capacity _
  | fromPacketData bytes => rfl

/-! ### The bytes read are the encoding (R63, R83, R106) -/

theorem be32dec_toNat (b0 b1 b2 b3 : Byte) :
    (be32dec [b0, b1, b2, b3]).toNat = b0.toNat * 2 ^ 24 + b1.toNat * 2 ^ 16 + b2.toNat * 2 ^ 8 + b3.toNat := by
  have := b0.isLt
  have := b1.isLt
  have := b2.isLt
  simp only [be32dec, List.foldl_cons, List.foldl_nil, shiftInByte_toNat, BitVec.toNat_ofNat]
  omega

/-- Four bytes are determined by the value they assemble to: the converse of `be32dec_be32`. -/
theorem be32_be32dec {bs : List Byte} (h : bs.length = 4) : be32 (be32dec bs) = bs := by
  match bs, h with
  | [b0, b1, b2, b3], _ =>
    have hv := be32dec_toNat b0 b1 b2 b3
    have := b0.isLt
    have := b1.isLt
    have := b2.isLt
    have := b3.isLt
    simp only [be32, List.cons.injEq, and_true]
    refine ⟨?_, ?_, ?_, ?_⟩ <;> refine BitVec.eq_of_toNat_eq ?_ <;>
      simp only [BitVec.extractLsb'_toNat, Nat.shiftRight_eq_div_pow, hv] <;> omega

/-- The bytes of the frame that is read are those at the front of the stream. -/
theorem frameBytes_of_stream {len : Byte} {tail : List Byte} (h : len.toNat + 4 ≤ tail.length) :
    frameBytes (tail.take len.toNat) (be32dec ((tail.drop len.toNat).take 4)) ++ tail.drop (len.toNat + 4) =
      Config.version :: len :: tail := by
  have hsum : ((tail.drop len.toNat).take 4).length = 4 := by simp; omega
  have hlen : (tail.take len.toNat).length = len.toNat := by simp; omega
  simp only [frameBytes, be32_be32dec hsum, hlen, BitVec.ofNat_toNat, BitVec.setWidth_eq, List.cons_append,
    List.nil_append, List.append_assoc]
  rw [← List.drop_drop, List.take_append_drop, List.take_append_drop]

/-- Wire bytes that are read are the encoding of what is read, followed by the rest. -/
theorem encode_of_decodeWire {bytes rest : List Byte} {i : Instr} (h : decodeWire bytes = .ok (i, rest)) :
    ∃ bs, encode i = .wire bs ∧ bytes = bs ++ rest := by
  rcases decodeWire_ok h with ⟨len, tail, rfl, hlen, rfl, rfl⟩ | ⟨version, byte1, -, rfl, rfl⟩
  · exact ⟨_, rfl, (frameBytes_of_stream hlen).symm⟩
  · exact ⟨[version, byte1], rfl, rfl⟩

/-- Settles O2: each row of the decoder drops no byte. -/
theorem decodedWireBytesAreTheEncoding : Obligations.DecodedWireBytesAreTheEncoding :=
  fun _ _ _ h => ⟨Laws.DecodeGivesWf.all (decode_wire_of_decodeWire h), encode_of_decodeWire h⟩

/-- Settles O3: the decoder compares and cuts with natural numbers. -/
theorem frameSizeIsSixPlusLength : Obligations.FrameSizeIsSixPlusLength := by
  intro len tail
  refine ⟨fun hcut => decodeWire_frame_cut (by omega), fun hwhole => ?_⟩
  have hlen : len.toNat + 4 ≤ tail.length := by omega
  refine ⟨_, _, _, decodeWire_frame hlen, ?_, ?_⟩
  · rw [List.length_take]; omega
  · rw [List.length_drop]; omega

/-- Settles O4: ten closed evaluations of the decoder. -/
theorem writtenOutWordsDecode : Obligations.WrittenOutWordsDecode := by
  unfold Obligations.WrittenOutWordsDecode
  decide

/-! ### What `withFetchWord` places is what the next step runs (R91, R93) -/

theorem step_place_wire {bs : List Byte} {i : Instr} (h : decodeWire bs = .ok (i, [])) (s : State) :
    step (s.place (.wire bs)) = exec i s :=
  step_frame rfl rfl h

theorem step_place_txIn {w : SymWord} {i : Instr} (h : decode (.txIn w) = .ok i) (s : State) :
    step (s.place (.txIn w)) = exec i s :=
  step_txIn rfl rfl h

/-- A symbol read on `TX_IN` is encoded as a symbol on `TX_IN`. -/
theorem encode_decodeTxSymbol (w : SymWord) : ∃ w', encode (decodeTxSymbol w) = .txIn w' := by
  unfold decodeTxSymbol
  split <;> exact ⟨_, rfl⟩

/-- A word of the opcode table stands for a wire row or for a symbol on `TX_IN` (log entry 4). -/
theorem encode_of_decode_tableOffer {nbits w : Nat} {i : Instr} (h : decode (tableOffer nbits w) = .ok i) :
    (∃ bs, encode i = .wire bs) ∨ (∃ w', encode i = .txIn w') := by
  unfold tableOffer at h
  split at h
  · obtain rfl := Except.ok.inj h
    exact .inr (encode_decodeTxSymbol _)
  · rw [decode] at h
    cases hd : decodeWire (tableBytes nbits w) with
    | error why =>
      rw [hd] at h
      cases h
    | ok read =>
      rw [hd] at h
      obtain rfl := Except.ok.inj h
      obtain ⟨bs, he, -⟩ := encode_of_decodeWire hd
      exact .inl ⟨bs, he⟩

theorem decode_of_decodeTableWord {nbits w : Nat} {i : Instr} (h : decodeTableWord nbits w = some i) :
    decode (tableOffer nbits w) = .ok i := by
  unfold decodeTableWord at h
  cases hd : decode (tableOffer nbits w) with
  | error why => rw [hd] at h; cases h
  | ok j => rw [hd] at h; cases h; rfl

/-- Settles O6: the encoding is placed, on `RX_IN` or on `TX_IN`, and is read back from there (O1). -/
theorem placedTableWordRunsNext : Obligations.PlacedTableWordRunsNext := by
  intro s nbits w i h
  have hd := decode_of_decodeTableWord h
  have hwf : i.wf = true := Laws.DecodeGivesWf.all hd
  have hplace : s.withFetchWord nbits w = s.place (encode i) := by
    simp only [State.withFetchWord, State.placeTableWord, h]
  rw [hplace]
  rcases encode_of_decode_tableOffer hd with ⟨bs, he⟩ | ⟨w', he⟩
  · rw [he]
    exact step_place_wire (decodeWire_encode hwf he) s
  · have hback := (decodeOfEncodeIsTheInstruction i hwf).1
    rw [he] at hback ⊢
    exact step_place_txIn hback s

/-! ### A wire byte, as `RXIN.B` and as the first of a wire row (R171, R182; log entry 5) -/

section
variable {s : State} {b : Byte} (hen : rxInEnabled s.rx = true)
include hen

theorem exec_rxinB_of_accept {r : Rx} (ha : s.rx.acceptByte s.accMax s.epoch b = .ok r) :
    exec (.rxinB b) s = .next (s.setRx r) := by
  simp only [exec, execRxinB, rxIn, hen, if_true, symbolOfWord_byteWord, Rx.accept, ha]

theorem exec_rxinB_of_fault {f : Fault} (ha : s.rx.acceptByte s.accMax s.epoch b = .error f) :
    exec (.rxinB b) s = .fault f := by
  simp only [exec, execRxinB, rxIn, hen, if_true, symbolOfWord_byteWord, Rx.accept, ha]

theorem rxBytes_cons_of_accept {r : Rx} (ha : s.rx.acceptByte s.accMax s.epoch b = .ok r) (bs : List Byte) :
    rxBytes (b :: bs) s = rxBytes bs (s.setRx r) := by
  simp only [rxBytes, Rx.feed_cons, hen, if_true, ha]
  rfl

theorem rxBytes_cons_of_fault {f : Fault} (ha : s.rx.acceptByte s.accMax s.epoch b = .error f) (bs : List Byte) :
    rxBytes (b :: bs) s = .fault f := by
  simp only [rxBytes, Rx.feed_cons, hen, if_true, ha]

end

/-- Where the engine accepts nothing every byte stays offered (R182). -/
theorem rxBytes_cons_of_not_enabled {s : State} (hen : rxInEnabled s.rx = false) (b : Byte) (bs : List Byte) :
    rxBytes (b :: bs) s = .next (s.holdRxIn ((b :: bs).map byteWord)) := by
  simp only [rxBytes, Rx.feed_cons, hen]
  rfl

theorem rxBytes_eq_byteByByte (bs : List Byte) (s : State) : rxBytes bs s = byteByByte bs s := by
  induction bs generalizing s with
  | nil => rfl
  | cons b bs ih =>
    cases hen : rxInEnabled s.rx with
    | false => simp [rxBytes_cons_of_not_enabled hen, byteByByte, hen]
    | true =>
      cases ha : s.rx.acceptByte s.accMax s.epoch b with
      | ok r => simp only [rxBytes_cons_of_accept hen ha, byteByByte, hen, if_true, exec_rxinB_of_accept hen ha, ih]
      | error f => simp only [rxBytes_cons_of_fault hen ha, byteByByte, hen, if_true, exec_rxinB_of_fault hen ha]

/-- Settles O33: both wire rows are `rxBytes` of their bytes. -/
theorem wireRowsAreTheirBytes : Obligations.WireRowsAreTheirBytes :=
  ⟨fun s p c => rxBytes_eq_byteByByte (frameBytes p c) s, fun s v b => rxBytes_eq_byteByByte [v, b] s⟩

/-! ### A bad version at a frame boundary (R85, R174, R175, R223) -/

theorem Rx.atBoundary.enabled {r : Rx} (h : r.atBoundary) : rxInEnabled r = true := by
  rcases h with h | h <;> simp [rxInEnabled, h]

/-- A byte at a frame boundary is the version of the next frame (R174). -/
theorem rxBytes_cons_at_boundary {s : State} (h : s.rx.atBoundary) (b : Byte) (bs : List Byte) :
    rxBytes (b :: bs) s = rxBytes bs (s.setRx
      { s.rx with roff := s.rx.roff + 1#32, rfoff := s.rx.roff, rver := b, ctl := .len }) := by
  refine rxBytes_cons_of_accept h.enabled ?_ bs
  rcases h with h | h <;> simp [Rx.acceptByte, h, Rx.versionByte]

/-- The byte after a bad version raises the error, whatever it is, and `rlen` is not written (R175). -/
theorem rxBytes_cons_after_bad_version {s : State} (hctl : s.rx.ctl = .len) (hv : s.rx.rver ≠ Config.version)
    (b : Byte) (bs : List Byte) :
    rxBytes (b :: bs) s = rxBytes bs (s.setRx
      { s.rx with roff := s.rx.roff + 1#32, rerr := some .unknownProtocolVersion, ctl := .failed }) := by
  refine rxBytes_cons_of_accept (by simp [rxInEnabled, hctl]) ?_ bs
  simp only [Rx.acceptByte, hctl, Rx.lengthByte, if_pos hv, Rx.fail]

/-- Settles O32: the version byte is accepted, and the byte after it makes the engine judge it. -/
theorem badVersionAtBoundaryFails : Obligations.BadVersionAtBoundaryFails := by
  intro s v b hb hv
  have hcount : s.rx.roff + 1#32 + 1#32 = s.rx.roff + 2#32 := BitVec.add_assoc _ _ _
  rw [show exec (.frameBadver v b) s = rxBytes [v, b] s from rfl, rxBytes_cons_at_boundary hb,
    rxBytes_cons_after_bad_version rfl hv, State.setRx_rx, hcount]
  rfl

end Sys2Proof.Machine

/-! ## Proofs: the packet codec (O42, O43, O44, O45, O51, O52) -/

namespace Sys2Proof.Machine

/-! ### The checksum of a payload (R100, R103) -/

theorem checksum_eq_ofNat_sum (p : List Byte) : checksum p = BitVec.ofNat 32 (p.map BitVec.toNat).sum :=
  BitVec.eq_of_toNat_eq (by rw [checksum_toNat, BitVec.toNat_ofNat])

/-- The largest sum a payload can have (R103). -/
theorem sum_toNat_le_of_payload {p : List Byte} (h : p.length ≤ 255) : (p.map BitVec.toNat).sum ≤ 65025 := by
  have := sum_toNat_le p
  omega

/-- For a payload the 32-bit wraparound never acts (R103). -/
theorem checksum_toNat_of_payload {p : List Byte} (h : p.length ≤ 255) :
    (checksum p).toNat = (p.map BitVec.toNat).sum := by
  have := sum_toNat_le_of_payload h
  rw [checksum_toNat]
  omega

@[simp] theorem zext32_toNat (b : Byte) : (zext32 b).toNat = b.toNat := BitVec.toNat_setWidth_of_le (by decide)

theorem zext32_injective : Function.Injective zext32 := fun a b h =>
  BitVec.eq_of_toNat_eq (by rw [← zext32_toNat a, h, zext32_toNat])

/-- Bytes outside position `k` add the same on both sides, so the sum moves with the byte (R107). -/
theorem checksum_set_ne {p : List Byte} {k : Nat} {b : Byte} (hk : k < p.length) (hb : p[k]? ≠ some b) :
    checksum (p.set k b) ≠ checksum p := by
  intro h
  rw [List.set_eq_take_append_cons_drop, if_pos hk] at h
  conv_rhs at h => rw [← List.take_append_drop k p, List.drop_eq_getElem_cons hk]
  simp only [checksum_append, checksum_cons] at h
  have hz : zext32 b = zext32 p[k] := add_right_cancel (add_left_cancel h)
  exact hb (by rw [zext32_injective hz, List.getElem?_eq_getElem hk])

/-! ### The packet invariant (R100) -/

/-- The invariant says that the payload determines the packet. -/
theorem Packet.wf_iff {p : Packet} : p.wf = true ↔
    p.version = Config.version ∧ p.length.toNat = p.payload.length ∧ p.checksum = checksum p.payload := by
  simp only [Packet.wf, Bool.and_eq_true, beq_iff_eq, and_assoc, and_congr_right_iff]
  intro _ hlen
  have := p.length.isLt
  rw [← checksum_toNat_of_payload (by omega), BitVec.toNat_inj]

theorem packetOf_wf {payload : List Byte} (h : payload.length ≤ 255) : (packetOf payload).wf = true :=
  Packet.wf_iff.mpr ⟨rfl, Nat.mod_eq_of_lt (Nat.lt_succ_of_le h), rfl⟩

/-! ### `serialize` (R102) -/

@[simp] theorem serialize_length (p : Packet) : (serialize p).length = 6 + p.payload.length := by
  simp [serialize]
  omega

theorem serialize_of_wf {p : Packet} (h : p.wf = true) :
    serialize p = Config.version :: p.length :: (p.payload ++ be32 p.checksum) := by
  obtain ⟨hver, -, -⟩ := Packet.wf_iff.mp h
  rw [serialize, hver]
  rfl

/-! ### `deserialize`, one lemma per check (R104) -/

theorem deserialize_of_short {bytes : List Byte} (h : bytes.length < 2) : deserialize bytes = .err .invalidPacket := by
  match bytes, h with
  | [], _ => rfl
  | [_], _ => rfl

theorem deserialize_of_bad_version {version : Byte} (h : version ≠ Config.version) (len : Byte) (tail : List Byte) :
    deserialize (version :: len :: tail) = .err .unknownProtocolVersion := by
  simp only [deserialize, if_pos h]

theorem deserialize_of_cut {len : Byte} {tail : List Byte} (h : tail.length < len.toNat + 4) :
    deserialize (Config.version :: len :: tail) = .err .invalidPacket := by
  have hcut : (Config.version :: len :: tail).length < Config.overhead + len.toNat := by
    simp only [List.length_cons, Config.overhead]
    omega
  simp only [deserialize, ne_eq, not_true_eq_false, if_false, if_pos hcut]

/-- A whole frame is judged by its checksum alone. -/
theorem deserialize_of_whole {len : Byte} {tail : List Byte} (h : len.toNat + 4 ≤ tail.length) :
    deserialize (Config.version :: len :: tail) =
      if checksum (tail.take len.toNat) = be32dec ((tail.drop len.toNat).take 4) then
        .ok ({ version := Config.version, length := len, payload := tail.take len.toNat,
               checksum := be32dec ((tail.drop len.toNat).take 4) }, tail.drop (len.toNat + 4))
      else .err .invalidChecksum := by
  have hwhole : ¬ (Config.version :: len :: tail).length < Config.overhead + len.toNat := by
    simp only [List.length_cons, Config.overhead]
    omega
  have hdrop (n : Nat) : (Config.version :: len :: tail).drop (2 + n) = tail.drop n := by
    rw [Nat.add_comm]
    rfl
  have hrest : (Config.version :: len :: tail).drop (Config.overhead + len.toNat) = tail.drop (len.toNat + 4) := by
    rw [← hdrop, Config.overhead, show 6 + len.toNat = 2 + (len.toNat + 4) by omega]
  simp only [deserialize, ne_eq, not_true_eq_false, if_false, if_neg hwhole, hdrop, hrest, ite_not]
  rfl

/-- The same where the stream is given in its parts. -/
theorem deserialize_of_parts {len : Byte} {payload sum : List Byte} (hp : payload.length = len.toNat)
    (hs : sum.length = 4) (rest : List Byte) :
    deserialize (Config.version :: len :: (payload ++ (sum ++ rest))) =
      if checksum payload = be32dec sum then
        .ok ({ version := Config.version, length := len, payload := payload, checksum := be32dec sum }, rest)
      else .err .invalidChecksum := by
  have hsum : (sum ++ rest).take 4 = sum := List.take_left' hs
  have hrest : (sum ++ rest).drop 4 = rest := List.drop_left' hs
  rw [deserialize_of_whole (by simp [hp, hs]), ← hp, List.take_left, List.drop_left, ← List.drop_drop, List.drop_left,
    hsum, hrest]

/-- A frame without bytes after it whose checksum bytes are not those of its payload. -/
theorem deserialize_of_wrong_sum {len : Byte} {payload sum : List Byte} (hp : payload.length = len.toNat)
    (hs : sum.length = 4) (hne : checksum payload ≠ be32dec sum) :
    deserialize (Config.version :: len :: (payload ++ sum)) = .err .invalidChecksum := by
  simpa [hne] using deserialize_of_parts hp hs []

/-- What `deserialize` passes: a whole frame with its payload's checksum. -/
theorem deserialize_ok {bytes rest : List Byte} {p : Packet} (h : deserialize bytes = .ok (p, rest)) :
    ∃ len tail, bytes = Config.version :: len :: tail ∧ len.toNat + 4 ≤ tail.length ∧
      checksum (tail.take len.toNat) = be32dec ((tail.drop len.toNat).take 4) ∧
      p = { version := Config.version, length := len, payload := tail.take len.toNat,
            checksum := be32dec ((tail.drop len.toNat).take 4) } ∧
      rest = tail.drop (len.toNat + 4) := by
  match bytes, h with
  | version :: len :: tail, h =>
    by_cases hv : version = Config.version
    · subst hv
      rcases Nat.lt_or_ge tail.length (len.toNat + 4) with hcut | hwhole
      · rw [deserialize_of_cut hcut] at h
        cases h
      · rw [deserialize_of_whole hwhole] at h
        split at h
        next hsum =>
          cases h
          exact ⟨len, tail, rfl, hwhole, hsum, rfl, rfl⟩
        next => cases h
    · rw [deserialize_of_bad_version hv] at h
      cases h

/-! ### The two are inverse (R106) -/

theorem deserialize_serialize_append {p : Packet} (h : p.wf = true) (t : List Byte) :
    deserialize (serialize p ++ t) = .ok (p, t) := by
  obtain ⟨hver, hlen, hsum⟩ := Packet.wf_iff.mp h
  rw [serialize_of_wf h, List.cons_append, List.cons_append, List.append_assoc,
    deserialize_of_parts hlen.symm (be32_length _), be32dec_be32, if_pos hsum.symm, ← hver]

theorem serialize_of_deserialize {b t : List Byte} {p : Packet} (h : deserialize b = .ok (p, t)) :
    b = serialize p ++ t ∧ p.wf = true := by
  obtain ⟨len, tail, rfl, hwhole, hsum, rfl, rfl⟩ := deserialize_ok h
  have hlen : (tail.take len.toNat).length = len.toNat := by
    rw [List.length_take]
    omega
  have hframe := frameBytes_of_stream hwhole
  rw [frameBytes, hlen, BitVec.ofNat_toNat, BitVec.setWidth_eq] at hframe
  exact ⟨hframe.symm, Packet.wf_iff.mpr ⟨rfl, hlen.symm, hsum.symm⟩⟩

/-! ### Damage to a frame (R107) -/

/-- Four bytes that are not the encoding of a value do not assemble to it. -/
theorem ne_be32dec_of_be32_ne {v : Word} {bs : List Byte} (hs : bs.length = 4) (h : bs ≠ be32 v) : v ≠ be32dec bs := by
  rintro rfl
  exact h (be32_be32dec hs).symm

section
variable {p : Packet} (h : p.wf = true)
include h

theorem deserialize_changed_payload_byte {k : Nat} {b : Byte} (hk : k < p.payload.length) (hb : p.payload[k]? ≠ some b) :
    deserialize ((serialize p).set (2 + k) b) = .err .invalidChecksum := by
  obtain ⟨-, hlen, hsum⟩ := Packet.wf_iff.mp h
  have hset : (serialize p).set (2 + k) b =
      Config.version :: p.length :: (p.payload.set k b ++ be32 p.checksum) := by
    rw [serialize_of_wf h, Nat.add_comm, List.set_cons_succ, List.set_cons_succ, List.set_append_left _ _ hk]
  have hne : checksum (p.payload.set k b) ≠ be32dec (be32 p.checksum) := by
    rw [be32dec_be32, hsum]
    exact checksum_set_ne hk hb
  rw [hset]
  exact deserialize_of_wrong_sum (by rw [List.length_set, hlen]) (be32_length _) hne

theorem deserialize_changed_version {v : Byte} (hv : v ≠ Config.version) :
    deserialize ((serialize p).set 0 v) = .err .unknownProtocolVersion := by
  rw [serialize_of_wf h]
  exact deserialize_of_bad_version hv _ _

theorem deserialize_proper_prefix {n : Nat} (hn : n < 6 + p.length.toNat) :
    deserialize ((serialize p).take n) = .err .invalidPacket := by
  match n, hn with
  | 0, _ => exact deserialize_of_short (by simp)
  | 1, _ => exact deserialize_of_short (by simp)
  | n + 2, hn =>
    rw [serialize_of_wf h, List.take_succ_cons, List.take_succ_cons]
    refine deserialize_of_cut ?_
    rw [List.length_take]
    omega

theorem deserialize_changed_checksum_byte {k : Nat} {b : Byte} (hk : k < 4) (hb : (be32 p.checksum)[k]? ≠ some b) :
    deserialize ((serialize p).set (2 + p.length.toNat + k) b) = .err .invalidChecksum := by
  obtain ⟨-, hlen, hsum⟩ := Packet.wf_iff.mp h
  have hset : (serialize p).set (2 + p.length.toNat + k) b =
      Config.version :: p.length :: (p.payload ++ (be32 p.checksum).set k b) := by
    rw [serialize_of_wf h, show 2 + p.length.toNat + k = p.payload.length + k + 2 by omega, List.set_cons_succ,
      List.set_cons_succ, List.set_append_right _ _ (by omega), Nat.add_sub_cancel_left]
  have hchanged : (be32 p.checksum).set k b ≠ be32 p.checksum := fun heq =>
    hb (by rw [← heq, List.getElem?_set_self (by rwa [be32_length])])
  rw [hset]
  refine deserialize_of_wrong_sum hlen.symm (by rw [List.length_set, be32_length]) ?_
  rw [← hsum]
  exact ne_be32dec_of_be32_ne (by rw [List.length_set, be32_length]) hchanged

theorem serialize_set_length (len : Byte) :
    (serialize p).set 1 len = Config.version :: len :: (p.payload ++ be32 p.checksum) := by
  rw [serialize_of_wf h]
  rfl

theorem deserialize_larger_length {len : Byte} (hl : p.length.toNat < len.toNat) :
    deserialize ((serialize p).set 1 len) = .err .invalidPacket := by
  obtain ⟨-, hlen, -⟩ := Packet.wf_iff.mp h
  rw [serialize_set_length h]
  refine deserialize_of_cut ?_
  rw [List.length_append, be32_length]
  omega

/-- The frame ends early, and the four bytes there are read as its checksum. -/
theorem deserialize_smaller_length {len : Byte} (hl : len.toNat < p.length.toNat)
    (hne : ((serialize p).drop (2 + len.toNat)).take 4 ≠ be32 (checksum (p.payload.take len.toNat))) :
    deserialize ((serialize p).set 1 len) = .err .invalidChecksum := by
  obtain ⟨-, hlen, -⟩ := Packet.wf_iff.mp h
  have hwhole : len.toNat + 4 ≤ (p.payload ++ be32 p.checksum).length := by
    rw [List.length_append, be32_length]
    omega
  have hfour : (((p.payload ++ be32 p.checksum).drop len.toNat).take 4).length = 4 := by
    rw [List.length_take, List.length_drop]
    omega
  rw [serialize_of_wf h, Nat.add_comm, List.drop_succ_cons, List.drop_succ_cons] at hne
  rw [serialize_set_length h, deserialize_of_whole hwhole, List.take_append_of_le_length (by omega),
    if_neg (ne_be32dec_of_be32_ne hfour hne)]

end

/-! ### The six statements -/

/-- Settles O42, from the checksum as a sum of natural numbers. -/
theorem checksumIsTheByteSum : Obligations.ChecksumIsTheByteSum := by
  intro s p
  refine ⟨checksum p, rfl, checksum_toNat p, fun hp => ?_⟩
  rw [checksum_toNat_of_payload hp]
  exact ⟨rfl, sum_toNat_le_of_payload hp⟩

/-- Settles O43: the chunk is the front of the source, and a chunk of at most 255 bytes is a packet. -/
theorem fromSourceTakesOneChunk : Obligations.FromSourceTakesOneChunk := by
  intro s source c
  refine ⟨fun hc => ?_, ?_⟩
  · have hlen : (source.take c.toNat).length = min c.toNat source.length := List.length_take
    have := c.isLt
    refine ⟨packetOf (source.take c.toNat), source.drop c.toNat, ?_, (List.take_append_drop _ _).symm, hlen,
      packetOf_wf (by omega)⟩
    simp only [exec, execFromSource, fromSource_of_ne_zero source hc]
    rfl
  · rintro rfl
    rfl

/-- Settles O44: `be32` is the four bytes written out. -/
theorem serializeLaysOutTheFrame : Obligations.SerializeLaysOutTheFrame := by
  intro s p
  refine ⟨serialize p, rfl, rfl, fun hp => ?_⟩
  obtain ⟨-, hlen, -⟩ := Packet.wf_iff.mp hp
  rw [serialize_length, hlen]

/-- Settles O45: each check has its lemma, and for a payload the sums of natural numbers are those of 32-bit words. -/
theorem deserializeChecksInOrder : Obligations.DeserializeChecksInOrder := by
  intro s bytes
  refine ⟨deserialize bytes, rfl, deserialize_of_short, ?_⟩
  rintro v len tail rfl
  refine ⟨fun hv => deserialize_of_bad_version hv len tail, ?_, ?_⟩
  · rintro rfl hcut
    refine deserialize_of_cut ?_
    simp only [List.length_cons] at hcut
    omega
  · rintro rfl p b0 b1 b2 b3 rest rfl hp
    have := len.isLt
    have hsum : checksum p = be32dec [b0, b1, b2, b3] ↔
        (p.map BitVec.toNat).sum = b0.toNat * 2 ^ 24 + b1.toNat * 2 ^ 16 + b2.toNat * 2 ^ 8 + b3.toNat := by
      rw [← BitVec.toNat_inj, checksum_toNat_of_payload (by omega), be32dec_toNat]
    rw [List.append_assoc, deserialize_of_parts hp rfl]
    refine ⟨fun hne => if_neg (mt hsum.mp hne), fun heq => ?_⟩
    rw [if_pos (hsum.mpr heq), ← hsum.mpr heq, checksum_eq_ofNat_sum]

/-- Settles O51, one lemma for each direction. -/
theorem deserializeInvertsSerialize : Obligations.DeserializeInvertsSerialize :=
  ⟨fun _ t h => deserialize_serialize_append h t, fun _ _ _ => serialize_of_deserialize⟩

/-- Settles O52, one lemma for each kind of damage. -/
theorem damagedFramesAreDetected : Obligations.DamagedFramesAreDetected := fun _ h =>
  ⟨fun _ _ => deserialize_changed_payload_byte h, fun _ => deserialize_changed_version h,
    fun _ => deserialize_proper_prefix h, fun _ _ => deserialize_changed_checksum_byte h,
    fun _ => deserialize_larger_length h, fun _ => deserialize_smaller_length h⟩

end Sys2Proof.Machine

/-! ## Proofs: the packet producer (O46, O48) -/

namespace Sys2Proof.Machine

/-! ### The number of packets (R122) -/

theorem packetCount_of_le {n c : Nat} (hc : 0 < c) (h : n ≤ c) : packetCount n c = 1 := by
  unfold packetCount
  split
  · rfl
  · exact Nat.div_eq_of_lt_le (by omega) (by omega)

theorem packetCount_of_lt {n c : Nat} (hc : 0 < c) (h : c < n) : packetCount n c = packetCount (n - c) c + 1 := by
  rw [packetCount, if_neg (by omega), packetCount, if_neg (by omega), ← Nat.add_div_right _ hc]
  congr 1
  omega

/-- Packets of `c` bytes each have room for the whole message. -/
theorem le_packetCount_mul {n c : Nat} (hc : 0 < c) : n ≤ packetCount n c * c := by
  unfold packetCount
  split
  · omega
  · have := Nat.lt_div_mul_add (a := n + c - 1) hc
    omega

/-! ### The chunks of a message (R122) -/

/-- The payload of packet `k` in R122: `message[k*c .. min((k+1)*c, n)]`. -/
def messageChunk (message : List Byte) (c k : Nat) : List Byte := (message.drop (k * c)).take c

theorem messageChunk_zero (message : List Byte) (c : Nat) : messageChunk message c 0 = message.take c := by
  simp [messageChunk]

theorem messageChunk_succ (message : List Byte) (c k : Nat) :
    messageChunk message c (k + 1) = messageChunk (message.drop c) c k := by
  rw [messageChunk, messageChunk, List.drop_drop, Nat.succ_mul, Nat.add_comm c]

theorem messageChunk_length_le (message : List Byte) (c k : Nat) : (messageChunk message c k).length ≤ c :=
  List.length_take_le _ _

/-- The first `count` chunks are the front of the message. -/
theorem flatten_messageChunk (message : List Byte) (c count : Nat) :
    ((List.range count).map (messageChunk message c)).flatten = message.take (count * c) := by
  induction count with
  | zero => simp
  | succ count ih =>
    rw [List.range_succ, List.map_append, List.flatten_append, ih, Nat.succ_mul, List.take_add]
    simp [messageChunk]

/-! ### The packets of a message (R121, R122) -/

/-- The packets that R122 lists: one for each chunk. -/
def messagePackets (message : List Byte) (c : Nat) : List Packet :=
  (List.range (packetCount message.length c)).map fun k => packetOf (messageChunk message c k)

section
variable {message : List Byte} {c : Nat}

theorem messagePackets_of_le (hc : 0 < c) (h : message.length ≤ c) :
    messagePackets message c = [packetOf (message.take c)] := by
  rw [messagePackets, packetCount_of_le hc h]
  simp [messageChunk_zero]

theorem messagePackets_of_lt (hc : 0 < c) (h : c < message.length) :
    messagePackets message c = packetOf (message.take c) :: messagePackets (message.drop c) c := by
  rw [messagePackets, packetCount_of_lt hc h, List.range_succ_eq_map, messagePackets, List.length_drop]
  simp [messageChunk_zero, messageChunk_succ]

theorem messagePackets_length : (messagePackets message c).length = packetCount message.length c := by
  simp [messagePackets]

theorem messagePackets_getElem? {k : Nat} {p : Packet} (h : (messagePackets message c)[k]? = some p) :
    p = packetOf (messageChunk message c k) := by
  simp only [messagePackets, List.getElem?_map, Option.map_eq_some_iff, List.getElem?_eq_some_iff,
    List.getElem_range] at h
  obtain ⟨_, ⟨_, rfl⟩, rfl⟩ := h
  rfl

theorem messagePackets_payloads (hc : 0 < c) : ((messagePackets message c).map Packet.payload).flatten = message := by
  have hpay : (messagePackets message c).map Packet.payload =
      (List.range (packetCount message.length c)).map (messageChunk message c) := List.map_map
  rw [hpay, flatten_messageChunk, List.take_of_length_le (le_packetCount_mul hc)]

end

/-- `toPackets` in closed form: its loop takes one chunk from the front in each round. -/
theorem toPackets_eq_messagePackets (message : List Byte) {c : Byte} (h : c ≠ 0#8) :
    toPackets message c = some (messagePackets message c.toNat) := by
  have hpos := toNat_pos_of_ne_zero h
  induction hn : message.length using Nat.strong_induction_on generalizing message with
  | _ n ih =>
    rw [toPackets_unfold message h]
    rcases Nat.lt_or_ge c.toNat message.length with hlt | hle
    · have hrest : message.drop c.toNat ≠ [] := by simpa using hlt
      rw [if_neg hrest, ih _ (by rw [List.length_drop]; omega) _ rfl, messagePackets_of_lt hpos hlt]
      rfl
    · rw [if_pos (List.drop_of_length_le hle), messagePackets_of_le hpos hle]

theorem exec_toPackets (s : State) (message : List Byte) {c : Byte} (h : c ≠ 0#8) :
    exec (.toPackets message c) s = .next (s.answer (.packets (messagePackets message c.toNat))) := by
  simp only [exec, execToPackets, toPackets_eq_messagePackets message h]
  rfl

theorem toPacketData_zero (message : List Byte) : toPacketData message 0#8 = none := by
  simp [toPacketData, toPackets_zero]

/-! ### The two statements -/

/-- Settles O46: the packets returned are those of R122's list, and a chunk of at most 255 bytes is a packet. -/
theorem toPacketsCutsTheMessage : Obligations.ToPacketsCutsTheMessage := by
  intro s m c hc
  refine ⟨messagePackets m c.toNat, exec_toPackets s m hc, messagePackets_length, fun k p hp => ?_,
    messagePackets_payloads (toNat_pos_of_ne_zero hc)⟩
  obtain rfl := messagePackets_getElem? hp
  have hlen := messageChunk_length_le m c.toNat k
  have := c.isLt
  exact ⟨packetOf_wf (by omega), rfl⟩

/-- Settles O48: with capacity 0 neither function has a value. -/
theorem zeroCapacityCallsAbort : Obligations.ZeroCapacityCallsAbort := by
  intro s m
  constructor
  · simp only [exec, execToPackets, toPackets_zero]
    rfl
  · simp only [exec, execToPacketData, toPacketData_zero]
    rfl

end Sys2Proof.Machine

/-! ## Proofs: the message codec (O47, O49, O50, O53) -/

namespace Sys2Proof.Machine

/-! ### A stream of frames (R131, R132) -/

theorem frames_length (ps : List Packet) :
    (ps.map serialize).flatten.length = (ps.map Packet.payload).flatten.length + 6 * ps.length := by
  induction ps with
  | nil => rfl
  | cons p ps ih =>
    simp only [List.map_cons, List.flatten_cons, List.length_append, List.length_cons, serialize_length, ih]
    omega

theorem messagePackets_wf (message : List Byte) (c : Byte) :
    ∀ p ∈ messagePackets message c.toNat, p.wf = true := by
  intro p hp
  obtain ⟨k, -, rfl⟩ := List.mem_map.mp hp
  have hlen := messageChunk_length_le message c.toNat k
  have := c.isLt
  exact packetOf_wf (by omega)

theorem toPacketData_eq_frames (message : List Byte) {c : Byte} (h : c ≠ 0#8) :
    toPacketData message c = some ((messagePackets message c.toNat).map serialize).flatten := by
  rw [toPacketData, toPackets_eq_messagePackets message h]
  rfl

theorem exec_toPacketData (s : State) (message : List Byte) {c : Byte} (h : c ≠ 0#8) :
    exec (.toPacketData message c) s =
      .next (s.answer (.bytes ((messagePackets message c.toNat).map serialize).flatten)) := by
  simp only [exec, execToPacketData, toPacketData_eq_frames message h]
  rfl

/-! ### The loop of `fromPacketData` without its fuel (R134) -/

/-- The loop of R134 from a round on: `acc` is accumulated and `bytes` are still to be read. -/
def reassembleFrom (valid : List Byte → Bool) (acc bytes : List Byte) : Result (List Byte) :=
  fromPacketDataLoop valid bytes.length acc bytes

section
variable (valid : List Byte → Bool) (acc : List Byte)

theorem fromPacketDataWith_eq_reassembleFrom (bytes : List Byte) :
    fromPacketDataWith valid bytes = reassembleFrom valid [] bytes := rfl

theorem reassembleFrom_nil :
    reassembleFrom valid acc [] = if valid acc then .ok acc else .err .corruptedMessage := rfl

theorem reassembleFrom_of_err {bytes : List Byte} {e : PacketError} (hne : bytes ≠ [])
    (h : deserialize bytes = .err e) : reassembleFrom valid acc bytes = .err e := by
  obtain ⟨n, hn⟩ := Nat.exists_eq_add_one.mpr (List.length_pos_iff.mpr hne)
  rw [reassembleFrom, hn, fromPacketDataLoop_succ, if_neg hne, h]

theorem reassembleFrom_of_ok {bytes rest : List Byte} {p : Packet} (h : deserialize bytes = .ok (p, rest)) :
    reassembleFrom valid acc bytes = reassembleFrom valid (acc ++ p.payload) rest := by
  have hlen := deserialize_ok_length h
  have hne : bytes ≠ [] := List.length_pos_iff.mp (by omega)
  obtain ⟨n, hn⟩ := Nat.exists_eq_add_one.mpr (List.length_pos_iff.mpr hne)
  rw [reassembleFrom, hn, fromPacketDataLoop_succ, if_neg hne, h]
  exact fromPacketDataLoop_fuel valid n rest.length _ rest (by omega) le_rfl

/-- The frames of packets at the front of the bytes only move their payloads to the accumulator. -/
theorem reassembleFrom_frames_append {ps : List Packet} (hwf : ∀ p ∈ ps, p.wf = true) (tail : List Byte) :
    reassembleFrom valid acc ((ps.map serialize).flatten ++ tail) =
      reassembleFrom valid (acc ++ (ps.map Packet.payload).flatten) tail := by
  induction ps generalizing acc with
  | nil => simp
  | cons p ps ih =>
    obtain ⟨hp, hps⟩ := List.forall_mem_cons.mp hwf
    simp only [List.map_cons, List.flatten_cons, List.append_assoc]
    rw [reassembleFrom_of_ok valid acc (deserialize_serialize_append hp _), ih _ hps, List.append_assoc]

end

theorem fromPacketDataWith_frames_append (valid : List Byte → Bool) {ps : List Packet}
    (hwf : ∀ p ∈ ps, p.wf = true) (tail : List Byte) :
    fromPacketDataWith valid ((ps.map serialize).flatten ++ tail) =
      reassembleFrom valid (ps.map Packet.payload).flatten tail :=
  reassembleFrom_frames_append valid [] hwf tail

/-- A stream of frames is judged by its payloads alone (R135). -/
theorem fromPacketDataWith_frames (valid : List Byte → Bool) {ps : List Packet} (hwf : ∀ p ∈ ps, p.wf = true) :
    fromPacketDataWith valid (ps.map serialize).flatten =
      if valid (ps.map Packet.payload).flatten then .ok (ps.map Packet.payload).flatten
      else .err .corruptedMessage := by
  rw [← reassembleFrom_nil, ← fromPacketDataWith_frames_append valid hwf, List.append_nil]

/-! ### The rows of the UTF-8 table (R136) -/

@[simp] theorem inRange_iff {lo hi : Nat} {b : Byte} : inRange lo hi b = true ↔ lo ≤ b.toNat ∧ b.toNat ≤ hi := by
  simp [inRange]

/-- A byte group matches a row: each byte lies in the range of its place. -/
abbrev MatchesRow : List (Nat × Nat) → List Byte → Prop := List.Forall₂ fun r b => inRange r.1 r.2 b = true

/-- The second formulation of the table has the rows of the validator's. -/
theorem isUtf8Group_iff (g : List Byte) : isUtf8Group g = true ↔ ∃ row ∈ utf8Rows, MatchesRow row g := by
  match g with
  | [] => simp [isUtf8Group, utf8Rows]
  | [a] => simp [isUtf8Group, utf8Rows]
  | [a, b] => simp [isUtf8Group, utf8Rows]
  | [a, b, c] => simp [isUtf8Group, utf8Rows, or_assoc, and_assoc]
  | [a, b, c, d] => simp [isUtf8Group, utf8Rows, or_assoc, and_assoc]
  | _ :: _ :: _ :: _ :: _ :: _ => simp [isUtf8Group, utf8Rows]

theorem ne_nil_of_isUtf8Group {g : List Byte} (h : isUtf8Group g = true) : g ≠ [] := by
  rintro rfl
  cases h

/-- Rows whose first ranges meet have groups of one length. -/
theorem utf8Rows_length_eq_of_first_meet :
    ∀ row ∈ utf8Rows, ∀ row' ∈ utf8Rows, ∀ f ∈ row.head?, ∀ f' ∈ row'.head?,
      f.1 ≤ f'.2 → f'.1 ≤ f.2 → row.length = row'.length := by
  decide

/-- The first byte of a group fixes its length. -/
theorem isUtf8Group_length_eq {b : Byte} {g g' : List Byte} (h : isUtf8Group (b :: g) = true)
    (h' : isUtf8Group (b :: g') = true) : (b :: g).length = (b :: g').length := by
  obtain ⟨row, hrow, hm⟩ := (isUtf8Group_iff _).mp h
  obtain ⟨row', hrow', hm'⟩ := (isUtf8Group_iff _).mp h'
  rw [← hm.length_eq, ← hm'.length_eq]
  obtain ⟨f, _, hf, -, rfl⟩ := List.forall₂_cons_right_iff.mp hm
  obtain ⟨f', _, hf', -, rfl⟩ := List.forall₂_cons_right_iff.mp hm'
  obtain ⟨hlo, hhi⟩ := inRange_iff.mp hf
  obtain ⟨hlo', hhi'⟩ := inRange_iff.mp hf'
  exact utf8Rows_length_eq_of_first_meet _ hrow _ hrow' f rfl f' rfl (hlo.trans hhi') (hlo'.trans hhi)

/-- A byte sequence has at most one group at its front. -/
theorem isUtf8Group_append_inj {g g' rest rest' : List Byte} (h : isUtf8Group g = true)
    (h' : isUtf8Group g' = true) (heq : g ++ rest = g' ++ rest') : g = g' ∧ rest = rest' := by
  obtain ⟨b, t, rfl⟩ := List.exists_cons_of_ne_nil (ne_nil_of_isUtf8Group h)
  obtain ⟨b', t', rfl⟩ := List.exists_cons_of_ne_nil (ne_nil_of_isUtf8Group h')
  obtain ⟨rfl, -⟩ := List.cons.inj heq
  exact List.append_inj heq (isUtf8Group_length_eq h h')

/-! ### The validator (R136) -/

theorem dropRow_eq_some_iff {row : List (Nat × Nat)} {m rest : List Byte} :
    dropRow row m = some rest ↔ ∃ g, MatchesRow row g ∧ m = g ++ rest := by
  induction row generalizing m with
  | nil => simp [dropRow]
  | cons r row ih =>
    cases m with
    | nil => simp [dropRow, List.forall₂_cons_left_iff]
    | cons b m =>
      simp only [dropRow, Option.ite_none_right_eq_some, ih, List.forall₂_cons_left_iff]
      constructor
      · rintro ⟨hb, g, hg, rfl⟩
        exact ⟨b :: g, ⟨b, g, inRange_iff.mpr hb, hg, rfl⟩, rfl⟩
      · rintro ⟨_, ⟨b', g, hb, hg, rfl⟩, heq⟩
        obtain ⟨rfl, rfl⟩ := List.cons.inj heq
        exact ⟨inRange_iff.mp hb, g, hg, rfl⟩

theorem isUtf8Group_of_dropGroup {m rest : List Byte} (h : dropGroup m = some rest) :
    ∃ g, isUtf8Group g = true ∧ m = g ++ rest := by
  obtain ⟨row, hrow, hd⟩ := List.exists_of_findSome?_eq_some h
  obtain ⟨g, hg, rfl⟩ := dropRow_eq_some_iff.mp hd
  exact ⟨g, (isUtf8Group_iff g).mpr ⟨row, hrow, hg⟩, rfl⟩

theorem dropGroup_append {g : List Byte} (h : isUtf8Group g = true) (rest : List Byte) :
    dropGroup (g ++ rest) = some rest := by
  obtain ⟨row, hrow, hg⟩ := (isUtf8Group_iff g).mp h
  have hsome : (dropGroup (g ++ rest)).isSome := List.findSome?_isSome_iff.mpr
    ⟨row, hrow, Option.isSome_of_eq_some (dropRow_eq_some_iff.mpr ⟨g, hg, rfl⟩)⟩
  obtain ⟨rest', hd⟩ := Option.isSome_iff_exists.mp hsome
  obtain ⟨g', hg', heq⟩ := isUtf8Group_of_dropGroup hd
  rw [hd, (isUtf8Group_append_inj h hg' heq).2]

/-- Being a concatenation of groups of the table, the right side of R136. -/
def IsUtf8Concat (m : List Byte) : Prop := ∃ gs : List (List Byte), gs.flatten = m ∧ ∀ g ∈ gs, isUtf8Group g = true

theorem isUtf8Concat_nil : IsUtf8Concat [] := ⟨[], rfl, by simp⟩

/-- What is a concatenation of groups starts with one, and the rest is such a concatenation again. -/
theorem isUtf8Concat_iff_of_ne_nil {m : List Byte} (hne : m ≠ []) :
    IsUtf8Concat m ↔ ∃ rest, dropGroup m = some rest ∧ IsUtf8Concat rest := by
  constructor
  · rintro ⟨_ | ⟨g, gs⟩, rfl, hgs⟩
    · exact absurd rfl hne
    · obtain ⟨hg, hgs⟩ := List.forall_mem_cons.mp hgs
      exact ⟨gs.flatten, dropGroup_append hg _, gs, rfl, hgs⟩
  · rintro ⟨rest, hd, gs, rfl, hgs⟩
    obtain ⟨g, hg, rfl⟩ := isUtf8Group_of_dropGroup hd
    exact ⟨g :: gs, rfl, List.forall_mem_cons.mpr ⟨hg, hgs⟩⟩

theorem dropGroup_length_lt {m rest : List Byte} (h : dropGroup m = some rest) : rest.length < m.length := by
  obtain ⟨g, hg, rfl⟩ := isUtf8Group_of_dropGroup h
  have := List.length_pos_iff.mpr (ne_nil_of_isUtf8Group hg)
  rw [List.length_append]
  omega

/-- As many rounds as bytes are enough for the validator's loop. -/
theorem msgValidLoop_iff {fuel : Nat} {m : List Byte} (hf : m.length ≤ fuel) :
    msgValidLoop fuel m = true ↔ IsUtf8Concat m := by
  induction fuel generalizing m with
  | zero =>
    obtain rfl : m = [] := List.length_eq_zero_iff.mp (by omega)
    simp [msgValidLoop, isUtf8Concat_nil]
  | succ fuel ih =>
    rcases eq_or_ne m [] with rfl | hne
    · simp [msgValidLoop, isUtf8Concat_nil]
    · rw [isUtf8Concat_iff_of_ne_nil hne]
      cases hd : dropGroup m with
      | none => simp [msgValidLoop, hne, hd]
      | some rest =>
        have := dropGroup_length_lt hd
        simp [msgValidLoop, hne, hd, ih (m := rest) (by omega)]

/-! ### The four statements -/

/-- Settles O47: the stream is the frames of R122's packets, and each frame adds 6 bytes to its payload. -/
theorem toPacketDataConcatenatesFrames : Obligations.ToPacketDataConcatenatesFrames := by
  intro s m c hc
  refine ⟨_, _, exec_toPackets s m hc, exec_toPacketData s m hc, rfl, ?_⟩
  rw [frames_length, messagePackets_payloads (toNat_pos_of_ne_zero hc), messagePackets_length]

/-- Settles O49: frames that pass move to the accumulator, and what follows them decides. -/
theorem fromPacketDataReassembles : Obligations.FromPacketDataReassembles := by
  refine ⟨fun _ _ => rfl, rfl, fun valid ps hwf => ⟨fun hv => ?_, fun hv => ?_, fun bad e hne he => ?_⟩⟩
  · rw [fromPacketDataWith_frames valid hwf, if_pos hv]
  · rw [fromPacketDataWith_frames valid hwf, hv]
    rfl
  · rw [fromPacketDataWith_frames_append valid hwf, reassembleFrom_of_err valid _ hne he]

/-- Settles O50: the first byte of a group fixes its length, so the validator's cutting into groups is the only one. -/
theorem messageValidityIsTheUtf8Table : Obligations.MessageValidityIsTheUtf8Table :=
  fun _ => msgValidLoop_iff le_rfl

/-- Settles O53: the payloads of the packets of a message are the message. -/
theorem roundTripLaw : Obligations.RoundTripLaw := by
  intro valid m c hc
  refine ⟨_, toPacketData_eq_frames m hc, ?_⟩
  rw [fromPacketDataWith_frames valid (messagePackets_wf m c), messagePackets_payloads (toNat_pos_of_ne_zero hc)]
  exact ⟨fun hv => if_pos hv, fun hv => if_neg (by simp [hv])⟩

end Sys2Proof.Machine

/-! ## Proofs: the TX engine (O12, O13, O14, O15, O16, O17, O18, O21, O22) -/

namespace Sys2Proof.Machine

/-! ### The chunk held and its frame (R153 to R155) -/

/-- The bytes of the current chunk, `tbuf[0..tcnt]` (R23, R24). -/
def Tx.chunk (epoch : Nat) (t : Tx) : List Byte := t.tbuf.bytes (tbufFree epoch) t.tcnt.toNat

theorem Tx.chunk_of_tcnt_zero (epoch : Nat) {t : Tx} (h : t.tcnt = 0#8) : t.chunk epoch = [] := by
  simp [Tx.chunk, h]

theorem Tx.chunk_eq_nil_iff {epoch : Nat} {t : Tx} : t.chunk epoch = [] ↔ t.tcnt = 0#8 := by
  rw [← List.length_eq_zero_iff, Tx.chunk, Memory.bytes_length, ← BitVec.toNat_inj]
  rfl

/-- `emit_frame` of bytes whose sum is `tsum` is `serialize` of their packet (R102, R155). -/
theorem Tx.frameSymbols_eq_serialize {epoch : Nat} {n : Byte} {t : Tx} {p : List Byte}
    (hbytes : t.tbuf.bytes (tbufFree epoch) n.toNat = p) (hsum : t.tsum = checksum p) :
    t.frameSymbols epoch n = (serialize (packetOf p)).map .byte := by
  subst hbytes
  simp [Tx.frameSymbols, serialize, packetOf, hsum]

/-- A byte that does not fill its chunk (R153). -/
theorem Tx.collect_of_not_full {epoch : Nat} {b : Byte} {t : Tx} (hroom : t.tcnt.toNat < 255)
    (hne : t.tcnt + 1#8 ≠ t.tcap) :
    t.collect epoch b =
      .ok { t with tbuf := t.tbuf.write t.tcnt.toNat b, tsum := t.tsum + zext32 b, tcnt := t.tcnt + 1#8 } := by
  obtain ⟨t', ht⟩ := Tx.collect_completes epoch b hroom
  obtain ⟨-, ⟨-, rfl⟩ | ⟨heq, -⟩⟩ := Tx.collect_ok ht
  · exact ht
  · exact absurd heq hne

/-- The byte that fills its chunk emits the frame of the whole chunk (R154). -/
theorem Tx.collect_of_full {epoch : Nat} {b : Byte} {t : Tx} (hroom : t.tcnt.toNat < 255)
    (heq : t.tcnt + 1#8 = t.tcap) (hsum : t.tsum = checksum (t.chunk epoch)) :
    t.collect epoch b =
      .ok { t with
        tbuf := t.tbuf.write t.tcnt.toNat b, tsum := 0#32, tcnt := 0#8,
        q := t.q ++ (serialize (packetOf (t.chunk epoch ++ [b]))).map .byte } := by
  obtain ⟨t', ht⟩ := Tx.collect_completes epoch b hroom
  obtain ⟨-, ⟨hne, -⟩ | ⟨-, rfl⟩⟩ := Tx.collect_ok ht
  · exact absurd heq hne
  · have hnext : (t.tcnt + 1#8).toNat = t.tcnt.toNat + 1 := by bv_omega
    have hframe := Tx.frameSymbols_eq_serialize (epoch := epoch) (n := t.tcnt + 1#8) (p := t.chunk epoch ++ [b])
      (t := { t with tbuf := t.tbuf.write t.tcnt.toNat b, tsum := t.tsum + zext32 b })
      (by rw [hnext]; exact Memory.bytes_write_succ _ _ _ _) (by rw [checksum_snoc, ← hsum])
    rw [ht, ← hframe]
    rfl

/-- `End` inside a message: the frame of the chunk held, if there is one, then `End` (R156). -/
theorem Tx.endOfMessage_eq {epoch : Nat} {t : Tx} (hsum : t.tsum = checksum (t.chunk epoch)) :
    t.endOfMessage epoch =
      { t with
        ctl := .idle, tcnt := 0#8, tsum := 0#32,
        q := t.q ++ (if t.tcnt = 0#8 then [] else (serialize (packetOf (t.chunk epoch))).map .byte) ++
          [.endMark] } := by
  have hframe := Tx.frameSymbols_eq_serialize (n := t.tcnt) (p := t.chunk epoch) rfl hsum
  unfold Tx.endOfMessage
  split
  · rw [List.append_nil]
  · rw [← hframe]
    rfl

/-! ### What an accepted symbol does, an equation for each row of R160 -/

/-- The engine at the start of a message with a byte: the capacity is latched and the chunk is empty (R151). -/
def Tx.startMessage (cap : Byte) (t : Tx) : Tx := { t with tcap := cap, ctl := .collect, tcnt := 0#8, tsum := 0#32 }

section
variable {t : Tx}

theorem Tx.accept_idle_zero (epoch : Nat) (hctl : t.ctl = .idle) (x : Symbol) :
    t.accept epoch 0#8 x = .ok { t with tcap := 0#8, ctl := .abort } := by
  rw [Tx.accept, if_pos hctl]
  rfl

theorem Tx.accept_idle_byte (epoch : Nat) {cap : Byte} (hctl : t.ctl = .idle) (hcap : cap ≠ 0#8) (b : Byte) :
    t.accept epoch cap (.byte b) = (t.startMessage cap).collect epoch b := by
  rw [Tx.accept, if_pos hctl, Tx.messageStart, if_neg hcap]
  rfl

theorem Tx.accept_idle_end (epoch : Nat) {cap : Byte} (hctl : t.ctl = .idle) (hcap : cap ≠ 0#8)
    (hsum : t.tsum = 0#32) :
    t.accept epoch cap .endMark =
      .ok { t with tcap := cap, q := t.q ++ (serialize (packetOf [])).map .byte ++ [.endMark] } := by
  have hframe := Tx.frameSymbols_eq_serialize (epoch := epoch) (n := 0#8) (t := { t with tcap := cap }) (p := [])
    rfl hsum
  rw [Tx.accept, if_pos hctl, Tx.messageStart, if_neg hcap, ← hframe]
  rfl

theorem Tx.accept_collect_byte (epoch : Nat) (cap : Byte) (hctl : t.ctl = .collect) (b : Byte) :
    t.accept epoch cap (.byte b) = t.collect epoch b := by
  rw [Tx.accept, if_neg (by simp [hctl]), Tx.inMessage]

theorem Tx.accept_collect_end (epoch : Nat) (cap : Byte) (hctl : t.ctl = .collect) :
    t.accept epoch cap .endMark = .ok (t.endOfMessage epoch) := by
  rw [Tx.accept, if_neg (by simp [hctl]), Tx.inMessage]

theorem Tx.enabled_of_idle (hctl : t.ctl = .idle) (hq : t.q = []) : txInEnabled t = true :=
  (txInEnabled_iff t).mpr ⟨by simp [hctl], hq⟩

theorem Tx.enabled_of_collect (hctl : t.ctl = .collect) (hq : t.q = []) : txInEnabled t = true :=
  (txInEnabled_iff t).mpr ⟨by simp [hctl], hq⟩

/-- In `TXS_COLLECT` `tsum` is the sum of the bytes held (R44 b). -/
theorem Tx.Inv.tsum_eq {epoch : Nat} (h : t.Inv epoch) (hctl : t.ctl = .collect) :
    t.tsum = checksum (t.chunk epoch) := by
  obtain ⟨-, hcollect, -⟩ := h
  obtain ⟨-, -, hsum, -⟩ := hcollect hctl
  exact hsum

end

/-! ### `TxIn`, enabled and not (R150) -/

/-- A 9-bit word is the symbol of its data bits and its `end` bit (R62, R88). -/
theorem symWord_eq (w : SymWord) : w = if isEnd w then endWord (dataBits w) else byteWord (dataBits w) := by
  refine BitVec.eq_of_getLsbD_eq fun i hi => ?_
  rcases Nat.lt_succ_iff_lt_or_eq.mp hi with hlt | rfl
  · split <;> simp [getLsbD_endWord, getLsbD_byteWord, dataBits, hlt]
  · split
    case isTrue hend => rw [getLsbD_endWord]; exact hend
    case isFalse hbyte => rw [getLsbD_byteWord]; exact Bool.eq_false_of_not_eq_true hbyte

/-- The symbol read on `TX_IN` is run as `TxIn` of the very word on the port. -/
theorem exec_decodeTxSymbol (w : SymWord) (s : State) : exec (decodeTxSymbol w) s = txIn w s := by
  conv_rhs => rw [symWord_eq w]
  unfold decodeTxSymbol
  split <;> rfl

section
variable {s : State}

theorem txIn_of_accept {w : SymWord} {t : Tx} (hen : txInEnabled s.tx = true)
    (ha : s.tx.accept s.epoch s.cap (symbolOfWord w) = .ok t) : txIn w s = .next (s.setTx t) := by
  simp only [txIn, hen, if_true, ha]

theorem txIn_of_not_enabled (h : s.tx.ctl = .abort ∨ s.tx.q ≠ []) (w : SymWord) :
    txIn w s = .next (s.holdTxIn w) := by
  have hnot : ¬ txInEnabled s.tx = true := by rw [txInEnabled_iff]; tauto
  exact if_neg hnot

theorem exec_txinB_of_accept {d : Byte} {t : Tx} (hen : txInEnabled s.tx = true)
    (ha : s.tx.accept s.epoch s.cap (.byte d) = .ok t) : exec (.txinB d) s = .next (s.setTx t) :=
  txIn_of_accept hen (by rw [symbolOfWord_byteWord, ha])

theorem exec_txinE_of_accept {x : Byte} {t : Tx} (hen : txInEnabled s.tx = true)
    (ha : s.tx.accept s.epoch s.cap .endMark = .ok t) : exec (.txinE x) s = .next (s.setTx t) :=
  txIn_of_accept hen (by rw [symbolOfWord_endWord, ha])

/-- A `TxIn` move with a symbol on the port. -/
theorem step_txIn_offered {ms : List Move} {w : SymWord} {ws : List SymWord} (hm : s.env.moves = .txIn :: ms)
    (hp : s.env.txIn = w :: ws) : step s = txIn w { s with env := { s.env with moves := ms, txIn := ws } } := by
  rw [step_txIn hm hp rfl, exec_decodeTxSymbol]

/-- A `TxIn` move with no symbol on the port. -/
theorem step_txIn_empty {ms : List Move} (hm : s.env.moves = .txIn :: ms) (hp : s.env.txIn = []) :
    step s = .next { s with env := { s.env with moves := ms } } :=
  step_idle hm (by simp only [fetchMove, hp])

/-- A `TxIn` move that is not enabled leaves the port and the block as they were. -/
theorem step_txIn_of_not_enabled {ms : List Move} (h : s.tx.ctl = .abort ∨ s.tx.q ≠ [])
    (hm : s.env.moves = .txIn :: ms) : step s = .next { s with env := { s.env with moves := ms } } := by
  cases hp : s.env.txIn with
  | nil => exact step_txIn_empty hm hp
  | cons w ws =>
    rw [step_txIn_offered hm hp,
      txIn_of_not_enabled (s := { s with env := { s.env with moves := ms, txIn := ws } }) h w]
    simp [State.holdTxIn, State.setEnv, hp]

end

/-! ### The seven statements about one symbol -/

/-- Settles O12: with `CAP` 0 every symbol that starts a message has the one effect. -/
theorem zeroCapacityAbortsTheFramer : Obligations.ZeroCapacityAbortsTheFramer := by
  intro s d hctl hq hcap
  have hen := Tx.enabled_of_idle hctl hq
  have ha := Tx.accept_idle_zero s.epoch hctl
  rw [← hcap] at ha ⊢
  exact ⟨exec_txinB_of_accept hen (ha _), exec_txinE_of_accept hen (ha _)⟩

/-- Settles O13: the byte is collected into the empty chunk of a message just started. -/
theorem firstByteLatchesCapacityAndStartsChunk : Obligations.FirstByteLatchesCapacityAndStartsChunk := by
  intro s d hctl hq hcap
  refine exec_txinB_of_accept (Tx.enabled_of_idle hctl hq) ?_
  rw [Tx.accept_idle_byte s.epoch hctl hcap]
  have hroom : (s.tx.startMessage s.cap).tcnt.toNat < 255 := show (0#8).toNat < 255 by decide
  split
  case isTrue hone =>
    rw [Tx.collect_of_full hroom hone.symm rfl]
    simp [Tx.startMessage, Tx.chunk, hq]
  case isFalse hne =>
    rw [Tx.collect_of_not_full hroom (Ne.symm hne)]
    simp [Tx.startMessage]

/-- Settles O14: the byte is collected into a chunk that it does not fill. -/
theorem byteInsideChunkIsStoredAndSummed : Obligations.ByteInsideChunkIsStoredAndSummed := by
  intro s d hctl hq hroom hne
  refine exec_txinB_of_accept (Tx.enabled_of_collect hctl hq) ?_
  rw [Tx.accept_collect_byte s.epoch s.cap hctl, Tx.collect_of_not_full hroom hne]

/-- Settles O15: under the invariant `tsum` is the sum of the chunk, so the frame emitted is that of its packet. -/
theorem fullChunkEmitsItsFrame : Obligations.FullChunkEmitsItsFrame := by
  intro s d hinv hctl hq hfull
  refine exec_txinB_of_accept (Tx.enabled_of_collect hctl hq) ?_
  rw [Tx.accept_collect_byte s.epoch s.cap hctl, Tx.collect_of_full (hinv.tcnt_lt hctl) hfull (hinv.tsum_eq hctl), hq]
  rfl

/-- Settles O16: under the invariant `tsum` is the sum of the chunk flushed. -/
theorem endFlushesTheLastChunk : Obligations.EndFlushesTheLastChunk := by
  intro s x hinv hctl hq
  refine exec_txinE_of_accept (Tx.enabled_of_collect hctl hq) ?_
  rw [Tx.accept_collect_end s.epoch s.cap hctl, Tx.endOfMessage_eq (hinv.tsum_eq hctl), hq]
  rfl

/-- Settles O17: under the invariant `tsum` is 0 in `TXS_IDLE`, so the frame is that of the empty payload. -/
theorem emptyMessageGivesOneEmptyFrame : Obligations.EmptyMessageGivesOneEmptyFrame := by
  intro s x hinv hctl hq hcap
  obtain ⟨-, hsum⟩ := hinv.1 hctl
  refine exec_txinE_of_accept (Tx.enabled_of_idle hctl hq) ?_
  rw [Tx.accept_idle_end s.epoch hctl hcap hsum, hq]
  rfl

/-- Settles O18: the operation puts the symbol back, and a step has taken it from where it puts it back. -/
theorem txSymbolStaysOfferedWhenNotEnabled : Obligations.TxSymbolStaysOfferedWhenNotEnabled := by
  intro s h
  exact ⟨fun d => txIn_of_not_enabled h (byteWord d), fun x => txIn_of_not_enabled h (endWord x),
    fun _ => step_txIn_of_not_enabled h⟩

/-! ### The frames of a message, chunk by chunk (R122, R131) -/

/-- The symbols of the frames of a whole message: those of `toPacketData` (R131). -/
def messageFrames (m : List Byte) (c : Nat) : List Symbol := ((messagePackets m c).map serialize).flatten.map .byte

/-- The symbols of the frames of what is left of a message some of which has been framed: none where nothing is left. -/
def restFrames (m : List Byte) (c : Nat) : List Symbol := if m = [] then [] else messageFrames m c

@[simp] theorem restFrames_nil (c : Nat) : restFrames [] c = [] := rfl

theorem restFrames_of_ne_nil {m : List Byte} (h : m ≠ []) (c : Nat) : restFrames m c = messageFrames m c :=
  if_neg h

theorem messageFrames_of_le {m : List Byte} {c : Nat} (hc : 0 < c) (h : m.length ≤ c) :
    messageFrames m c = (serialize (packetOf m)).map .byte := by
  simp [messageFrames, messagePackets_of_le hc h, List.take_of_length_le h]

/-- A full chunk at the front is one frame, and what is left is framed on its own. -/
theorem restFrames_full_chunk_append {p : List Byte} {c : Nat} (hc : 0 < c) (hp : p.length = c) (m : List Byte) :
    restFrames (p ++ m) c = (serialize (packetOf p)).map .byte ++ restFrames m c := by
  have hne : p ++ m ≠ [] := List.append_ne_nil_of_left_ne_nil (List.ne_nil_of_length_pos (hp ▸ hc)) m
  rw [restFrames_of_ne_nil hne]
  by_cases hm : m = []
  · subst hm
    rw [List.append_nil, messageFrames_of_le hc hp.le, restFrames_nil, List.append_nil]
  · have hlt : c < (p ++ m).length := by
      have := List.length_pos_iff.mpr hm
      rw [List.length_append]
      omega
    rw [restFrames_of_ne_nil hm, messageFrames, messagePackets_of_lt hc hlt, ← hp, List.take_left, List.drop_left]
    simp [messageFrames]

theorem toPacketData_eq_messageFrames (m : List Byte) {c : Byte} (h : c ≠ 0#8) :
    ∃ w, toPacketData m c = some w ∧ w.map .byte = messageFrames m c.toNat :=
  ⟨_, toPacketData_eq_frames m h, rfl⟩

/-! ### What the engine has still to emit (R153 to R157, R159) -/

/-- The frames still to come when the rest `m` of a message and `End` are accepted: in `TXS_IDLE` those of a new message,
in `TXS_COLLECT` those of the chunk held and `m`. -/
def Tx.framesToCome (epoch : Nat) (cap : Byte) (t : Tx) (m : List Byte) : List Symbol :=
  if t.ctl = .idle then messageFrames m cap.toNat else restFrames (t.chunk epoch ++ m) t.tcap.toNat

section
variable {epoch : Nat} {cap b : Byte} {t t' : Tx}

theorem Tx.framesToCome_of_idle (h : t.ctl = .idle) (m : List Byte) :
    t.framesToCome epoch cap m = messageFrames m cap.toNat := if_pos h

theorem Tx.framesToCome_of_collect (h : t.ctl = .collect) (m : List Byte) :
    t.framesToCome epoch cap m = restFrames (t.chunk epoch ++ m) t.tcap.toNat := if_neg (by simp [h])

/-- A byte collected fills the chunk and puts its frame on `tx_q`, or is held: no frame of the message is lost. -/
theorem Tx.collect_restFrames (hinv : t.Inv epoch) (hctl : t.ctl = .collect) (hq : t.q = [])
    (hx : t.collect epoch b = .ok t') (m : List Byte) :
    t'.ctl = .collect ∧ t'.tcap = t.tcap ∧
      t'.q ++ restFrames (t'.chunk epoch ++ m) t.tcap.toNat = restFrames (t.chunk epoch ++ b :: m) t.tcap.toNat := by
  have hroom := hinv.tcnt_lt hctl
  have hnext : (t.tcnt + 1#8).toNat = t.tcnt.toNat + 1 := by bv_omega
  by_cases hfull : t.tcnt + 1#8 = t.tcap
  · rw [Tx.collect_of_full hroom hfull (hinv.tsum_eq hctl)] at hx
    obtain rfl := Except.ok.inj hx
    have hlen : (t.chunk epoch ++ [b]).length = t.tcap.toNat := by simp [Tx.chunk, ← hfull, hnext]
    have hpos : 0 < t.tcap.toNat := by rw [← hfull, hnext]; omega
    refine ⟨hctl, rfl, ?_⟩
    rw [List.append_cons (t.chunk epoch) b m, restFrames_full_chunk_append hpos hlen, hq]
    rfl
  · rw [Tx.collect_of_not_full hroom hfull] at hx
    obtain rfl := Except.ok.inj hx
    refine ⟨hctl, rfl, ?_⟩
    rw [hq, List.append_cons _ b, List.nil_append]
    simp only [Tx.chunk, hnext, Memory.bytes_write_succ]

/-- The same of the frames still to come. -/
theorem Tx.collect_frames (hinv : t.Inv epoch) (hctl : t.ctl = .collect) (hq : t.q = [])
    (hx : t.collect epoch b = .ok t') (m : List Byte) :
    t'.ctl = .collect ∧ t'.tcap = t.tcap ∧
      t'.q ++ t'.framesToCome epoch cap m = t.framesToCome epoch cap (b :: m) := by
  obtain ⟨hctl', htcap, hframes⟩ := Tx.collect_restFrames hinv hctl hq hx m
  refine ⟨hctl', htcap, ?_⟩
  rw [Tx.framesToCome_of_collect hctl', Tx.framesToCome_of_collect hctl, htcap, hframes]

theorem Tx.startMessage_inv (hinv : t.Inv epoch) (hcap : cap ≠ 0#8) (hq : t.q = []) :
    (t.startMessage cap).Inv epoch := by
  obtain ⟨-, -, -, -, hbuf⟩ := hinv
  exact Tx.inv_of_collect rfl (toNat_pos_of_ne_zero hcap) rfl (by simp [Tx.startMessage])
    (by simp [Tx.startMessage, hq]) hbuf

/-- `TxIn` of a byte moves frames from those still to come to `tx_q`. -/
theorem Tx.accept_byte_frames (hinv : t.Inv epoch) (hen : txInEnabled t = true) (hcap : cap ≠ 0#8)
    (hlatched : t.ctl = .collect → t.tcap = cap) (hx : t.accept epoch cap (.byte b) = .ok t') (m : List Byte) :
    t'.ctl = .collect ∧ t'.tcap = cap ∧
      t'.q ++ t'.framesToCome epoch cap m = t.framesToCome epoch cap (b :: m) := by
  obtain ⟨-, hq⟩ := (txInEnabled_iff t).mp hen
  by_cases hi : t.ctl = .idle
  · rw [Tx.accept_idle_byte epoch hi hcap] at hx
    have hstart : (t.startMessage cap).framesToCome epoch cap (b :: m) = t.framesToCome epoch cap (b :: m) := by
      rw [Tx.framesToCome_of_idle hi, Tx.framesToCome_of_collect rfl, Tx.chunk_of_tcnt_zero epoch rfl]
      rfl
    rw [← hstart]
    exact Tx.collect_frames (Tx.startMessage_inv hinv hcap hq) rfl hq hx m
  · have hctl := Tx.ctl_eq_collect hen hi
    rw [Tx.accept_collect_byte epoch cap hctl] at hx
    rw [← hlatched hctl]
    exact Tx.collect_frames hinv hctl hq hx m

/-- `TxIn` of `End` puts every frame still to come, and `End`, on `tx_q`. -/
theorem Tx.accept_end_frames (hinv : t.Inv epoch) (hen : txInEnabled t = true) (hcap : cap ≠ 0#8)
    (hlatched : t.ctl = .collect → t.tcap = cap) (hx : t.accept epoch cap .endMark = .ok t') :
    t'.ctl = .idle ∧ t'.tcap = cap ∧ t'.q = t.framesToCome epoch cap [] ++ [.endMark] := by
  obtain ⟨-, hq⟩ := (txInEnabled_iff t).mp hen
  by_cases hi : t.ctl = .idle
  · obtain ⟨-, hsum⟩ := hinv.1 hi
    rw [Tx.accept_idle_end epoch hi hcap hsum] at hx
    obtain rfl := Except.ok.inj hx
    refine ⟨hi, rfl, ?_⟩
    rw [Tx.framesToCome_of_idle hi, messageFrames_of_le (toNat_pos_of_ne_zero hcap) (Nat.zero_le _), hq]
    rfl
  · have hctl := Tx.ctl_eq_collect hen hi
    rw [Tx.accept_collect_end epoch cap hctl, Tx.endOfMessage_eq (hinv.tsum_eq hctl)] at hx
    obtain rfl := Except.ok.inj hx
    refine ⟨rfl, hlatched hctl, ?_⟩
    obtain ⟨-, hcollect, -⟩ := hinv
    obtain ⟨hpos, hlt, -, -⟩ := hcollect hctl
    have hlen : (t.chunk epoch).length ≤ t.tcap.toNat := by rw [Tx.chunk, Memory.bytes_length]; omega
    rw [Tx.framesToCome_of_collect hctl, List.append_nil, hq, List.nil_append]
    rw [restFrames, messageFrames_of_le hpos hlen]
    simp only [Tx.chunk_eq_nil_iff]

end

/-! ### The steps `TxIn` and `TxOut`, as the list of moves attempts them (R11, R150, R200, R205) -/

/-- What a `TxIn` or `TxOut` move can come to, `ms` being the moves left: nothing, a symbol accepted, or one taken. -/
inductive State.TxMove (s : State) (ms : List Move) : State → Prop
  | quiet : s.TxMove ms { s with env := { s.env with moves := ms } }
  | accept {w : SymWord} {ws : List SymWord} {t : Tx} (hp : s.env.txIn = w :: ws) (hen : txInEnabled s.tx = true)
    (ha : s.tx.accept s.epoch s.cap (symbolOfWord w) = .ok t) :
    s.TxMove ms { s with tx := t, env := { s.env with moves := ms, txIn := ws } }
  | take {x : Symbol} {rest : List Symbol} (hq : s.tx.q = x :: rest) :
    s.TxMove ms (State.giveTxOut { s with tx := { s.tx with q := rest }, env := { s.env with moves := ms } } x)

section
variable {s t : State} {ms : List Move}

theorem step_txIn_of_accept {w : SymWord} {ws : List SymWord} {t : Tx} (hm : s.env.moves = .txIn :: ms)
    (hp : s.env.txIn = w :: ws) (hen : txInEnabled s.tx = true)
    (ha : s.tx.accept s.epoch s.cap (symbolOfWord w) = .ok t) :
    step s = .next { s with tx := t, env := { s.env with moves := ms, txIn := ws } } := by
  rw [step_txIn_offered hm hp]
  exact txIn_of_accept (s := { s with env := { s.env with moves := ms, txIn := ws } }) hen ha

theorem step_txOut_of_ready {x : Symbol} {rest : List Symbol} (hm : s.env.moves = .txOut :: ms)
    (hready : txOutReady s = true) (hq : s.tx.q = x :: rest) :
    step s = .next (State.giveTxOut { s with tx := { s.tx with q := rest }, env := { s.env with moves := ms } } x) := by
  rw [step_label (o := .txOut) hm (if_pos hready) rfl]
  simp only [exec, execTxout, hq]
  rfl

theorem step_txOut_of_empty (hm : s.env.moves = .txOut :: ms) (hq : s.tx.q = []) :
    step s = .next { s with env := { s.env with moves := ms } } := by
  by_cases hready : txOutReady s = true
  · rw [step_label (o := .txOut) hm (if_pos hready) rfl]
    simp only [exec, execTxout, hq]
  · exact step_idle hm (if_neg hready)

theorem step_txIn_txMove (hinv : s.tx.Inv s.epoch) (hm : s.env.moves = .txIn :: ms) :
    ∃ t, step s = .next t ∧ s.TxMove ms t := by
  cases hp : s.env.txIn with
  | nil => exact ⟨_, step_txIn_empty hm hp, .quiet⟩
  | cons w ws =>
    by_cases hen : txInEnabled s.tx = true
    · obtain ⟨t', ha⟩ := Tx.accept_completes hinv hen s.cap (symbolOfWord w)
      exact ⟨_, step_txIn_of_accept hm hp hen ha, .accept hp hen ha⟩
    · have hnot : s.tx.ctl = .abort ∨ s.tx.q ≠ [] := by rw [txInEnabled_iff] at hen; tauto
      exact ⟨_, step_txIn_of_not_enabled hnot hm, .quiet⟩

theorem step_txOut_txMove (hm : s.env.moves = .txOut :: ms) : ∃ t, step s = .next t ∧ s.TxMove ms t := by
  cases hq : s.tx.q with
  | nil => exact ⟨_, step_txOut_of_empty hm hq, .quiet⟩
  | cons x rest =>
    by_cases hready : txOutReady s = true
    · exact ⟨_, step_txOut_of_ready hm hready hq, .take hq⟩
    · exact ⟨_, step_idle hm (if_neg hready), .quiet⟩

theorem State.TxMove.inv (h : s.TxMove ms t) (hinv : s.tx.Inv s.epoch) : t.tx.Inv t.epoch := by
  cases h with
  | quiet => exact hinv
  | accept hp hen ha => exact Tx.accept_inv hinv hen ha
  | take hq => exact hinv.tail hq

theorem State.TxMove.moves_eq (h : s.TxMove ms t) : t.env.moves = ms := by
  cases h <;> rfl

/-- What these moves leave as it is. -/
def State.SameBesideTx (s t : State) : Prop := t.rx = s.rx ∧ t.cap = s.cap ∧ t.env.loopback = s.env.loopback

theorem State.TxMove.sameBesideTx (h : s.TxMove ms t) : s.SameBesideTx t := by
  cases h <;> exact ⟨rfl, rfl, rfl⟩

theorem State.SameBesideTx.trans {u : State} (h : s.SameBesideTx t) (h' : t.SameBesideTx u) : s.SameBesideTx u := by
  obtain ⟨hrx, hcap, hloop⟩ := h
  obtain ⟨hrx', hcap', hloop'⟩ := h'
  exact ⟨hrx'.trans hrx, hcap'.trans hcap, hloop'.trans hloop⟩

/-- A list of `TxIn` and `TxOut` attempts completes, and keeps what each of them keeps. -/
theorem run_txMoves {P : State → Prop}
    (hP : ∀ (s t : State) (ms : List Move), s.tx.Inv s.epoch → P s → s.TxMove ms t → P t) {first : List Move}
    (htx : ∀ mv ∈ first, mv = .txIn ∨ mv = .txOut) (hinv : s.tx.Inv s.epoch) (hs : P s)
    (hm : s.env.moves = first ++ ms) :
    ∃ t, run first.length s = .next t ∧ t.tx.Inv t.epoch ∧ P t ∧ s.SameBesideTx t ∧ t.env.moves = ms := by
  induction first generalizing s with
  | nil => exact ⟨s, rfl, hinv, hs, ⟨rfl, rfl, rfl⟩, hm⟩
  | cons mv first ih =>
    obtain ⟨hmv, hfirst⟩ := List.forall_mem_cons.mp htx
    obtain ⟨u, hstep, hu⟩ : ∃ u, step s = .next u ∧ s.TxMove (first ++ ms) u := by
      rcases hmv with rfl | rfl
      · exact step_txIn_txMove hinv hm
      · exact step_txOut_txMove hm
    obtain ⟨t, hrun, hinv', hPt, hsame, hmoves⟩ := ih hfirst (hu.inv hinv) (hP _ _ _ hinv hs hu) hu.moves_eq
    exact ⟨t, by rw [List.length_cons, run_succ hstep, hrun], hinv', hPt, hu.sameBesideTx.trans hsame, hmoves⟩

end

/-! ### A message under way (R159) -/

/-- A message is being sent whose wire stream, `End` included, is `wire`: some of it has been taken and some waits on
`tx_q`; either the rest of the message is still offered and makes the rest of the stream, or all of it has been accepted. -/
inductive State.Sending (x : Byte) (wire : List Symbol) (s : State) : Prop
  | offering (m : List Byte) (hp : s.env.txIn = offered m x) (hcap : s.cap ≠ 0#8) (hctl : s.tx.ctl ≠ .abort)
    (hlatched : s.tx.ctl = .collect → s.tx.tcap = s.cap)
    (hwire : s.env.txGot ++ s.tx.q ++ (s.tx.framesToCome s.epoch s.cap m ++ [.endMark]) = wire)
  | sent (hp : s.env.txIn = []) (hctl : s.tx.ctl = .idle) (hlatched : s.tx.tcap = s.cap)
    (hwire : s.env.txGot ++ s.tx.q = wire)

section
variable {x : Byte} {wire : List Symbol} {s t : State} {ms : List Move}

theorem State.sending_of_idle {m : List Byte} (hctl : s.tx.ctl = .idle) (hq : s.tx.q = []) (hcap : s.cap ≠ 0#8)
    (hp : s.env.txIn = offered m x) :
    s.Sending x (s.env.txGot ++ messageFrames m s.cap.toNat ++ [.endMark]) := by
  refine .offering m hp hcap (by simp [hctl]) (by simp [hctl]) ?_
  rw [hq, Tx.framesToCome_of_idle hctl]
  simp

/-- An accepted symbol is the next byte of the message, or its `End`. -/
theorem State.Sending.accept {w : SymWord} {ws : List SymWord} {t : Tx} (h : s.Sending x wire)
    (hinv : s.tx.Inv s.epoch) (hp : s.env.txIn = w :: ws) (hen : txInEnabled s.tx = true)
    (ha : s.tx.accept s.epoch s.cap (symbolOfWord w) = .ok t) :
    State.Sending x wire { s with tx := t, env := { s.env with moves := ms, txIn := ws } } := by
  obtain ⟨-, hq⟩ := (txInEnabled_iff s.tx).mp hen
  cases h with
  | sent hnone => exact absurd (hnone.symm.trans hp) (by simp)
  | offering m hoff hcap hctl hlatched hwire =>
    rw [hq, List.append_nil] at hwire
    cases m with
    | nil =>
      obtain ⟨rfl, rfl⟩ := List.cons.inj (hp.symm.trans hoff)
      rw [symbolOfWord_endWord] at ha
      obtain ⟨hidle, htcap, hqueue⟩ := Tx.accept_end_frames hinv hen hcap hlatched ha
      exact .sent rfl hidle htcap (by rw [hqueue, ← hwire])
    | cons b m =>
      obtain ⟨rfl, rfl⟩ := List.cons.inj (hp.symm.trans hoff)
      rw [symbolOfWord_byteWord] at ha
      obtain ⟨hcollect, htcap, hframes⟩ := Tx.accept_byte_frames hinv hen hcap hlatched ha m
      refine .offering m rfl hcap (by simp [hcollect]) (fun _ => htcap) ?_
      rw [← hwire, ← hframes]
      simp

theorem State.Sending.txMove (hinv : s.tx.Inv s.epoch) (h : s.Sending x wire) (hmove : s.TxMove ms t) :
    t.Sending x wire := by
  cases hmove with
  | quiet =>
    cases h with
    | offering m hp hcap hctl hlatched hwire => exact .offering m hp hcap hctl hlatched hwire
    | sent hp hctl hlatched hwire => exact .sent hp hctl hlatched hwire
  | accept hp hen ha => exact h.accept hinv hp hen ha
  | @take y rest hq =>
    have hgot : (s.env.txGot ++ [y]) ++ rest = s.env.txGot ++ s.tx.q := by simp [hq]
    cases h with
    | offering m hp hcap hctl hlatched hwire =>
      exact .offering m hp hcap hctl hlatched ((congrArg (· ++ _) hgot).trans hwire)
    | sent hp hctl hlatched hwire => exact .sent hp hctl hlatched (hgot.trans hwire)

/-- What has been taken and what waits is the wire stream from its start, and all of it once nothing is offered. -/
theorem State.Sending.wire_prefix (h : s.Sending x wire) :
    ∃ rest, wire = (s.env.txGot ++ s.tx.q) ++ rest ∧ (s.env.txIn = [] → rest = []) := by
  cases h with
  | offering m hp hcap hctl hlatched hwire => exact ⟨_, hwire.symm, fun hnone => by simp [hp, offered] at hnone⟩
  | sent hp hctl hlatched hwire => exact ⟨[], by rw [List.append_nil, hwire], fun _ => rfl⟩

end

/-- Settles O22: every attempt keeps the wire stream of the message under way. -/
theorem wireStreamIndependentOfSchedule : Obligations.WireStreamIndependentOfSchedule := by
  intro s m x ms hinv hctl hq hcap hp hm htx
  obtain ⟨w, hw, hframes⟩ := toPacketData_eq_messageFrames m hcap
  obtain ⟨t, hrun, -, hsending, -, -⟩ :=
    run_txMoves (ms := []) (fun _ _ _ => State.Sending.txMove) htx hinv (State.sending_of_idle hctl hq hcap hp)
      (hm.trans (List.append_nil ms).symm)
  rw [← hframes] at hsending
  exact ⟨t, w, hrun, hw, hsending.wire_prefix⟩

/-! ### Taking all output after each symbol (R92, R159) -/

section
variable {s : State} {ms : List Move}

/-- Where the host takes every symbol, `k` attempts at `TxOut` take the first `k` symbols of `tx_q`. -/
theorem run_txOuts (k : Nat) (hloop : s.env.loopback = false)
    (hm : s.env.moves = List.replicate k .txOut ++ ms) :
    ∃ t, run k s = .next t ∧ t.tx.q = s.tx.q.drop k ∧ t.env.txIn = s.env.txIn := by
  induction k generalizing s with
  | zero => exact ⟨s, rfl, rfl, rfl⟩
  | succ k ih =>
    cases hq : s.tx.q with
    | nil =>
      have hstep := step_txOut_of_empty (ms := List.replicate k .txOut ++ ms) hm hq
      obtain ⟨t, hrun, hqt, hin⟩ :=
        ih (s := { s with env := { s.env with moves := List.replicate k .txOut ++ ms } }) hloop rfl
      exact ⟨t, by rw [run_succ hstep, hrun], by simpa [hq] using hqt, hin⟩
    | cons y rest =>
      have hready : txOutReady s = true := by simp [txOutReady, hloop]
      have hstep := step_txOut_of_ready (ms := List.replicate k .txOut ++ ms) hm hready hq
      obtain ⟨t, hrun, hqt, hin⟩ := ih (s := State.giveTxOut { s with
        tx := { s.tx with q := rest }, env := { s.env with moves := List.replicate k .txOut ++ ms } } y) hloop rfl
      exact ⟨t, by rw [run_succ hstep, hrun], hqt, hin⟩

end

/-- One symbol of `drainSchedule`: it is offered and then all output is taken. -/
def drainRound : List Move := .txIn :: List.replicate 262 .txOut

theorem drainSchedule_succ (n : Nat) : drainSchedule (n + 1) = drainRound ++ drainSchedule n := rfl

theorem drainRound_tx : ∀ mv ∈ drainRound, mv = .txIn ∨ mv = .txOut :=
  List.forall_mem_cons.mpr ⟨.inl rfl, fun _ hmv => .inr (List.eq_of_mem_replicate hmv)⟩

theorem drainSchedule_tx (n : Nat) : ∀ mv ∈ drainSchedule n, mv = .txIn ∨ mv = .txOut := by
  induction n with
  | zero => exact fun mv hmv => absurd hmv List.not_mem_nil
  | succ n ih =>
    rw [drainSchedule_succ, List.forall_mem_append]
    exact ⟨drainRound_tx, ih⟩

section
variable {x : Byte} {wire : List Symbol} {s : State} {ms : List Move}

/-- A round accepts one symbol, since `tx_q` is empty at its start, and leaves `tx_q` empty, since it holds at most 262
symbols (R33). -/
theorem run_drainRound {w : SymWord} {ws : List SymWord} (hinv : s.tx.Inv s.epoch) (hctl : s.tx.ctl ≠ .abort)
    (hq : s.tx.q = []) (hp : s.env.txIn = w :: ws) (hloop : s.env.loopback = false)
    (hm : s.env.moves = drainRound ++ ms) :
    ∃ t, run drainRound.length s = .next t ∧ t.tx.q = [] ∧ t.env.txIn = ws := by
  have hen := (txInEnabled_iff s.tx).mpr ⟨hctl, hq⟩
  obtain ⟨u, ha⟩ := Tx.accept_completes hinv hen s.cap (symbolOfWord w)
  have hstep := step_txIn_of_accept (ms := List.replicate 262 .txOut ++ ms) hm hp hen ha
  obtain ⟨-, -, -, hlen, -⟩ := Tx.accept_inv hinv hen ha
  obtain ⟨t, hrun, hqt, hin⟩ := run_txOuts 262 (s := { s with
    tx := u, env := { s.env with moves := List.replicate 262 .txOut ++ ms, txIn := ws } }) hloop rfl
  refine ⟨t, ?_, hqt.trans (List.drop_eq_nil_of_le hlen), hin⟩
  rw [drainRound, List.length_cons, List.length_replicate, run_succ hstep, hrun]

/-- As many rounds as symbols are offered send the whole message. -/
theorem run_drainSchedule (n : Nat) (hinv : s.tx.Inv s.epoch) (hs : s.Sending x wire) (hq : s.tx.q = [])
    (hn : s.env.txIn.length = n) (hloop : s.env.loopback = false) (hm : s.env.moves = drainSchedule n) :
    ∃ t, run (drainSchedule n).length s = .next t ∧ t.tx.q = [] ∧ t.env.txIn = [] := by
  induction n generalizing s with
  | zero => exact ⟨s, rfl, hq, List.length_eq_zero_iff.mp hn⟩
  | succ n ih =>
    obtain ⟨w, ws, hp⟩ := List.exists_cons_of_length_eq_add_one hn
    have hctl : s.tx.ctl ≠ .abort := by
      cases hs with
      | offering m hoff hcap hctl => exact hctl
      | sent hnone => simp [hnone] at hn
    rw [drainSchedule_succ] at hm
    obtain ⟨u, hrun, hqu, hin⟩ := run_drainRound hinv hctl hq hp hloop hm
    obtain ⟨u', hrun', hinvu, hsu, ⟨-, -, hloopu⟩, hmu⟩ :=
      run_txMoves (fun _ _ _ => State.Sending.txMove) drainRound_tx hinv hs hm
    obtain rfl := Host.Outcome.next.inj (hrun.symm.trans hrun')
    obtain ⟨t, hrest, ht⟩ := ih hinvu hsu hqu (by simpa [hin, hp] using hn) (hloopu.trans hloop) hmu
    exact ⟨t, by rw [drainSchedule_succ, List.length_append, run_add hrun, hrest], ht⟩

end

/-! ### Capacity 0 (R152, R158) -/

/-- The TX engine has aborted with nothing waiting, and the host has taken `got` (R158). -/
def State.TxAborted (got : List Symbol) (s : State) : Prop := s.tx.ctl = .abort ∧ s.tx.q = [] ∧ s.env.txGot = got

theorem State.TxAborted.txMove {got : List Symbol} {s t : State} {ms : List Move} (h : s.TxAborted got)
    (hmove : s.TxMove ms t) : t.TxAborted got := by
  obtain ⟨hctl, hq, hgot⟩ := h
  cases hmove with
  | quiet => exact ⟨hctl, hq, hgot⟩
  | accept hp hen ha => exact absurd hctl ((txInEnabled_iff s.tx).mp hen).1
  | take hq' => exact absurd (hq.symm.trans hq') (by simp)

/-- With `CAP` 0 the first symbol aborts the engine, and no attempt after it has an effect. -/
theorem run_of_cap_zero {s : State} {w : SymWord} {ws : List SymWord} {ms : List Move} (hinv : s.tx.Inv s.epoch)
    (hctl : s.tx.ctl = .idle) (hq : s.tx.q = []) (hcap : s.cap = 0#8) (hp : s.env.txIn = w :: ws)
    (hm : s.env.moves = .txIn :: ms) (htx : ∀ mv ∈ ms, mv = .txIn ∨ mv = .txOut) :
    ∃ t, run (ms.length + 1) s = .next t ∧ t.TxAborted s.env.txGot ∧ s.SameBesideTx t := by
  have hen := Tx.enabled_of_idle hctl hq
  have ha : s.tx.accept s.epoch s.cap (symbolOfWord w) = .ok { s.tx with tcap := 0#8, ctl := .abort } := by
    rw [hcap, Tx.accept_idle_zero s.epoch hctl]
  have hmove : s.TxMove ms _ := .accept hp hen ha
  obtain ⟨t, hrun, -, haborted, hsame, -⟩ :=
    run_txMoves (P := State.TxAborted s.env.txGot) (fun _ _ _ _ => State.TxAborted.txMove) htx (hmove.inv hinv)
      ⟨rfl, hq, rfl⟩ (List.append_nil ms).symm
  exact ⟨t, by rw [run_succ (step_txIn_of_accept hm hp hen ha), hrun], haborted, hmove.sameBesideTx.trans hsame⟩

@[simp] theorem offered_length (m : List Byte) (x : Byte) : (offered m x).length = m.length + 1 := by
  simp [offered]

/-- Settles O21: each round of the schedule accepts one symbol of the message under way, whose wire stream is then all
taken; with `CAP` 0 the first symbol aborts the engine. -/
theorem framerRefinesToPacketData : Obligations.FramerRefinesToPacketData := by
  intro s m x hinv hctl hq hp hloop hm
  have htx := drainSchedule_tx (m.length + 1)
  by_cases hcap : s.cap = 0#8
  · obtain ⟨w, ws, hp'⟩ := List.exists_cons_of_length_eq_add_one (hp ▸ offered_length m x)
    obtain ⟨t, hrun, ⟨habort, hqt, hgot⟩, hrx, hcapt, -⟩ :=
      run_of_cap_zero hinv hctl hq hcap hp' hm (List.forall_mem_cons.mp htx).2
    exact ⟨t, hrun, hqt, hrx, hcapt, fun hne => absurd hcap hne, fun _ => ⟨hgot, habort⟩⟩
  · obtain ⟨w, hw, hframes⟩ := toPacketData_eq_messageFrames m hcap
    have hs := State.sending_of_idle hctl hq hcap hp
    obtain ⟨t, hrun, hqt, hin⟩ := run_drainSchedule _ hinv hs hq (hp ▸ offered_length m x) hloop hm
    obtain ⟨t', hrun', -, hst, ⟨hrx, hcapt, -⟩, -⟩ :=
      run_txMoves (ms := []) (fun _ _ _ => State.Sending.txMove) htx hinv hs (hm.trans (List.append_nil _).symm)
    obtain rfl := Host.Outcome.next.inj (hrun.symm.trans hrun')
    refine ⟨t, hrun, hqt, hrx, hcapt, fun _ => ⟨w, hw, ?_⟩, fun hzero => absurd hzero hcap⟩
    cases hst with
    | offering m' hoff => simp [hoff, offered] at hin
    | sent _ hidle hlatched hwire =>
      rw [hqt, List.append_nil, ← hframes] at hwire
      exact ⟨hwire, hidle, hlatched.trans hcapt, hin⟩

end Sys2Proof.Machine

/-! ## Proofs: the RX engine (O23, O24, O25, O26, O27, O28, O31, O36) -/

namespace Sys2Proof.Machine

/-! ### The verdict at the fourth checksum byte (R177 to R179, R183) -/

theorem accOverflows_iff {accMax : Option Nat} {r : Rx} :
    accOverflows accMax r = true ↔ ∃ m, accMax = some m ∧ m < r.acc.length + r.rlen.toNat := by
  cases accMax <;> simp [accOverflows]

/-- What the fourth checksum byte decides, once it has been shifted in: commit or fail (R177). -/
def Rx.judgeFrame (accMax : Option Nat) (epoch : Nat) (r : Rx) : Rx :=
  if r.rcsum = r.rsum then r.commit accMax epoch else r.fail .invalidChecksum

section
variable {accMax : Option Nat} {r : Rx} (epoch : Nat)

theorem Rx.judgeFrame_of_mismatch (h : r.rcsum ≠ r.rsum) :
    r.judgeFrame accMax epoch = { r with rerr := some .invalidChecksum, ctl := .failed } :=
  if_neg h

theorem Rx.judgeFrame_of_overflow (h : r.rcsum = r.rsum)
    (hover : ∃ m, accMax = some m ∧ m < r.acc.length + r.rlen.toNat) :
    r.judgeFrame accMax epoch = { r with ctl := .abort } := by
  rw [Rx.judgeFrame, if_pos h, Rx.commit, if_pos (accOverflows_iff.mpr hover)]
  rfl

theorem Rx.judgeFrame_of_room (h : r.rcsum = r.rsum)
    (hroom : ∀ m, accMax = some m → r.acc.length + r.rlen.toNat ≤ m) :
    r.judgeFrame accMax epoch =
      { r with acc := r.acc ++ r.rbuf.bytes (rbufFree epoch) r.rlen.toNat, ridx := 0#8, ctl := .acc } := by
  have hfits : ¬ accOverflows accMax r = true := by
    rw [accOverflows_iff]
    rintro ⟨m, hm, hlt⟩
    exact absurd (hroom m hm) (Nat.not_le.mpr hlt)
  rw [Rx.judgeFrame, if_pos h, Rx.commit, if_neg hfits]

/-- The four registers a verdict can write; the others keep their values, `rrd` and the frame's own among them. -/
theorem Rx.judgeFrame_writes (accMax : Option Nat) (r : Rx) :
    ∃ ctl rerr acc ridx, r.judgeFrame accMax epoch = { r with ctl := ctl, rerr := rerr, acc := acc, ridx := ridx } := by
  unfold Rx.judgeFrame Rx.commit
  split
  · split <;> exact ⟨_, _, _, _, rfl⟩
  · exact ⟨_, _, _, _, rfl⟩

end

/-! ### What an accepted symbol does, an equation for each row of R185 -/

section
variable {accMax : Option Nat} {epoch : Nat} {r : Rx} (b : Byte)

theorem Rx.acceptByte_boundary (h : r.atBoundary) :
    r.acceptByte accMax epoch b =
      .ok { r with roff := r.roff + 1#32, rfoff := r.roff, rver := b, ctl := .len } := by
  rcases h with h | h <;> simp [Rx.acceptByte, h, Rx.versionByte]

theorem Rx.acceptByte_len_bad_version (hctl : r.ctl = .len) (hver : r.rver ≠ Config.version) :
    r.acceptByte accMax epoch b =
      .ok { r with roff := r.roff + 1#32, rerr := some .unknownProtocolVersion, ctl := .failed } := by
  simp only [Rx.acceptByte, hctl, Rx.lengthByte, if_pos hver, Rx.fail]

theorem Rx.acceptByte_len (hctl : r.ctl = .len) (hver : r.rver = Config.version) :
    r.acceptByte accMax epoch b =
      .ok { r with
        roff := r.roff + 1#32, rlen := b, ridx := 0#8, rsum := 0#32, rcsum := 0#32,
        ctl := if b = 0#8 then .csum else .payload } := by
  simp only [Rx.acceptByte, hctl, Rx.lengthByte, if_neg (not_not.mpr hver)]

theorem Rx.acceptByte_payload (hctl : r.ctl = .payload) (hroom : r.ridx.toNat < 255) :
    r.acceptByte accMax epoch b =
      .ok { r with
        roff := r.roff + 1#32, rbuf := r.rbuf.write r.ridx.toNat b, rsum := r.rsum + zext32 b,
        ridx := if r.ridx + 1#8 = r.rlen then 0#8 else r.ridx + 1#8,
        ctl := if r.ridx + 1#8 = r.rlen then .csum else .payload } := by
  have hstore : r.rbuf.store r.ridx.toNat b = some (r.rbuf.write r.ridx.toNat b) :=
    Memory.store_eq_some.mpr ⟨hroom, rfl⟩
  simp only [Rx.acceptByte, hctl, Rx.payloadByte, hstore]
  split <;> rfl

theorem Rx.acceptByte_csum_before_fourth (hctl : r.ctl = .csum) (hidx : r.ridx ≠ 3#8) :
    r.acceptByte accMax epoch b =
      .ok { r with roff := r.roff + 1#32, rcsum := shiftInByte r.rcsum b, ridx := r.ridx + 1#8 } := by
  have hnot : r.ridx + 1#8 ≠ 4#8 := by bv_omega
  simp only [Rx.acceptByte, hctl, Rx.checksumByte, if_neg hnot]

theorem Rx.acceptByte_csum_fourth (hctl : r.ctl = .csum) (hidx : r.ridx = 3#8) :
    r.acceptByte accMax epoch b =
      .ok (Rx.judgeFrame accMax epoch
        { r with roff := r.roff + 1#32, rcsum := shiftInByte r.rcsum b, ridx := 4#8 }) := by
  simp only [Rx.acceptByte, hctl, Rx.checksumByte, hidx]
  rfl

end

section
variable {r : Rx}

theorem Rx.acceptEnd_boundary (h : r.atBoundary) : r.acceptEnd = r.endAtBoundary := by
  rcases h with h | h <;> simp only [Rx.acceptEnd, h]

theorem Rx.acceptEnd_inside (h : r.ctl = .len ∨ r.ctl = .payload ∨ r.ctl = .csum) :
    r.acceptEnd = r.fail .invalidPacket := by
  rcases h with h | h | h <;> simp only [Rx.acceptEnd, h]

theorem Rx.acceptEnd_terminal (h : r.terminal) : r.acceptEnd = r := by
  rcases h with h | h | h <;> simp only [Rx.acceptEnd, h]

theorem Rx.enabled_of_inside (h : r.ctl = .len ∨ r.ctl = .payload ∨ r.ctl = .csum) : rxInEnabled r = true := by
  rcases h with h | h | h <;> simp only [rxInEnabled, h]

end

theorem exec_rxinE_of_enabled {s : State} (hen : rxInEnabled s.rx = true) (x : Byte) :
    exec (.rxinE x) s = .next (s.setRx s.rx.acceptEnd) := by
  simp only [exec, execRxinE, rxIn, hen, if_true, symbolOfWord_endWord, Rx.accept]

/-! ### The five statements about one symbol -/

/-- Settles O23: the two boundary states have one equation. -/
theorem versionByteStartsAFrame : Obligations.VersionByteStartsAFrame :=
  fun _ d hb => exec_rxinB_of_accept hb.enabled (Rx.acceptByte_boundary d hb)

/-- Settles O24: one equation for each verdict on the version. -/
theorem lengthByteJudgesTheVersion : Obligations.LengthByteJudgesTheVersion := by
  intro s d hctl
  have hen := Rx.enabled_of_inside (.inl hctl)
  exact ⟨fun hver => exec_rxinB_of_accept hen (Rx.acceptByte_len_bad_version d hctl hver),
    fun hver => exec_rxinB_of_accept hen (Rx.acceptByte_len d hctl hver)⟩

/-- Settles O25: the equation of `RXS_PAYLOAD`, with the byte not the last of the payload, and the last. -/
theorem payloadByteIsStoredAndSummed : Obligations.PayloadByteIsStoredAndSummed := by
  intro s d hctl hroom
  have hen := Rx.enabled_of_inside (.inr (.inl hctl))
  have haccept := Rx.acceptByte_payload (accMax := s.accMax) (epoch := s.epoch) d hctl hroom
  refine ⟨fun hmore => ?_, fun hlast => ?_⟩
  · rw [if_neg hmore, if_neg hmore, ← hctl] at haccept
    exact exec_rxinB_of_accept hen haccept
  · rw [if_pos hlast, if_pos hlast] at haccept
    exact exec_rxinB_of_accept hen haccept

/-- Settles O26: before the fourth byte the count, at the fourth the three verdicts of `judgeFrame`. -/
theorem checksumBytesDecideAtTheFourth : Obligations.ChecksumBytesDecideAtTheFourth := by
  intro s d hctl
  have hen := Rx.enabled_of_inside (.inr (.inr hctl))
  have hfourth (hidx : s.rx.ridx = 3#8) := exec_rxinB_of_accept hen (Rx.acceptByte_csum_fourth d hctl hidx)
  refine ⟨fun hidx => exec_rxinB_of_accept hen (Rx.acceptByte_csum_before_fourth d hctl hidx),
    fun hidx hne => ?mismatch, fun hidx heq hover => ?overflow, fun hidx heq hroom => ?room⟩
  case mismatch =>
    rw [hfourth hidx, Rx.judgeFrame_of_mismatch]
    exacts [rfl, hne]
  case overflow =>
    rw [hfourth hidx, Rx.judgeFrame_of_overflow]
    exacts [rfl, heq, hover]
  case room =>
    rw [hfourth hidx, Rx.judgeFrame_of_room]
    exacts [rfl, heq, hroom]

/-- Settles O27: `end_at_boundary` asks the validator, and inside a frame there is one verdict. -/
theorem endOfStreamVerdict : Obligations.EndOfStreamVerdict := by
  intro s x
  refine ⟨fun hb hvalid => ?_, fun hb hinvalid => ?_, fun hin => ?_⟩
  · rw [exec_rxinE_of_enabled hb.enabled, Rx.acceptEnd_boundary hb, Rx.endAtBoundary, if_pos hvalid]
    rfl
  · rw [exec_rxinE_of_enabled hb.enabled, Rx.acceptEnd_boundary hb, Rx.endAtBoundary, if_neg (by simp [hinvalid])]
    rfl
  · rw [exec_rxinE_of_enabled (Rx.enabled_of_inside hin), Rx.acceptEnd_inside hin]
    rfl

/-! ### The terminal states (R182) -/

section
variable {s : State}

theorem rxInEnabled_of_terminal {r : Rx} (h : r.terminal) : rxInEnabled r = false :=
  Bool.eq_false_of_not_eq_true fun hen => (rxInEnabled_iff r).mp hen h

theorem rxIn_of_terminal (h : s.rx.terminal) (w : SymWord) : rxIn w s = .next (s.holdRxIn [w]) :=
  if_neg (by simp [rxInEnabled_of_terminal h])

/-- The symbol read on `RX_IN` is run as `RxIn` of the very word on the port. -/
theorem exec_decodeRxSymbol (w : SymWord) (s : State) : exec (decodeRxSymbol w) s = rxIn w s := by
  conv_rhs => rw [symWord_eq w]
  unfold decodeRxSymbol
  split <;> rfl

/-- An `RxIn` move with a symbol on the port. -/
theorem step_rxIn_offered {ms : List Move} {w : SymWord} {ws : List SymWord} (hm : s.env.moves = .rxIn :: ms)
    (hp : s.env.rxIn = w :: ws) : step s = rxIn w { s with env := { s.env with moves := ms, rxIn := ws } } := by
  rw [step_rxIn hm hp rfl, exec_decodeRxSymbol]

/-- An `RxIn` move in a terminal state leaves the port and the block as they were. -/
theorem step_rxIn_of_terminal {ms : List Move} (h : s.rx.terminal) (hm : s.env.moves = .rxIn :: ms) :
    step s = .next { s with env := { s.env with moves := ms } } := by
  cases hp : s.env.rxIn with
  | nil => exact step_idle hm (by simp only [fetchMove, hp])
  | cons w ws =>
    rw [step_rxIn_offered hm hp,
      rxIn_of_terminal (s := { s with env := { s.env with moves := ms, rxIn := ws } }) h w]
    simp [State.holdRxIn, State.setEnv, hp]

theorem rxBytes_cons_of_terminal (h : s.rx.terminal) (b : Byte) (bs : List Byte) :
    rxBytes (b :: bs) s = .next (s.holdRxIn ((b :: bs).map byteWord)) :=
  rxBytes_cons_of_not_enabled (rxInEnabled_of_terminal h) b bs

/-- A wire row in a terminal state puts its bytes back. -/
theorem exec_wire_of_terminal {i : Instr} {bs : List Byte} (h : s.rx.terminal) (he : encode i = .wire bs) :
    exec i s = .next (s.holdRxIn (bs.map byteWord)) := by
  cases i with
  | frame payload checksum =>
    cases he
    exact rxBytes_cons_of_terminal h _ _
  | frameBadver version byte1 =>
    cases he
    exact rxBytes_cons_of_terminal h _ _
  | _ => cases he

/-- The bytes at the front of a port are its first symbols. -/
theorem leadingBytes_prefix (ws : List SymWord) : (leadingBytes ws).map byteWord <+: ws := by
  induction ws with
  | nil => exact List.prefix_refl _
  | cons w ws ih =>
    rw [leadingBytes]
    split
    next => exact List.nil_prefix
    next hbyte =>
      have hw : byteWord (dataBits w) = w := by
        conv_rhs => rw [symWord_eq w, if_neg hbyte]
      rw [List.map_cons, hw]
      exact (List.cons_prefix_cons).mpr ⟨rfl, ih⟩

/-- A frame move in a terminal state leaves the port and the block as they were: a whole frame is put back from where it
was taken, and nothing else is taken. -/
theorem step_frame_of_terminal {ms : List Move} (h : s.rx.terminal) (hm : s.env.moves = .frame :: ms) :
    step s = .next { s with env := { s.env with moves := ms } } := by
  cases hd : decodeWire (leadingBytes s.env.rxIn) with
  | error why => exact step_idle hm (fetchMove_frame_error hd)
  | ok ir =>
    obtain ⟨i, rest⟩ := ir
    obtain ⟨bs, he, hlead⟩ := encode_of_decodeWire hd
    have hwf : i.wf = true := Laws.DecodeGivesWf.all (decode_wire_of_decodeWire hd)
    obtain ⟨ws, hws⟩ := leadingBytes_prefix s.env.rxIn
    rw [hlead, List.map_append, List.append_assoc] at hws
    rw [step_frame hm hws.symm (decodeWire_encode hwf he),
      exec_wire_of_terminal (s := { s with env := { s.env with moves := ms, rxIn := rest.map byteWord ++ ws } }) h he]
    simp [State.holdRxIn, State.setEnv, hws]

end

/-! ### A list of attempts that come to nothing -/

/-- The state with this list of moves before it. -/
def State.withMoves (ms : List Move) (s : State) : State := { s with env := { s.env with moves := ms } }

theorem State.withMoves_of_moves {s : State} {ms : List Move} (hm : s.env.moves = ms) : s.withMoves ms = s := by
  subst hm
  rfl

theorem run_idle_moves {s : State} {first ms : List Move}
    (hidle : ∀ mv ∈ first, ∀ rest, step (s.withMoves (mv :: rest)) = .next (s.withMoves rest)) :
    run first.length (s.withMoves (first ++ ms)) = .next (s.withMoves ms) := by
  induction first with
  | nil => rfl
  | cons mv first ih =>
    obtain ⟨hmv, hfirst⟩ := List.forall_mem_cons.mp hidle
    rw [List.length_cons, List.cons_append, run_succ (hmv _), ih hfirst]

/-- Settles O28: what is taken from the port is put back, and in loopback neither a `TxIn` nor a `TxOut` attempt is enabled,
so that every attempt of a list comes to nothing. -/
theorem terminalStatesAcceptNothing : Obligations.TerminalStatesAcceptNothing := by
  intro s hterm
  refine ⟨fun d => rxIn_of_terminal hterm _, fun x => rxIn_of_terminal hterm _,
    fun p c => exec_wire_of_terminal hterm rfl, fun v b => exec_wire_of_terminal (bs := [v, b]) hterm rfl, ?step, ?stall⟩
  case step =>
    rintro m ms (rfl | rfl) hm
    · exact step_rxIn_of_terminal hterm hm
    · exact step_frame_of_terminal hterm hm
  case stall =>
    intro hloop hq hmoves
    have hidle : ∀ mv ∈ s.env.moves, ∀ rest, step (s.withMoves (mv :: rest)) = .next (s.withMoves rest) := by
      intro mv hmv rest
      rcases hmoves mv hmv with rfl | rfl | rfl | rfl
      · exact step_txIn_of_not_enabled (s := s.withMoves _) (.inr hq) rfl
      · have hnot : ¬ txOutReady (s.withMoves (.txOut :: rest)) = true := by
          rw [txOutReady_iff]
          exact fun hready => (hready hloop).1 hterm
        exact step_idle (s := s.withMoves _) rfl (if_neg hnot)
      · exact step_rxIn_of_terminal (s := s.withMoves _) hterm rfl
      · exact step_frame_of_terminal (s := s.withMoves _) hterm rfl
    have hrun := run_idle_moves (ms := []) hidle
    rwa [List.append_nil, State.withMoves_of_moves rfl] at hrun

/-! ### Bytes written to a buffer from index 0 on (R176) -/

/-- The buffer after these bytes have been written at the indices 0, 1 and so on. -/
def Memory.writeBytes (m : Memory) (p : List Byte) : Memory := p.zipIdx.foldl (fun m c => m.write c.2 c.1) m

theorem Memory.writeBytes_snoc (m : Memory) (p : List Byte) (b : Byte) :
    m.writeBytes (p ++ [b]) = (m.writeBytes p).write p.length b := by
  simp [Memory.writeBytes, List.zipIdx_append]

/-- The bytes written are the first of the buffer. -/
theorem Memory.bytes_writeBytes (free : Nat → Byte) (m : Memory) (p : List Byte) :
    (m.writeBytes p).bytes free p.length = p := by
  induction p using List.reverseRecOn with
  | nil => rfl
  | append_singleton p b ih =>
    rw [Memory.writeBytes_snoc, List.length_append, List.length_singleton, Memory.bytes_write_succ, ih]

theorem Memory.read_writeBytes (m : Memory) (p : List Byte) (i : Nat) :
    (m.writeBytes p).read i = if i < p.length then p[i]? else m.read i := by
  induction p using List.reverseRecOn with
  | nil => rfl
  | append_singleton p b ih =>
    rw [Memory.writeBytes_snoc, Memory.read_write, ih, List.length_append, List.length_singleton]
    rcases Nat.lt_trichotomy i p.length with hlt | rfl | hgt
    · rw [if_neg (Nat.ne_of_gt hlt), if_pos hlt, if_pos (Nat.lt_succ_of_lt hlt), List.getElem?_append_left hlt]
    · simp
    · rw [if_neg (Nat.ne_of_lt hgt), if_neg (Nat.not_lt_of_gt hgt), if_neg (by omega)]

/-! ### A frame in progress (R174 to R177) -/

theorem be32dec_snoc (bs : List Byte) (b : Byte) : be32dec (bs ++ [b]) = shiftInByte (be32dec bs) b := by
  simp [be32dec]

/-- A payload's length fits the length byte (R83). -/
theorem toNat_ofNat_of_le {n : Nat} (h : n ≤ 255) : (BitVec.ofNat 8 n).toNat = n :=
  (BitVec.toNat_ofNat n 8).trans (Nat.mod_eq_of_lt (Nat.lt_succ_of_le h))

/-- The engine inside the payload of a frame begun at the boundary `r`: `p` are the payload bytes read, not yet all. -/
def Rx.inPayload (len : Byte) (p : List Byte) (r : Rx) : Rx :=
  { r with
    ctl := .payload, rver := Config.version, rlen := len, ridx := BitVec.ofNat 8 p.length, rsum := checksum p,
    rcsum := 0#32, rbuf := r.rbuf.writeBytes p, roff := r.roff + BitVec.ofNat 32 (2 + p.length), rfoff := r.roff }

/-- The engine after the payload `p` of a frame begun at the boundary `r`: `sum` are the checksum bytes read, and no verdict
has been given. -/
def Rx.inChecksum (p sum : List Byte) (r : Rx) : Rx :=
  { r with
    ctl := .csum, rver := Config.version, rlen := BitVec.ofNat 8 p.length, ridx := BitVec.ofNat 8 sum.length,
    rsum := checksum p, rcsum := be32dec sum, rbuf := r.rbuf.writeBytes p,
    roff := r.roff + BitVec.ofNat 32 (2 + p.length + sum.length), rfoff := r.roff }

section
variable {accMax : Option Nat} {epoch : Nat} {r : Rx} {len : Byte} {p sum : List Byte}

theorem Rx.acceptByte_inPayload (b : Byte) (h : p.length + 1 < len.toNat) :
    (r.inPayload len p).acceptByte accMax epoch b = .ok (r.inPayload len (p ++ [b])) := by
  have hlen := len.isLt
  have hidx : (BitVec.ofNat 8 p.length).toNat = p.length := toNat_ofNat_of_le (by omega)
  have hmore : BitVec.ofNat 8 p.length + 1#8 ≠ len := by bv_omega
  rw [Rx.acceptByte_payload b rfl (by rw [Rx.inPayload, hidx]; omega)]
  simp [Rx.inPayload, hmore, hidx, Memory.writeBytes_snoc, checksum_snoc, BitVec.ofNat_add, BitVec.add_assoc]

theorem Rx.acceptByte_inPayload_last (b : Byte) (h : p.length + 1 = len.toNat) :
    (r.inPayload len p).acceptByte accMax epoch b = .ok (r.inChecksum (p ++ [b]) []) := by
  have hlen := len.isLt
  have hidx : (BitVec.ofNat 8 p.length).toNat = p.length := toNat_ofNat_of_le (by omega)
  have hlast : BitVec.ofNat 8 p.length + 1#8 = len := by bv_omega
  rw [Rx.acceptByte_payload b rfl (by rw [Rx.inPayload, hidx]; omega)]
  simp [Rx.inPayload, Rx.inChecksum, hlast, hidx, Memory.writeBytes_snoc, checksum_snoc, BitVec.ofNat_add,
    BitVec.add_assoc, be32dec]

theorem Rx.acceptByte_inChecksum (b : Byte) (h : sum.length < 3) :
    (r.inChecksum p sum).acceptByte accMax epoch b = .ok (r.inChecksum p (sum ++ [b])) := by
  have hidx : BitVec.ofNat 8 sum.length ≠ 3#8 := by bv_omega
  rw [Rx.acceptByte_csum_before_fourth b rfl hidx]
  simp [Rx.inChecksum, be32dec_snoc, BitVec.ofNat_add, BitVec.add_assoc]

theorem Rx.acceptByte_inChecksum_fourth (b : Byte) (h : sum.length = 3) :
    (r.inChecksum p sum).acceptByte accMax epoch b =
      .ok ((r.inChecksum p (sum ++ [b])).judgeFrame accMax epoch) := by
  rw [Rx.acceptByte_csum_fourth b rfl (by rw [Rx.inChecksum, h])]
  simp [Rx.inChecksum, h, be32dec_snoc, BitVec.ofNat_add, BitVec.add_assoc]

/-! ### Wire bytes read one after another -/

theorem Rx.feed_cons_of_accept {r' : Rx} {b : Byte} (hen : rxInEnabled r = true)
    (ha : r.acceptByte accMax epoch b = .ok r') (bs : List Byte) :
    r.feed accMax epoch (b :: bs) = r'.feed accMax epoch bs := by
  simp only [Rx.feed_cons, hen, if_true, ha]

theorem Rx.feed_of_terminal (h : r.terminal) (bs : List Byte) : r.feed accMax epoch bs = .ok (r, bs) := by
  cases bs with
  | nil => rfl
  | cons b bs => simp [Rx.feed_cons, rxInEnabled_of_terminal h]

/-- Bytes are left over only where the engine has stopped. -/
theorem Rx.feed_rest_eq_nil {bs rest : List Byte} {r' : Rx} (hf : r.feed accMax epoch bs = .ok (r', rest))
    (h : ¬ r'.terminal) : rest = [] := by
  induction bs generalizing r with
  | nil => cases hf; rfl
  | cons b bs ih =>
    rw [Rx.feed_cons] at hf
    split at hf
    next =>
      split at hf
      next => exact ih hf
      next => cases hf
    next hdis =>
      cases hf
      exact absurd ((rxInEnabled_iff _).mpr h) hdis

/-- Bytes each of which takes the engine from one state of a family to the next. -/
theorem Rx.feed_reading {f : List Byte → Rx} {n : Nat} (hen : ∀ p, rxInEnabled (f p) = true)
    (hstep : ∀ p b, p.length < n → (f p).acceptByte accMax epoch b = .ok (f (p ++ [b])))
    {q : List Byte} (hq : q.length ≤ n) (bs : List Byte) :
    (f []).feed accMax epoch (q ++ bs) = (f q).feed accMax epoch bs := by
  induction q using List.reverseRecOn generalizing bs with
  | nil => rfl
  | append_singleton q b ih =>
    rw [List.length_append, List.length_singleton] at hq
    rw [List.append_assoc, List.singleton_append, ih (by omega), Rx.feed_cons_of_accept (hen q) (hstep q b hq)]

theorem Rx.feed_header (h : r.atBoundary) (len : Byte) (bs : List Byte) :
    r.feed accMax epoch (Config.version :: len :: bs) =
      (if len = 0#8 then r.inChecksum [] [] else r.inPayload len []).feed accMax epoch bs := by
  rw [Rx.feed_cons_of_accept h.enabled (Rx.acceptByte_boundary _ h),
    Rx.feed_cons_of_accept rfl (Rx.acceptByte_len len rfl rfl), BitVec.add_assoc]
  split
  next hzero => subst hzero; rfl
  next => rfl

/-- A payload cut short: the engine waits in `RXS_PAYLOAD`. -/
theorem Rx.feed_cut_payload (h : r.atBoundary) (hp : p.length < len.toNat) :
    r.feed accMax epoch (Config.version :: len :: p) = .ok (r.inPayload len p, []) := by
  have hne : len ≠ 0#8 := by rintro rfl; simp at hp
  have hread := Rx.feed_reading (f := fun p => r.inPayload len p) (fun _ => rfl) (n := len.toNat - 1)
    (fun p b hlt => Rx.acceptByte_inPayload (accMax := accMax) (epoch := epoch) b (by omega)) (q := p) (by omega) []
  rw [Rx.feed_header h, if_neg hne, ← List.append_nil p, hread, List.append_nil]
  rfl

/-- A whole payload: the checksum bytes come next (R175, R176). -/
theorem Rx.feed_payload (h : r.atBoundary) (hp : p.length ≤ 255) (bs : List Byte) :
    r.feed accMax epoch (Config.version :: BitVec.ofNat 8 p.length :: (p ++ bs)) =
      (r.inChecksum p []).feed accMax epoch bs := by
  have hlen := toNat_ofNat_of_le hp
  rw [Rx.feed_header h]
  rcases List.eq_nil_or_concat p with rfl | ⟨q, b, rfl⟩
  · rfl
  · rw [List.concat_eq_append] at hlen ⊢
    generalize BitVec.ofNat 8 (q ++ [b]).length = len at hlen
    rw [List.length_append, List.length_singleton] at hlen
    have hne : len ≠ 0#8 := by rintro rfl; simp at hlen
    have hread := Rx.feed_reading (f := fun p => r.inPayload len p) (fun _ => rfl) (n := q.length)
      (fun p b hlt => Rx.acceptByte_inPayload (accMax := accMax) (epoch := epoch) b (by omega)) le_rfl
    rw [if_neg hne, List.append_assoc, hread, List.singleton_append,
      Rx.feed_cons_of_accept rfl (Rx.acceptByte_inPayload_last b hlen.symm)]

theorem Rx.feed_checksum_part (hsum : sum.length ≤ 3) (bs : List Byte) :
    (r.inChecksum p []).feed accMax epoch (sum ++ bs) = (r.inChecksum p sum).feed accMax epoch bs :=
  Rx.feed_reading (f := fun sum => r.inChecksum p sum) (fun _ => rfl) (fun _ b => Rx.acceptByte_inChecksum b) hsum bs

/-- A whole frame leads to the verdict on it (R177). -/
theorem Rx.feed_frame (h : r.atBoundary) (hp : p.length ≤ 255) (c : Word) (bs : List Byte) :
    r.feed accMax epoch (frameBytes p c ++ bs) =
      ((r.inChecksum p (be32 c)).judgeFrame accMax epoch).feed accMax epoch bs := by
  obtain ⟨first, last, hbe, hfirst⟩ : ∃ first last, be32 c = first ++ [last] ∧ first.length = 3 :=
    ⟨[c.extractLsb' 24 8, c.extractLsb' 16 8, c.extractLsb' 8 8], c.extractLsb' 0 8, rfl, rfl⟩
  have hsplit : frameBytes p c ++ bs =
      Config.version :: BitVec.ofNat 8 p.length :: (p ++ (first ++ last :: bs)) := by
    simp [frameBytes, hbe]
  rw [hsplit, Rx.feed_payload h hp, Rx.feed_checksum_part hfirst.le,
    Rx.feed_cons_of_accept rfl (Rx.acceptByte_inChecksum_fourth last hfirst), hbe]

/-- The bytes counted by a length byte fit a payload (R83). -/
theorem length_take_le_of_byte (len : Byte) (tail : List Byte) : (tail.take len.toNat).length ≤ 255 :=
  (List.length_take_le _ _).trans (Nat.le_of_lt_succ len.isLt)

/-- The same where the stream is given as it is read: the length byte cuts it into payload, checksum and rest (R83). -/
theorem Rx.feed_whole (h : r.atBoundary) {tail : List Byte} (hwhole : len.toNat + 4 ≤ tail.length) :
    r.feed accMax epoch (Config.version :: len :: tail) =
      ((r.inChecksum (tail.take len.toNat) (be32 (be32dec ((tail.drop len.toNat).take 4)))).judgeFrame
        accMax epoch).feed accMax epoch (tail.drop (len.toNat + 4)) := by
  rw [← Rx.feed_frame h (length_take_le_of_byte len tail), frameBytes_of_stream hwhole]

end

/-! ### A whole frame at a boundary (R176, R178, R179, R183) -/

section
variable {accMax : Option Nat} {r : Rx} {p : List Byte} {c : Word} (epoch : Nat)

theorem Rx.judgeFrame_of_damaged (hc : c ≠ checksum p) :
    (r.inChecksum p (be32 c)).judgeFrame accMax epoch =
      { r.inChecksum p (be32 c) with rerr := some .invalidChecksum, ctl := .failed } :=
  Rx.judgeFrame_of_mismatch epoch (by rwa [Rx.inChecksum, be32dec_be32])

theorem Rx.judgeFrame_of_too_long (hp : p.length ≤ 255) (hc : c = checksum p)
    (hover : ∃ m, accMax = some m ∧ m < r.acc.length + p.length) :
    (r.inChecksum p (be32 c)).judgeFrame accMax epoch = { r.inChecksum p (be32 c) with ctl := .abort } :=
  Rx.judgeFrame_of_overflow epoch (by rwa [Rx.inChecksum, be32dec_be32])
    (by rwa [Rx.inChecksum, toNat_ofNat_of_le hp])

theorem Rx.judgeFrame_of_passed (hp : p.length ≤ 255) (hc : c = checksum p)
    (hroom : ∀ m, accMax = some m → r.acc.length + p.length ≤ m) :
    (r.inChecksum p (be32 c)).judgeFrame accMax epoch =
      { r.inChecksum p (be32 c) with acc := r.acc ++ p, ridx := 0#8, ctl := .acc } := by
  have hlen := toNat_ofNat_of_le hp
  rw [Rx.judgeFrame_of_room epoch (by rwa [Rx.inChecksum, be32dec_be32]) (by rwa [Rx.inChecksum, hlen])]
  simp only [Rx.inChecksum, hlen, Memory.bytes_writeBytes]

end

theorem exec_frame_at_boundary {s : State} (h : s.rx.atBoundary) {p : List Byte} (hp : p.length ≤ 255) (c : Word) :
    exec (.frame p c) s = .next (s.setRx ((s.rx.inChecksum p (be32 c)).judgeFrame s.accMax s.epoch)) := by
  have hfeed := Rx.feed_frame (accMax := s.accMax) (epoch := s.epoch) h hp c []
  rw [List.append_nil] at hfeed
  simp only [exec, execFrame, rxBytes, hfeed, Rx.feed]
  rfl

/-- Settles O31: the engine has read the whole frame, and `judgeFrame` writes no register but the four of the verdict. -/
theorem frameAtBoundary : Obligations.FrameAtBoundary := by
  intro s p c hb hp
  obtain ⟨ctl, rerr, acc, ridx, hw⟩ := Rx.judgeFrame_writes s.epoch s.accMax (s.rx.inChecksum p (be32 c))
  refine ⟨_, exec_frame_at_boundary hb hp c, rfl, rfl, rfl, rfl, rfl, ?roff, ?_, ?_, ?_, ?_, ?rcsum, ?_, ?read, ?keep,
    ?mismatch, ?overflow, ?room⟩
  case roff =>
    rw [State.setRx_rx, hw, show 6 + p.length = 2 + p.length + 4 by omega]
    rfl
  case rcsum =>
    rw [State.setRx_rx, hw]
    exact be32dec_be32 c
  case read =>
    intro i hi
    rw [State.setRx_rx, hw]
    exact (Memory.read_writeBytes _ _ _).trans (if_pos hi)
  case keep =>
    intro a ha
    rw [State.setRx_rx, hw]
    exact (Memory.read_writeBytes _ _ _).trans (if_neg (Nat.not_lt.mpr ha))
  case mismatch =>
    intro hne
    rw [State.setRx_rx, Rx.judgeFrame_of_damaged _ hne]
    exact ⟨rfl, rfl, rfl, rfl⟩
  case overflow =>
    intro heq hover
    rw [State.setRx_rx, Rx.judgeFrame_of_too_long _ hp heq hover]
    exact ⟨rfl, rfl, rfl, rfl⟩
  case room =>
    intro heq hroom
    rw [State.setRx_rx, Rx.judgeFrame_of_passed _ hp heq hroom]
    exact ⟨rfl, rfl, rfl, rfl⟩
  all_goals rw [State.setRx_rx, hw]; rfl

/-! ### A stream and its verdict (R134, R184) -/

/-- What the RX engine shows at the end of a stream whose result is this. -/
def Rx.Shows (r : Rx) : Result (List Byte) → Prop
  | .ok m => r.ctl = .done ∧ r.acc = m
  | .err e => r.ctl = .failed ∧ r.rerr = some e

theorem Rx.Shows.ok_iff {r : Rx} {res : Result (List Byte)} (h : r.Shows res) (m : List Byte) :
    res = .ok m ↔ r.ctl = .done ∧ r.acc = m := by
  cases res with
  | ok m' =>
    obtain ⟨hctl, hacc⟩ := h
    simp [hctl, hacc]
  | err e =>
    obtain ⟨hctl, -⟩ := h
    simp [hctl]

theorem Rx.Shows.err_iff {r : Rx} {res : Result (List Byte)} (h : r.Shows res) (e : PacketError) :
    res = .err e ↔ r.ctl = .failed ∧ r.rerr = some e := by
  cases res with
  | ok m =>
    obtain ⟨hctl, -⟩ := h
    simp [hctl]
  | err e' =>
    obtain ⟨hctl, herr⟩ := h
    simp [hctl, herr]

theorem Rx.Shows.done_or_failed {r : Rx} {res : Result (List Byte)} (h : r.Shows res) :
    r.ctl = .done ∨ r.ctl = .failed := by
  cases res with
  | ok m => exact .inl h.1
  | err e => exact .inr h.1

section
variable {accMax : Option Nat} {epoch : Nat} {r : Rx}

theorem Rx.acceptEnd_shows_of_boundary (h : r.atBoundary) : r.acceptEnd.Shows (reassembleFrom msgValid r.acc []) := by
  rw [Rx.acceptEnd_boundary h, Rx.endAtBoundary, reassembleFrom_nil]
  split <;> exact ⟨rfl, rfl⟩

theorem Rx.acceptEnd_shows_of_inside (h : r.ctl = .len ∨ r.ctl = .payload ∨ r.ctl = .csum) :
    r.acceptEnd.Shows (.err .invalidPacket) := by
  rw [Rx.acceptEnd_inside h]
  exact ⟨rfl, rfl⟩

/-- A frame cut short after its header: the engine has accepted all there is, and waits inside the frame. -/
theorem Rx.feed_cut (h : r.atBoundary) {len : Byte} {tail : List Byte} (hcut : tail.length < len.toNat + 4) :
    ∃ r', r.feed accMax epoch (Config.version :: len :: tail) = .ok (r', []) ∧ (r'.ctl = .payload ∨ r'.ctl = .csum) := by
  rcases Nat.lt_or_ge tail.length len.toNat with hpay | hsum
  · exact ⟨_, Rx.feed_cut_payload h hpay, .inl rfl⟩
  · have hlen := len.isLt
    have htake : (tail.take len.toNat).length = len.toNat := List.length_take_of_le hsum
    have hfeed := Rx.feed_payload (accMax := accMax) (epoch := epoch) h (p := tail.take len.toNat) (by omega)
      (tail.drop len.toNat ++ [])
    rw [htake, BitVec.ofNat_toNat, BitVec.setWidth_eq, List.append_nil, List.take_append_drop,
      ← List.append_nil (tail.drop _), Rx.feed_checksum_part (by rw [List.length_drop]; omega)] at hfeed
    exact ⟨_, hfeed, .inr rfl⟩

/-- Where `deserialize` gives an error, the engine raises it at the byte that shows it, or at the `End` of the stream (R104). -/
theorem Rx.feed_of_deserialize_err {w : List Byte} {e : PacketError} (h : r.atBoundary) (hne : w ≠ [])
    (hd : deserialize w = .err e) :
    ∃ r' rest, r.feed accMax epoch w = .ok (r', rest) ∧ r'.acceptEnd.Shows (.err e) := by
  match w, hne, hd with
  | [version], _, hd =>
    cases hd
    rw [Rx.feed_cons_of_accept h.enabled (Rx.acceptByte_boundary version h)]
    exact ⟨_, [], rfl, Rx.acceptEnd_shows_of_inside (.inl rfl)⟩
  | version :: len :: tail, _, hd =>
    by_cases hver : version = Config.version
    · subst hver
      rcases Nat.lt_or_ge tail.length (len.toNat + 4) with hcut | hwhole
      · rw [deserialize_of_cut hcut] at hd
        cases hd
        obtain ⟨r', hfeed, hin⟩ := Rx.feed_cut (accMax := accMax) (epoch := epoch) h hcut
        exact ⟨r', [], hfeed, Rx.acceptEnd_shows_of_inside (.inr hin)⟩
      · rw [deserialize_of_whole hwhole] at hd
        split at hd
        case isTrue => cases hd
        case isFalse hsum =>
          cases hd
          rw [Rx.feed_whole h hwhole, Rx.judgeFrame_of_damaged epoch (Ne.symm hsum),
            Rx.feed_of_terminal (.inr (.inl rfl))]
          exact ⟨_, _, rfl, rfl, rfl⟩
    · rw [deserialize_of_bad_version hver] at hd
      cases hd
      rw [Rx.feed_cons_of_accept h.enabled (Rx.acceptByte_boundary version h),
        Rx.feed_cons_of_accept rfl (Rx.acceptByte_len_bad_version len rfl hver),
        Rx.feed_of_terminal (.inr (.inl rfl))]
      exact ⟨_, tail, rfl, rfl, rfl⟩

/-- A frame that `deserialize` passes moves its payload to `acc`, and the engine is at a boundary again (R178). -/
theorem Rx.feed_of_deserialize_ok {w rest : List Byte} {p : Packet} (h : r.atBoundary)
    (hd : deserialize w = .ok (p, rest)) (hroom : ∀ m, accMax = some m → r.acc.length + p.payload.length ≤ m) :
    ∃ r' : Rx, r'.atBoundary ∧ r'.acc = r.acc ++ p.payload ∧
      r.feed accMax epoch w = r'.feed accMax epoch rest := by
  obtain ⟨len, tail, rfl, hwhole, hsum, rfl, rfl⟩ := deserialize_ok hd
  rw [Rx.feed_whole h hwhole, Rx.judgeFrame_of_passed epoch (length_take_le_of_byte len tail) hsum.symm hroom]
  exact ⟨_, .inr rfl, rfl, rfl⟩

/-- The frame boundaries of the engine are those of the loop of R134: each frame that passes moves its payload to `acc`, and
the first that does not, or the end of the stream, gives the verdict. -/
theorem Rx.feed_shows (n : Nat) {w : List Byte} (hn : w.length ≤ n) (h : r.atBoundary)
    (hroom : ∀ m, accMax = some m → r.acc.length + (goodPayloads n w).length ≤ m) :
    ∃ r' rest, r.feed accMax epoch w = .ok (r', rest) ∧ r'.acceptEnd.Shows (reassembleFrom msgValid r.acc w) := by
  induction n generalizing r w with
  | zero =>
    obtain rfl := List.length_eq_zero_iff.mp (Nat.le_zero.mp hn)
    exact ⟨r, [], rfl, Rx.acceptEnd_shows_of_boundary h⟩
  | succ n ih =>
    by_cases hne : w = []
    · subst hne
      exact ⟨r, [], rfl, Rx.acceptEnd_shows_of_boundary h⟩
    cases hd : deserialize w with
    | err e =>
      rw [reassembleFrom_of_err _ _ hne hd]
      exact Rx.feed_of_deserialize_err h hne hd
    | ok parsed =>
      obtain ⟨p, rest⟩ := parsed
      have hlen := deserialize_ok_length hd
      have hroom' (m : Nat) (hm : accMax = some m) :
          r.acc.length + p.payload.length + (goodPayloads n rest).length ≤ m := by
        simpa only [goodPayloads, hd, List.length_append, Nat.add_assoc] using hroom m hm
      obtain ⟨r', hb, hacc, hfeed⟩ := Rx.feed_of_deserialize_ok (epoch := epoch) h hd
        fun m hm => Nat.le_of_add_right_le (hroom' m hm)
      rw [reassembleFrom_of_ok _ _ hd, hfeed, ← hacc]
      exact ih (by omega) hb (by simpa only [hacc, List.length_append] using hroom')

end

/-! ### The stream offered on `RX_IN`, one `RxIn` attempt a symbol (R184) -/

section
variable {s : State} {ms : List Move}

theorem step_rxIn_of_accept {w : SymWord} {ws : List SymWord} {r : Rx} (hm : s.env.moves = .rxIn :: ms)
    (hp : s.env.rxIn = w :: ws) (hen : rxInEnabled s.rx = true)
    (ha : s.rx.accept s.accMax s.epoch (symbolOfWord w) = .ok r) :
    step s = .next { s with rx := r, env := { s.env with moves := ms, rxIn := ws } } := by
  rw [step_rxIn_offered hm hp]
  simp only [rxIn, hen, if_true, ha]
  rfl

/-- Attempts at bytes offered do what `feed` does; those after a terminal state come to nothing. -/
theorem run_rxIns_of_feed {bs rest : List Byte} {ws : List SymWord} {r : Rx}
    (hf : s.rx.feed s.accMax s.epoch bs = .ok (r, rest)) (hp : s.env.rxIn = bs.map byteWord ++ ws)
    (hm : s.env.moves = List.replicate bs.length .rxIn ++ ms) :
    run bs.length s =
      .next { s with rx := r, env := { s.env with moves := ms, rxIn := rest.map byteWord ++ ws } } := by
  induction bs generalizing s with
  | nil =>
    cases hf
    obtain rfl : s.env.rxIn = ws := hp
    obtain rfl : s.env.moves = ms := hm
    rfl
  | cons b bs ih =>
    by_cases hterm : s.rx.terminal
    · rw [Rx.feed_of_terminal hterm] at hf
      cases hf
      have hrun := run_idle_moves (s := s) (first := List.replicate (b :: bs).length .rxIn) (ms := ms) fun mv hmv rest =>
        step_rxIn_of_terminal (s := s.withMoves _) hterm (by rw [List.eq_of_mem_replicate hmv]; rfl)
      rw [State.withMoves_of_moves hm, List.length_replicate] at hrun
      rw [hrun, ← hp]
      rfl
    · have hen : rxInEnabled s.rx = true := (rxInEnabled_iff s.rx).mpr hterm
      simp only [Rx.feed_cons, hen, if_true] at hf
      split at hf
      case h_1 r' ha =>
        have haccept : s.rx.accept s.accMax s.epoch (symbolOfWord (byteWord b)) = .ok r' := by
          rw [symbolOfWord_byteWord]
          exact ha
        rw [List.length_cons, run_succ (step_rxIn_of_accept hm hp hen haccept)]
        exact ih (s := { s with rx := r', env := _ }) hf rfl rfl
      case h_2 => cases hf

end

/-- A stream and its `End`: symbols are accepted from the front, and the engine ends as if `End` came next. -/
theorem run_stream {s : State} {w rest : List Byte} {x : Byte} {r : Rx}
    (hf : s.rx.feed s.accMax s.epoch w = .ok (r, rest)) (hp : s.env.rxIn = offered w x)
    (hm : s.env.moves = List.replicate (w.length + 1) .rxIn) :
    ∃ k ≤ w.length + 1, run (w.length + 1) s = .next { s with
      rx := r.acceptEnd, env := { s.env with moves := [], rxIn := (offered w x).drop k } } := by
  have hrun := run_rxIns_of_feed (ms := [.rxIn]) hf hp (hm.trans List.replicate_succ')
  rw [run_add hrun]
  by_cases hterm : r.terminal
  · obtain ⟨front, rfl⟩ := Rx.feed_suffix hf
    have hleft : (offered (front ++ rest) x).drop front.length = rest.map byteWord ++ [endWord x] := by
      rw [offered, List.map_append, List.append_assoc, List.drop_left' (List.length_map _)]
    refine ⟨front.length, by rw [List.length_append]; omega, ?_⟩
    rw [Rx.acceptEnd_terminal hterm, hleft]
    exact run_succ (n := 0) (step_rxIn_of_terminal hterm rfl)
  · obtain rfl := Rx.feed_rest_eq_nil hf hterm
    refine ⟨w.length + 1, le_rfl, ?_⟩
    rw [List.drop_eq_nil_of_le (offered_length w x).le]
    have ha : r.accept s.accMax s.epoch (symbolOfWord (endWord x)) = .ok r.acceptEnd := by
      rw [symbolOfWord_endWord]
      rfl
    exact run_succ (n := 0) (step_rxIn_of_accept rfl rfl ((rxInEnabled_iff r).mpr hterm) ha)

/-- Settles O36: the bytes take the engine to the verdict of the loop of R134, or to where `End` gives it. -/
theorem reassemblerRefinesFromPacketData : Obligations.ReassemblerRefinesFromPacketData := by
  intro s w x hctl hacc _ hroom hp hm
  obtain ⟨r, rest, hfeed, hshows⟩ := Rx.feed_shows (accMax := s.accMax) (epoch := s.epoch) w.length le_rfl (.inl hctl)
    (by simpa [hacc] using hroom)
  rw [hacc] at hshows
  obtain ⟨k, hk, hrun⟩ := run_stream hfeed hp hm
  exact ⟨_, k, hrun, hk, rfl, rfl, rfl, hshows.done_or_failed, hshows.ok_iff, hshows.err_iff⟩

end Sys2Proof.Machine

/-! ## Proofs: the host operations (O19, O29, O30, O37, O38, O39, O40) -/

namespace Sys2Proof.Machine

/-! ### The fields of the two status registers (R38, R39) -/

/-- The low part of two words one above the other. -/
theorem extractLsb'_append_low {v w : Nat} (hi : BitVec v) (lo : BitVec w) : (hi ++ lo).extractLsb' 0 w = lo := by
  rw [BitVec.extractLsb'_append_eq_of_add_le (Nat.zero_add w).le, BitVec.extractLsb'_eq_self]

theorem getLsbD_append_ofBool {v : Nat} (hi : BitVec v) (b : Bool) : (hi ++ BitVec.ofBool b).getLsbD 0 = b := by
  rw [BitVec.getLsbD_append, if_pos Nat.one_pos]
  cases b <;> rfl

/-- Each field of `TX_STATUS` in its place, from bit 0 up. -/
theorem txStatus_fields (t : Tx) :
    (txStatus t).extractLsb' 0 2 = txCtlCode t.ctl ∧ (txStatus t).getLsbD 2 = txPend t ∧
    (txStatus t).extractLsb' 3 5 = 0#5 ∧ (txStatus t).extractLsb' 8 8 = t.tcnt ∧
    (txStatus t).extractLsb' 16 8 = t.tcap ∧ (txStatus t).extractLsb' 24 8 = 0#8 := by
  unfold txStatus
  refine ⟨extractLsb'_append_low _ _, ?pend, ?low, ?tcnt, ?tcap, ?high⟩
  case pend =>
    rw [BitVec.getLsbD_append, if_neg (by decide)]
    exact getLsbD_append_ofBool _ _
  case low =>
    iterate 2 rw [BitVec.extractLsb'_append_eq_of_le (by decide)]
    exact extractLsb'_append_low _ _
  case tcnt =>
    iterate 3 rw [BitVec.extractLsb'_append_eq_of_le (by decide)]
    exact extractLsb'_append_low _ _
  case tcap =>
    iterate 4 rw [BitVec.extractLsb'_append_eq_of_le (by decide)]
    exact extractLsb'_append_low _ _
  case high =>
    iterate 5 rw [BitVec.extractLsb'_append_eq_of_le (by decide)]
    exact BitVec.extractLsb'_eq_self

/-- Each field of `RX_STATUS` in its place, from bit 0 up. -/
theorem rxStatus_fields (r : Rx) :
    (rxStatus r).extractLsb' 0 3 = rxCtlCode r.ctl ∧ (rxStatus r).getLsbD 3 = false ∧
    (rxStatus r).extractLsb' 4 3 = errCode r.rerr ∧ (rxStatus r).getLsbD 7 = false ∧
    (rxStatus r).getLsbD 8 = rxOutPend r ∧ (rxStatus r).extractLsb' 9 23 = 0#23 := by
  unfold rxStatus
  refine ⟨extractLsb'_append_low _ _, ?bit3, ?err, ?bit7, ?pend, ?high⟩
  case bit3 =>
    rw [BitVec.getLsbD_append, if_neg (by decide)]
    exact getLsbD_append_ofBool _ false
  case err =>
    iterate 2 rw [BitVec.extractLsb'_append_eq_of_le (by decide)]
    exact extractLsb'_append_low _ _
  case bit7 =>
    iterate 3 rw [BitVec.getLsbD_append, if_neg (by decide)]
    exact getLsbD_append_ofBool _ false
  case pend =>
    iterate 4 rw [BitVec.getLsbD_append, if_neg (by decide)]
    exact getLsbD_append_ofBool _ _
  case high =>
    iterate 5 rw [BitVec.extractLsb'_append_eq_of_le (by decide)]
    exact BitVec.extractLsb'_eq_self

/-! ### The CSR file (R201 to R204) -/

theorem zext32_eq_append (b : Byte) : zext32 b = 0#24 ++ b := by
  rw [zext32, BitVec.setWidth_eq_append (by decide : 8 ≤ 32)]
  rfl

theorem csrValue_of_ge {n : Nat} (h : 7 ≤ n) (s : State) : csrValue n s = 0#32 := by
  obtain ⟨k, rfl⟩ := Nat.exists_eq_add_of_le' h
  rfl

theorem csrWritten_ctrl (v : Word) (s : State) :
    csrWritten 1 v s = if v.getLsbD 0 then s.setRx s.rx.clear else s := rfl

theorem csrWritten_of_ge {n : Nat} (h : 2 ≤ n) (v : Word) (s : State) : csrWritten n v s = s := by
  obtain ⟨k, rfl⟩ := Nat.exists_eq_add_of_le' h
  rfl

theorem rxLen_of_done {r : Rx} (h : r.ctl = .done) : rxLen r = BitVec.ofNat 32 r.acc.length := if_pos h

theorem rxLen_of_not_done {r : Rx} (h : r.ctl ≠ .done) : rxLen r = 0#32 := if_neg h

theorem exec_csrr_of_value {n : Nat} {v : Word} {s : State} (h : csrValue n s = v) :
    exec (.csrr n) s = .next { s with env := { s.env with reply := some (.csr v) } } := by
  rw [← h]
  rfl

/-- Settles O38: each CSR has its value, and the two status registers their fields. -/
theorem csrReadReturnsTheFields : Obligations.CsrReadReturnsTheFields := by
  intro s
  refine ⟨exec_csrr_of_value (zext32_eq_append s.cap), exec_csrr_of_value rfl,
    ⟨txStatus s.tx, exec_csrr_of_value rfl, ?tx⟩, ⟨rxStatus s.rx, exec_csrr_of_value rfl, ?rx⟩,
    fun h => exec_csrr_of_value (rxLen_of_done h), fun h => exec_csrr_of_value (rxLen_of_not_done h),
    exec_csrr_of_value rfl, exec_csrr_of_value rfl, fun n h => exec_csrr_of_value (csrValue_of_ge h s)⟩
  case tx => exact txStatus_fields s.tx
  case rx =>
    rw [← rxOutPend_iff, Bool.coe_iff_coe]
    exact rxStatus_fields s.rx

/-- Settles O39: a write is one of three, by its number and bit 0. -/
theorem csrWriteEffects : Obligations.CsrWriteEffects := by
  intro s v
  refine ⟨rfl, fun hbit => ?_, fun hbit => ?_, fun n h => ?_⟩
  · rw [exec, execCsrw, csrWritten_ctrl, hbit]
    rfl
  · rw [exec, execCsrw, csrWritten_ctrl, hbit]
    rfl
  · rw [exec, execCsrw, csrWritten_of_ge h]

theorem Rx.clear_of_abort {r : Rx} (h : r.ctl = .abort) : r.clear = r := if_pos h

/-- Outside `RXS_ABORT` the cleared engine keeps `rbuf` alone. -/
theorem Rx.clear_of_not_abort {r : Rx} (h : r.ctl ≠ .abort) : r.clear = { Rx.reset with rbuf := r.rbuf } := if_neg h

/-- Settles O40: the two cases of `rx_clear()`. -/
theorem rxclrClearsTheReassembler : Obligations.RxclrClearsTheReassembler := by
  intro s v
  refine ⟨fun h => ?_, fun h => ?_⟩
  · rw [exec, execRxclr, Rx.clear_of_abort h]
    rfl
  · rw [exec, execRxclr, Rx.clear_of_not_abort h]
    rfl

/-! ### The two output ports (R205, R206) -/

/-- Settles O19: `TXOUT` looks at `tx_q` alone. -/
theorem txoutTakesTheHeadOfTheQueue : Obligations.TxoutTakesTheHeadOfTheQueue := by
  intro s
  refine ⟨fun x rest hq => ?_, fun hq => ?_⟩
  · simp only [exec, execTxout, hq]
    rfl
  · simp only [exec, execTxout, hq]

section
variable {s : State}

/-- `RXOUT` where a symbol of the message is left. -/
theorem exec_rxout_of_pending {x : Symbol} (hdone : s.rx.ctl = .done) (hle : s.rx.rrd ≤ s.rx.acc.length)
    (hx : s.rx.outSymbol = x) :
    exec .rxout s = .next { s with
      rx := { s.rx with rrd := s.rx.rrd + 1 }
      env := { s.env with rxGot := s.env.rxGot ++ [x], reply := some (.symbol x) } } := by
  subst hx
  rw [exec, execRxout, if_pos ((rxOutPend_iff s.rx).mpr ⟨hdone, hle⟩)]
  rfl

theorem Rx.outSymbol_of_byte {r : Rx} {b : Byte} (h : r.acc[r.rrd]? = some b) : r.outSymbol = .byte b := by
  simp only [Rx.outSymbol, h]

theorem Rx.outSymbol_of_end {r : Rx} (h : r.rrd = r.acc.length) : r.outSymbol = .endMark := by
  simp only [Rx.outSymbol, h, List.getElem?_length]

theorem exec_rxout_of_not_pending (h : ¬ rxOutPend s.rx = true) : exec .rxout s = .next s := by
  rw [exec, execRxout, if_neg h]

end

/-- Settles O29: the symbol given is the byte at `rrd`, or `End` behind the last. -/
theorem rxoutGivesTheMessageOnlyWhenDone : Obligations.RxoutGivesTheMessageOnlyWhenDone := by
  intro s
  refine ⟨fun hdone b hb => ?byte, fun hdone hend => ?last, fun hnot => ?idle⟩
  case byte =>
    obtain ⟨hlt, -⟩ := List.getElem?_eq_some_iff.mp hb
    exact exec_rxout_of_pending hdone hlt.le (Rx.outSymbol_of_byte hb)
  case last => exact exec_rxout_of_pending hdone hend.le (Rx.outSymbol_of_end hend)
  case idle =>
    refine exec_rxout_of_not_pending fun hpend => ?_
    obtain ⟨hdone, hle⟩ := (rxOutPend_iff s.rx).mp hpend
    exact hnot.elim (fun hne => hne hdone) (Nat.not_lt.mpr hle)

/-- An `RxOut` move where a symbol of the message is left. -/
theorem step_rxOut_of_pending {s : State} {x : Symbol} {ms : List Move} (hm : s.env.moves = .rxOut :: ms)
    (hdone : s.rx.ctl = .done) (hle : s.rx.rrd ≤ s.rx.acc.length) (hx : s.rx.outSymbol = x) :
    step s = .next (State.giveRxOut { s with
      rx := { s.rx with rrd := s.rx.rrd + 1 }, env := { s.env with moves := ms } } x) := by
  rw [step_label (o := .rxOut) hm rfl rfl]
  exact exec_rxout_of_pending (s := { s with env := { s.env with moves := ms } }) hdone hle hx

/-- Where `k` bytes are left behind `rrd`, `k + 1` attempts give them and `End`. -/
theorem run_rxOuts (k : Nat) {s : State} (hdone : s.rx.ctl = .done) (hk : s.rx.rrd + k = s.rx.acc.length)
    (hm : s.env.moves = List.replicate (k + 1) .rxOut) :
    ∃ t, run (k + 1) s = .next t ∧
      t.env.rxGot = s.env.rxGot ++ (s.rx.acc.drop s.rx.rrd).map .byte ++ [.endMark] ∧
      t.rx = { s.rx with rrd := s.rx.acc.length + 1 } ∧ t.tx = s.tx := by
  induction k generalizing s with
  | zero =>
    have hend : s.rx.rrd = s.rx.acc.length := hk
    have hstep := step_rxOut_of_pending hm hdone hend.le (Rx.outSymbol_of_end hend)
    exact ⟨_, run_succ hstep, by simp [hend], by simp [hend], rfl⟩
  | succ k ih =>
    have hlt : s.rx.rrd < s.rx.acc.length := by omega
    have hk' : s.rx.rrd + 1 + k = s.rx.acc.length := by omega
    have hstep := step_rxOut_of_pending hm hdone hlt.le (Rx.outSymbol_of_byte (List.getElem?_eq_getElem hlt))
    obtain ⟨t, hrun, hgot, hrx, htx⟩ := ih (s := State.giveRxOut { s with
      rx := { s.rx with rrd := s.rx.rrd + 1 }, env := { s.env with moves := List.replicate (k + 1) .rxOut } } _)
      hdone hk' rfl
    refine ⟨t, by rw [run_succ hstep, hrun], ?_, hrx, htx⟩
    rw [hgot, List.drop_eq_getElem_cons hlt, List.map_cons, List.append_cons s.env.rxGot]
    rfl

/-- Settles O30: from `rrd` 0 all of `acc` is left. -/
theorem readOutGivesTheWholeMessage : Obligations.ReadOutGivesTheWholeMessage := by
  intro s hdone hrrd hm
  obtain ⟨t, hrun, hgot, hrx, htx⟩ := run_rxOuts s.rx.acc.length hdone (by rw [hrrd, Nat.zero_add]) hm
  rw [hrrd, List.drop_zero] at hgot
  exact ⟨t, hrun, hgot, hrx, by simp [rxOutPend, hrx], htx⟩

/-! ### A stream that the RX engine accepts whole (R184) -/

/-- Every one of these symbols is accepted in its turn, and after the last the engine shows this result. -/
def Rx.AcceptsTo (accMax : Option Nat) (epoch : Nat) (res : Result (List Byte)) : List Symbol → Rx → Prop
  | [], r => r.Shows res
  | x :: xs, r =>
    rxInEnabled r = true ∧ ∃ r', r.accept accMax epoch x = .ok r' ∧ Rx.AcceptsTo accMax epoch res xs r'

section
variable {accMax : Option Nat} {epoch : Nat} {res : Result (List Byte)} {r r' : Rx}

theorem Rx.AcceptsTo.enabled {x : Symbol} {xs : List Symbol} (h : r.AcceptsTo accMax epoch res (x :: xs)) :
    rxInEnabled r = true := h.1

theorem Rx.AcceptsTo.next {x : Symbol} {xs : List Symbol} (h : r.AcceptsTo accMax epoch res (x :: xs))
    (ha : r.accept accMax epoch x = .ok r') : r'.AcceptsTo accMax epoch res xs := by
  obtain ⟨-, u, hu, hrest⟩ := h
  obtain rfl := Except.ok.inj (hu.symm.trans ha)
  exact hrest

/-- Bytes of which `feed` leaves none have all been accepted. -/
theorem Rx.acceptsTo_of_feed {bs : List Byte} {xs : List Symbol} (hf : r.feed accMax epoch bs = .ok (r', []))
    (h : r'.AcceptsTo accMax epoch res xs) : r.AcceptsTo accMax epoch res (bs.map .byte ++ xs) := by
  induction bs generalizing r with
  | nil => cases hf; exact h
  | cons b bs ih =>
    rw [Rx.feed_cons] at hf
    split at hf
    case isTrue hen =>
      split at hf
      case h_1 u hu => exact ⟨hen, u, hu, ih hf⟩
      case h_2 => cases hf
    case isFalse => cases hf

/-- The frames of packets move their payloads to `acc`, from boundary to boundary (R178). -/
theorem Rx.feed_frames {ps : List Packet} (hwf : ∀ p ∈ ps, p.wf = true) (h : r.atBoundary)
    (hroom : ∀ k, accMax = some k → r.acc.length + (ps.map Packet.payload).flatten.length ≤ k) :
    ∃ r' : Rx, r'.atBoundary ∧ r'.acc = r.acc ++ (ps.map Packet.payload).flatten ∧
      r.feed accMax epoch (ps.map serialize).flatten = .ok (r', []) := by
  induction ps generalizing r with
  | nil => exact ⟨r, h, (List.append_nil _).symm, rfl⟩
  | cons p ps ih =>
    obtain ⟨hp, hps⟩ := List.forall_mem_cons.mp hwf
    simp only [List.map_cons, List.flatten_cons, List.length_append, ← Nat.add_assoc] at hroom ⊢
    obtain ⟨u, hu, hacc, hfeed⟩ := Rx.feed_of_deserialize_ok (epoch := epoch) h (deserialize_serialize_append hp _)
      fun k hk => Nat.le_of_add_right_le (hroom k hk)
    obtain ⟨r', hr', hacc', hfeed'⟩ := ih hps hu (by simpa only [hacc, List.length_append] using hroom)
    exact ⟨r', hr', by rw [hacc', hacc, List.append_assoc], hfeed.trans hfeed'⟩

/-- The verdict on a message whose frames have all passed (R180). -/
def messageVerdict (m : List Byte) : Result (List Byte) := reassembleFrom msgValid m []

theorem messageVerdict_eq (m : List Byte) :
    messageVerdict m = if msgValid m then .ok m else .err .corruptedMessage := rfl

/-- The stream of a message, `End` included, is accepted whole and leads to the verdict on the message. -/
theorem Rx.acceptsTo_messageFrames {m : List Byte} {c : Byte} (hc : c ≠ 0#8) (hctl : r.ctl = .idle)
    (hacc : r.acc = []) (hroom : ∀ k, accMax = some k → m.length ≤ k) :
    r.AcceptsTo accMax epoch (messageVerdict m) (messageFrames m c.toNat ++ [.endMark]) := by
  have hpay := messagePackets_payloads (message := m) (toNat_pos_of_ne_zero hc)
  obtain ⟨u, hu, hacc', hfeed⟩ := Rx.feed_frames (accMax := accMax) (epoch := epoch) (r := r)
    (messagePackets_wf m c) (.inl hctl) (by simpa [hacc, hpay] using hroom)
  rw [hacc, hpay, List.nil_append] at hacc'
  refine Rx.acceptsTo_of_feed hfeed ⟨hu.enabled, u.acceptEnd, rfl, ?_⟩
  rw [messageVerdict, ← hacc']
  exact Rx.acceptEnd_shows_of_boundary hu

/-- Only a failed engine has an error (R44 f). -/
theorem Rx.Inv.rerr_eq_none (h : r.Inv accMax epoch) (hctl : r.ctl ≠ .failed) : r.rerr = none := by
  obtain ⟨-, -, herr, -⟩ := h
  exact not_not.mp fun hne => hctl (herr.mp hne)

/-- On the way to the verdict on a message no error but `CorruptedMessage` is raised. -/
theorem Rx.AcceptsTo.rerr_eq {m : List Byte} {xs : List Symbol} (h : r.AcceptsTo accMax epoch (messageVerdict m) xs)
    (hinv : r.Inv accMax epoch) : r.rerr = none ∨ r.rerr = some .corruptedMessage := by
  cases xs with
  | cons x xs =>
    have hrunning := (rxInEnabled_iff r).mp h.enabled
    exact .inl (hinv.rerr_eq_none fun hctl => hrunning (.inr (.inl hctl)))
  | nil =>
    rw [Rx.AcceptsTo, messageVerdict_eq] at h
    split at h
    · obtain ⟨hctl, -⟩ := h
      exact .inl (hinv.rerr_eq_none (by simp [hctl]))
    · exact .inr h.2

end

/-! ### The moves of a loopback (R72, R207) -/

/-- What a `TxIn`, `TxOut` or `RxIn` move can come to, `ms` being the moves left. -/
inductive State.LoopMove (s : State) (ms : List Move) : State → Prop
  | tx {t : State} (h : s.TxMove ms t) : s.LoopMove ms t
  | accept {w : SymWord} {ws : List SymWord} {r : Rx} (hp : s.env.rxIn = w :: ws)
    (ha : s.rx.accept s.accMax s.epoch (symbolOfWord w) = .ok r) :
    s.LoopMove ms { s with rx := r, env := { s.env with moves := ms, rxIn := ws } }

/-- A message is being sent in loopback whose wire stream is `wire`: the RX engine accepts what waits on `RX_IN` and all
that has not been taken yet, and then shows the verdict on `m`. -/
structure State.Looping (x : Byte) (wire : List Symbol) (m : List Byte) (s : State) : Prop where
  inv : s.Inv
  loopback : s.env.loopback = true
  sending : s.Sending x wire
  receiving : ∀ pending, wire = s.env.txGot ++ pending →
    s.rx.AcceptsTo s.accMax s.epoch (messageVerdict m) (s.env.rxIn.map symbolOfWord ++ pending)

section
variable {x : Byte} {wire : List Symbol} {m : List Byte} {s t : State} {ms : List Move}

theorem step_rxIn_loopMove (hinv : s.Inv) (hm : s.env.moves = .rxIn :: ms) :
    ∃ t, step s = .next t ∧ s.LoopMove ms t := by
  cases hp : s.env.rxIn with
  | nil => exact ⟨_, step_idle hm (by simp only [fetchMove, hp]), .tx .quiet⟩
  | cons w ws =>
    by_cases hen : rxInEnabled s.rx = true
    · obtain ⟨r, ha⟩ := Rx.accept_completes s.accMax s.epoch (symbolOfWord w) hinv.2.payloadIndexInside
      exact ⟨_, step_rxIn_of_accept hm hp hen ha, .accept hp ha⟩
    · have hterm : s.rx.terminal := by rwa [rxInEnabled_iff, not_not] at hen
      exact ⟨_, step_rxIn_of_terminal hterm hm, .tx .quiet⟩

theorem step_loopMove {mv : Move} (hmv : mv = .txIn ∨ mv = .txOut ∨ mv = .rxIn) (hinv : s.Inv)
    (hm : s.env.moves = mv :: ms) : ∃ t, step s = .next t ∧ s.LoopMove ms t := by
  rcases hmv with rfl | rfl | rfl
  · obtain ⟨t, hstep, hmove⟩ := step_txIn_txMove hinv.1 hm
    exact ⟨t, hstep, .tx hmove⟩
  · obtain ⟨t, hstep, hmove⟩ := step_txOut_txMove hm
    exact ⟨t, hstep, .tx hmove⟩
  · exact step_rxIn_loopMove hinv hm

theorem State.LoopMove.moves_eq (h : s.LoopMove ms t) : t.env.moves = ms := by
  cases h with
  | tx h => exact h.moves_eq
  | accept hp ha => rfl

theorem State.LoopMove.loopback_eq (h : s.LoopMove ms t) : t.env.loopback = s.env.loopback := by
  cases h with
  | tx h => exact h.sameBesideTx.2.2
  | accept hp ha => rfl

theorem State.LoopMove.sending (h : s.LoopMove ms t) (hinv : s.Inv) (hs : s.Sending x wire) : t.Sending x wire := by
  cases h with
  | tx h => exact hs.txMove hinv.1 h
  | accept hp ha =>
    cases hs with
    | offering m hoff hcap hctl hlatched hwire => exact .offering m hoff hcap hctl hlatched hwire
    | sent hoff hctl hlatched hwire => exact .sent hoff hctl hlatched hwire

/-- A symbol taken from `tx_q` goes behind what waits on `RX_IN`: the stream before the RX engine stays the same until
it accepts its first symbol. -/
theorem State.LoopMove.receiving (h : s.LoopMove ms t) (hs : s.Looping x wire m) :
    ∀ pending, wire = t.env.txGot ++ pending →
      t.rx.AcceptsTo t.accMax t.epoch (messageVerdict m) (t.env.rxIn.map symbolOfWord ++ pending) := by
  intro pending hwire
  cases h with
  | tx h =>
    cases h with
    | quiet => exact hs.receiving pending hwire
    | accept hp hen ha => exact hs.receiving pending hwire
    | @take y rest hq =>
      have hbefore := hs.receiving (y :: pending) (by simpa using hwire)
      simpa [hs.loopback] using hbefore
  | accept hp ha =>
    have hbefore := hs.receiving pending hwire
    rw [hp, List.map_cons, List.cons_append] at hbefore
    exact hbefore.next ha

theorem State.Looping.after_step (h : s.Looping x wire m) (hstep : step s = .next t) (hmove : s.LoopMove ms t) :
    t.Looping x wire m :=
  ⟨invariantKeptByEveryStep s t h.inv hstep, hmove.loopback_eq.trans h.loopback, hmove.sending h.inv h.sending,
    hmove.receiving h⟩

/-- Any list of these moves completes, and the message stays under way. -/
theorem run_loopMoves {first : List Move} (hloop : ∀ mv ∈ first, mv = .txIn ∨ mv = .txOut ∨ mv = .rxIn)
    (h : s.Looping x wire m) (hm : s.env.moves = first ++ ms) :
    ∃ t, run first.length s = .next t ∧ t.Looping x wire m := by
  induction first generalizing s with
  | nil => exact ⟨s, rfl, h⟩
  | cons mv first ih =>
    obtain ⟨hmv, hfirst⟩ := List.forall_mem_cons.mp hloop
    obtain ⟨u, hstep, hmove⟩ := step_loopMove hmv h.inv hm
    obtain ⟨t, hrun, ht⟩ := ih hfirst (h.after_step hstep hmove) hmove.moves_eq
    exact ⟨t, by rw [List.length_cons, run_succ hstep, hrun], ht⟩

theorem State.Looping.rerr_eq (h : s.Looping x wire m) :
    s.rx.rerr = none ∨ s.rx.rerr = some .corruptedMessage := by
  obtain ⟨rest, hwire, -⟩ := h.sending.wire_prefix
  exact (h.receiving (s.tx.q ++ rest) (by rw [hwire, List.append_assoc])).rerr_eq h.inv.2

/-- Once nothing is offered and nothing waits, the RX engine shows the verdict. -/
theorem State.Looping.verdict (h : s.Looping x wire m) (hoff : s.env.txIn = []) (hq : s.tx.q = [])
    (hin : s.env.rxIn = []) : wire = s.env.txGot ∧ s.rx.Shows (messageVerdict m) := by
  obtain ⟨rest, hwire, hnone⟩ := h.sending.wire_prefix
  have hall : wire = s.env.txGot := by simpa [hq, hnone hoff] using hwire
  have hshows := h.receiving [] (by rw [List.append_nil, hall])
  rw [hin] at hshows
  exact ⟨hall, hshows⟩

/-! ### Each round of `loopSchedule` passes all output (R33, R207) -/

/-- A symbol that waits on `tx_q` finds the RX engine ready for it. -/
theorem State.Looping.ready (h : s.Looping x wire m) {y : Symbol} {rest : List Symbol} (hq : s.tx.q = y :: rest)
    (hin : s.env.rxIn = []) : txOutReady s = true ∧ rxInEnabled s.rx = true := by
  obtain ⟨more, hwire, -⟩ := h.sending.wire_prefix
  have hpending := h.receiving (y :: (rest ++ more)) (by rw [hwire, hq, List.append_assoc, List.cons_append])
  rw [hin] at hpending
  have hen := hpending.enabled
  exact ⟨(txOutReady_iff s).mpr fun _ => ⟨(rxInEnabled_iff _).mp hen, hin⟩, hen⟩

/-- A symbol taken and accepted at once. -/
theorem run_txOut_rxIn (h : s.Looping x wire m) (hin : s.env.rxIn = []) (hm : s.env.moves = .txOut :: .rxIn :: ms) :
    ∃ t, run 2 s = .next t ∧ t.Looping x wire m ∧ t.env.moves = ms ∧ t.env.rxIn = [] ∧
      t.tx.q = s.tx.q.tail ∧ t.env.txIn = s.env.txIn := by
  cases hq : s.tx.q with
  | nil =>
    have htake := step_txOut_of_empty hm hq
    have hu := h.after_step htake (.tx .quiet)
    have haccept := step_idle (s := { s with env := { s.env with moves := .rxIn :: ms } }) rfl
      (by simp only [fetchMove, hin])
    exact ⟨_, (run_succ htake).trans (run_succ haccept), hu.after_step haccept (.tx .quiet), rfl, hin, hq, rfl⟩
  | cons y rest =>
    obtain ⟨hready, hen⟩ := h.ready hq hin
    have htake := step_txOut_of_ready hm hready hq
    have hu := h.after_step htake (.tx (.take hq))
    have hport : (State.giveTxOut { s with
        tx := { s.tx with q := rest }, env := { s.env with moves := .rxIn :: ms } } y).env.rxIn = [wordOfSymbol y] := by
      simp [h.loopback, hin]
    obtain ⟨r, ha⟩ := Rx.accept_completes s.accMax s.epoch (symbolOfWord (wordOfSymbol y))
      h.inv.2.payloadIndexInside
    have haccept := step_rxIn_of_accept rfl hport hen ha
    exact ⟨_, (run_succ htake).trans (run_succ haccept), hu.after_step haccept (.accept hport ha), rfl, rfl, rfl, rfl⟩

/-- `k` pairs of attempts pass the first `k` symbols of `tx_q`. -/
theorem run_txOut_rxIns (k : Nat) (h : s.Looping x wire m) (hin : s.env.rxIn = [])
    (hm : s.env.moves = (List.replicate k [Move.txOut, .rxIn]).flatten ++ ms) :
    ∃ t, run (2 * k) s = .next t ∧ t.Looping x wire m ∧ t.env.moves = ms ∧ t.env.rxIn = [] ∧
      t.tx.q = s.tx.q.drop k ∧ t.env.txIn = s.env.txIn := by
  induction k generalizing s with
  | zero => exact ⟨s, rfl, h, hm, hin, rfl, rfl⟩
  | succ k ih =>
    obtain ⟨u, hrun, hu, hmu, hinu, hqu, hoffu⟩ := run_txOut_rxIn h hin hm
    obtain ⟨t, hrun', ht, hmt, hint, hqt, hofft⟩ := ih hu hinu hmu
    refine ⟨t, ?_, ht, hmt, hint, ?_, hofft.trans hoffu⟩
    · rw [Nat.mul_succ, Nat.add_comm, run_add hrun, hrun']
    · rw [hqt, hqu, List.drop_tail]

end

/-- One symbol of `loopSchedule`: it is offered, and then all output is passed. -/
def loopRound : List Move := .txIn :: (List.replicate 262 [Move.txOut, .rxIn]).flatten

theorem loopSchedule_succ (n : Nat) : loopSchedule (n + 1) = loopRound ++ loopSchedule n := rfl

theorem loopPairs_length (k : Nat) : (List.replicate k [Move.txOut, .rxIn]).flatten.length = 2 * k := by
  simp [Nat.mul_comm]

theorem loopRound_length : loopRound.length = 2 * 262 + 1 := by
  rw [loopRound, List.length_cons, loopPairs_length]

theorem mem_loopSchedule {n : Nat} {mv : Move} (h : mv ∈ loopSchedule n) : mv = .txIn ∨ mv = .txOut ∨ mv = .rxIn := by
  obtain ⟨round, hround, hmv⟩ := List.mem_flatten.mp h
  rw [List.eq_of_mem_replicate hround, List.mem_cons, List.mem_flatten] at hmv
  rcases hmv with rfl | ⟨pair, hpair, hmv⟩
  · exact .inl rfl
  · rw [List.eq_of_mem_replicate hpair] at hmv
    simpa using Or.inr hmv

section
variable {x : Byte} {wire : List Symbol} {m : List Byte} {s : State} {ms : List Move}

/-- The engine accepts the next symbol of a message under way once `tx_q` is empty. -/
theorem State.Sending.enabled {w : SymWord} {ws : List SymWord} (h : s.Sending x wire) (hq : s.tx.q = [])
    (hoff : s.env.txIn = w :: ws) : txInEnabled s.tx = true := by
  refine (txInEnabled_iff s.tx).mpr ⟨?_, hq⟩
  cases h with
  | offering m hp hcap hctl => exact hctl
  | sent hnone => simp [hnone] at hoff

/-- A round accepts one symbol and passes all of its output, which is at most 262 symbols (R33). -/
theorem run_loopRound {w : SymWord} {ws : List SymWord} (h : s.Looping x wire m) (hq : s.tx.q = [])
    (hin : s.env.rxIn = []) (hoff : s.env.txIn = w :: ws) (hm : s.env.moves = loopRound ++ ms) :
    ∃ t, run loopRound.length s = .next t ∧ t.Looping x wire m ∧ t.env.moves = ms ∧ t.env.rxIn = [] ∧
      t.tx.q = [] ∧ t.env.txIn = ws := by
  have hen := h.sending.enabled hq hoff
  obtain ⟨u, ha⟩ := Tx.accept_completes h.inv.1 hen s.cap (symbolOfWord w)
  obtain ⟨-, -, -, hlen, -⟩ := Tx.accept_inv h.inv.1 hen ha
  have hstep := step_txIn_of_accept hm hoff hen ha
  have hu := h.after_step hstep (.tx (.accept hoff hen ha))
  obtain ⟨t, hrun, ht, hmt, hint, hqt, hofft⟩ := run_txOut_rxIns 262 hu hin rfl
  exact ⟨t, by rw [loopRound_length, run_succ hstep, hrun], ht, hmt, hint,
    hqt.trans (List.drop_eq_nil_of_le hlen), hofft⟩

/-- As many rounds as symbols are offered pass the whole message. -/
theorem run_loopSchedule (n : Nat) (h : s.Looping x wire m) (hq : s.tx.q = []) (hin : s.env.rxIn = [])
    (hn : s.env.txIn.length = n) (hm : s.env.moves = loopSchedule n) :
    ∃ t, run (loopSchedule n).length s = .next t ∧ t.Looping x wire m ∧ t.env.rxIn = [] ∧ t.tx.q = [] ∧
      t.env.txIn = [] := by
  induction n generalizing s with
  | zero => exact ⟨s, rfl, h, hin, hq, List.length_eq_zero_iff.mp hn⟩
  | succ n ih =>
    obtain ⟨w, ws, hoff⟩ := List.exists_cons_of_length_eq_add_one hn
    rw [loopSchedule_succ] at hm
    obtain ⟨u, hrun, hu, hmu, hinu, hqu, hoffu⟩ := run_loopRound h hq hin hoff hm
    obtain ⟨t, hrest, ht⟩ := ih hu hqu hinu (by simpa [hoffu, hoff] using hn) hmu
    exact ⟨t, by rw [loopSchedule_succ, List.length_append, run_add hrun, hrest], ht⟩

/-- Once a message has been accepted whole the TX engine is idle. -/
theorem State.Sending.idle_of_nothing_offered (h : s.Sending x wire) (hoff : s.env.txIn = []) : s.tx.ctl = .idle := by
  cases h with
  | offering m hp => simp [hp, offered] at hoff
  | sent hp hctl => exact hctl

theorem State.looping_of_idle (hinv : s.Inv) (hctl : s.tx.ctl = .idle) (hq : s.tx.q = []) (hcap : s.cap ≠ 0#8)
    (hrx : s.rx.ctl = .idle) (hacc : s.rx.acc = []) (hroom : ∀ k, s.accMax = some k → m.length ≤ k)
    (hloop : s.env.loopback = true) (hoff : s.env.txIn = offered m x) (hin : s.env.rxIn = []) :
    s.Looping x (s.env.txGot ++ messageFrames m s.cap.toNat ++ [.endMark]) m := by
  refine ⟨hinv, hloop, State.sending_of_idle hctl hq hcap hoff, fun pending hwire => ?_⟩
  rw [List.append_assoc] at hwire
  rw [hin, ← List.append_cancel_left hwire]
  exact Rx.acceptsTo_messageFrames hcap hrx hacc hroom

end

/-- Settles O37: each round passes the output of one symbol, and the RX engine accepts the whole stream frame by frame, so
that only the verdict on the message is left. -/
theorem loopbackReturnsTheMessage : Obligations.LoopbackReturnsTheMessage := by
  intro s m x hinv hctl hq hcap hrx hacc hroom hloop hoff hin hm
  have h := State.looping_of_idle hinv hctl hq hcap hrx hacc hroom hloop hoff hin
  refine ⟨?whole, fun k t hk hrun => ?onTheWay⟩
  case whole =>
    obtain ⟨w, hw, hframes⟩ := toPacketData_eq_messageFrames m hcap
    obtain ⟨t, hrun, ht, hint, hqt, hofft⟩ := run_loopSchedule _ h hq hin (hoff ▸ offered_length m x) hm
    obtain ⟨hwire, hshows⟩ := ht.verdict hofft hqt hint
    refine ⟨t, hrun, ht.sending.idle_of_nothing_offered hofft, hqt, hofft, hint, ⟨w, hw, ?_⟩, fun hvalid => ?_,
      fun hinvalid => ?_⟩
    · rw [← hwire, hframes]
    · rwa [messageVerdict_eq, if_pos hvalid] at hshows
    · rwa [messageVerdict_eq, hinvalid] at hshows
  case onTheWay =>
    obtain ⟨t', hrun', ht'⟩ := run_loopMoves (first := (loopSchedule (m.length + 1)).take k)
      (ms := (loopSchedule (m.length + 1)).drop k) (fun mv hmv => mem_loopSchedule (List.mem_of_mem_take hmv)) h
      (hm.trans (List.take_append_drop k _).symm)
    rw [List.length_take_of_le hk, hrun] at hrun'
    obtain rfl := Host.Outcome.next.inj hrun'
    exact ht'.rerr_eq

end Sys2Proof.Machine

/-! ## Proofs: the failed and the abort states (O34, O55) -/

namespace Sys2Proof.Machine

/-! ### What a terminal state keeps until it is cleared (R182, R206, R230) -/

/-- But for the clears, an operation in a terminal state leaves the RX engine as it is, or counts a symbol of the message
taken in `RXS_DONE`. -/
theorem State.RxEffect.of_terminal {i : Instr} {s : State} {r : Rx} (h : s.RxEffect i r) (hi : clearsRx i = false)
    (hterm : s.rx.terminal) : r = s.rx ∨ (s.rx.ctl = .done ∧ r = { s.rx with rrd := s.rx.rrd + 1 }) := by
  have hdis : rxInEnabled s.rx = false := rxInEnabled_of_terminal hterm
  cases h with
  | same => exact .inl rfl
  | acceptByte hen ha => exact absurd hen (by simp [hdis])
  | acceptEnd hen => exact absurd hen (by simp [hdis])
  | frame hf =>
    rw [Rx.feed_of_terminal hterm] at hf
    cases hf
    exact .inl rfl
  | frameBadver hf =>
    rw [Rx.feed_of_terminal hterm] at hf
    cases hf
    exact .inl rfl
  | readNext hpend => exact .inr ⟨((rxOutPend_iff s.rx).mp hpend).1, rfl⟩
  | clear hc => exact absurd (hc.symm.trans hi) (by decide)

/-- Settles O34: in a terminal state only `RXOUT` writes an RX register, and it writes `rrd` alone. -/
theorem onlyClearsLeaveFailedOrDone : Obligations.OnlyClearsLeaveFailedOrDone := by
  intro i s t hx hi
  have hreset : i ≠ .reset := by
    rintro rfl
    cases hi
  have heffect : s.RxEffect i t.rx := exec_rxEffect hx hreset
  refine ⟨fun hfailed => ?_, fun hdone => ?_⟩
  · rcases heffect.of_terminal hi (.inr (.inl hfailed)) with hr | ⟨hdone, -⟩
    · exact hr
    · exact absurd (hfailed.symm.trans hdone) (by decide)
  · rcases heffect.of_terminal hi (.inl hdone) with hr | ⟨-, hr⟩ <;> rw [hr]
    · exact ⟨hdone, rfl, rfl, le_rfl⟩
    · exact ⟨hdone, rfl, rfl, Nat.le_succ _⟩

/-! ### With `ACC_MAX` unbounded nothing puts the RX engine into `RXS_ABORT` (R178, R232, R235) -/

section
variable {epoch : Nat} {r r' : Rx}

theorem Rx.commit_ctl_of_unbounded (epoch : Nat) (r : Rx) : (r.commit none epoch).ctl = .acc := rfl

theorem Rx.lengthByte_ctl_ne_abort (b : Byte) (r : Rx) : (r.lengthByte b).ctl ≠ .abort := by
  unfold Rx.lengthByte
  split
  · simp
  · dsimp only
    split <;> simp

theorem Rx.checksumByte_ctl_ne_abort (b : Byte) (h : r.ctl ≠ .abort) : (r.checksumByte none epoch b).ctl ≠ .abort := by
  unfold Rx.checksumByte
  dsimp only
  split
  · split
    · simp [Rx.commit_ctl_of_unbounded]
    · simp
  · exact h

theorem Rx.acceptByte_ctl_ne_abort {b : Byte} (h : r.ctl ≠ .abort) (ha : r.acceptByte none epoch b = .ok r') :
    r'.ctl ≠ .abort := by
  rcases Rx.acceptByte_ok ha with ⟨-, rfl⟩ | ⟨-, rfl⟩ | ⟨-, hp⟩ | ⟨-, rfl⟩ | ⟨-, rfl⟩
  · simp [Rx.versionByte]
  · exact Rx.lengthByte_ctl_ne_abort b _
  · obtain ⟨-, ⟨-, rfl⟩ | ⟨-, rfl⟩⟩ := Rx.payloadByte_ok hp
    · exact h
    · simp
  · exact Rx.checksumByte_ctl_ne_abort b h
  · exact h

theorem Rx.acceptEnd_ctl_ne_abort (h : r.ctl ≠ .abort) : r.acceptEnd.ctl ≠ .abort := by
  have hboundary : r.endAtBoundary.ctl ≠ .abort := by
    unfold Rx.endAtBoundary
    split <;> simp
  unfold Rx.acceptEnd
  split
  · exact hboundary
  · exact hboundary
  · simp
  · simp
  · simp
  all_goals exact h

theorem Rx.feed_ctl_ne_abort {bs rest : List Byte} (h : r.ctl ≠ .abort)
    (hf : r.feed none epoch bs = .ok (r', rest)) : r'.ctl ≠ .abort := by
  induction bs generalizing r with
  | nil => cases hf; exact h
  | cons b bs ih =>
    rw [Rx.feed_cons] at hf
    split at hf
    · split at hf
      · rename_i hb
        exact ih (Rx.acceptByte_ctl_ne_abort h hb) hf
      · cases hf
    · cases hf
      exact h

end

/-- Only `commit()` with too little room aborts the RX engine, and with `ACC_MAX` unbounded there is always room. -/
theorem State.RxEffect.ctl_ne_abort {i : Instr} {s : State} {r : Rx} (h : s.RxEffect i r) (hmax : s.accMax = none)
    (hctl : s.rx.ctl ≠ .abort) : r.ctl ≠ .abort := by
  cases h with
  | same => exact hctl
  | acceptByte hen ha => exact Rx.acceptByte_ctl_ne_abort hctl (hmax ▸ ha)
  | acceptEnd hen => exact Rx.acceptEnd_ctl_ne_abort hctl
  | frame hf => exact Rx.feed_ctl_ne_abort hctl (hmax ▸ hf)
  | frameBadver hf => exact Rx.feed_ctl_ne_abort hctl (hmax ▸ hf)
  | readNext hpend => exact hctl
  | clear hc => simp [Rx.clear_of_not_abort hctl, Rx.reset]

/-- Settles O55: wire input stays apart from the TX engine and `CAP`, and without a bound on `acc` no frame aborts. -/
theorem wireInputCausesOnlyPacketErrors : Obligations.WireInputCausesOnlyPacketErrors := by
  intro i s t hi hx
  obtain ⟨htx, hcap, -⟩ := exec_apartFromTx_of_isWireInput hi s t hx
  have hreset : i ≠ .reset := by
    rintro rfl
    cases hi
  refine ⟨hcap, htx, fun hmax hok hbad => ?_⟩
  rcases hbad with htxAbort | hrxAbort
  · exact hok (.inl (htx ▸ htxAbort))
  · exact (exec_rxEffect hx hreset).ctl_ne_abort hmax (fun hrx => hok (.inr hrx)) hrxAbort

end Sys2Proof.Machine

/-! ## Proofs: the abort states and `RESET` (O9, O10, O11) -/

namespace Sys2Proof.Machine

/-! ### What an operation can do in an abort state (R158, R182, R251) -/

/-- The aborted TX engine accepts no symbol; the host can still take what waits on `tx_q`. -/
theorem State.TxEffect.of_abort {i : Instr} {s t : State} (h : s.TxEffect i t) (hctl : s.tx.ctl = .abort) :
    t.tx.ctl = .abort ∧ (s.tx.q = [] → t.tx.q = []) := by
  have hdis : ¬ txInEnabled s.tx = true := fun hen => ((txInEnabled_iff s.tx).mp hen).1 hctl
  cases h with
  | same htx hgot =>
    rw [htx]
    exact ⟨hctl, id⟩
  | acceptByte hen ha => exact absurd hen hdis
  | acceptEnd hen ha => exact absurd hen hdis
  | take hq => exact ⟨hctl, fun hempty => absurd (hempty.symm.trans hq) (List.cons_ne_nil _ _).symm⟩

/-- The aborted RX engine is as every terminal state, and `rx_clear()` does nothing to it either (R204). -/
theorem State.RxEffect.eq_of_abort {i : Instr} {s : State} {r : Rx} (h : s.RxEffect i r) (hctl : s.rx.ctl = .abort) :
    r = s.rx := by
  cases hi : clearsRx i with
  | false =>
    rcases h.of_terminal hi (.inr (.inr hctl)) with hr | ⟨hdone, -⟩
    · exact hr
    · exact absurd (hctl.symm.trans hdone) (by decide)
  | true =>
    cases h with
    | same => rfl
    | clear => exact Rx.clear_of_abort hctl
    | _ => cases hi

/-- Settles O11: in its abort state neither engine accepts a symbol, and `rx_clear()` has no effect. -/
theorem onlyResetLeavesAnAbortState : Obligations.OnlyResetLeavesAnAbortState := by
  intro i s t hx hreset
  exact ⟨(exec_txEffect hx hreset).of_abort, (exec_rxEffect hx hreset).eq_of_abort⟩

/-! ### The state `RESET` leaves (R45, R250) -/

section
variable (s : State)

theorem exec_reset : exec .reset s = .next s.blockReset := rfl

@[simp] theorem Memory.load_nil (free : Nat → Byte) (i : Nat) : Memory.load free [] i = free i := rfl

theorem State.blockReset_tbuf_load (i : Nat) :
    s.blockReset.tx.tbuf.load (tbufFree s.blockReset.epoch) i = Config.tbufUnspecified (s.epoch + 1) i :=
  Memory.load_nil _ i

theorem State.blockReset_rbuf_load (i : Nat) :
    s.blockReset.rx.rbuf.load (rbufFree s.blockReset.epoch) i = Config.rbufUnspecified (s.epoch + 1) i :=
  Memory.load_nil _ i

theorem State.blockReset_txInEnabled : txInEnabled s.blockReset.tx = true := Tx.enabled_of_idle rfl rfl

/-- After `RESET` `CAP` is 0, so any symbol on `TX_IN` starts a message that aborts (R152, R256). -/
theorem txIn_blockReset (w : SymWord) :
    txIn w s.blockReset = .next (s.blockReset.setTx { Tx.reset with tcap := 0#8, ctl := .abort }) :=
  txIn_of_accept s.blockReset_txInEnabled (Tx.accept_idle_zero _ rfl _)

end

/-- Settles O9: each register is the one `blockReset` writes, and both buffers are empty. -/
theorem resetWritesEveryRegister : Obligations.ResetWritesEveryRegister := by
  intro s
  refine ⟨s.blockReset, exec_reset s, ?_, ?_, ?_, ?_, ?_, ?_, ?_, ?_, ?_, ?_, ?_, ?_, ?_, ?_, ?_, ?_, ?_,
    s.blockReset_tbuf_load, s.blockReset_rbuf_load, s.blockReset_accMax, s.blockReset_env⟩ <;> rfl

/-- Settles O10: both engines are idle with nothing to give, and `CAP` is 0. -/
theorem bothEnginesReadyAfterReset : Obligations.BothEnginesReadyAfterReset := by
  intro s
  obtain ⟨-, htxout⟩ := txoutTakesTheHeadOfTheQueue s.blockReset
  exact ⟨s.blockReset, exec_reset s, s.blockReset_txInEnabled, rfl, htxout rfl,
    exec_rxout_of_not_pending (by simp [rxOutPend_iff, Rx.reset]),
    fun w => ⟨_, txIn_blockReset s w, rfl, rfl⟩⟩

end Sys2Proof.Machine
